-- ==== Sys2Proof/Word.lean ====
section
/-! DEFINITION. The words of the block and the two-valued selectors (00_scope.md R8, R9; 10_state.md R29 to R31). -/

namespace Sys2Proof

/-- `u8`, the addressable unit (20_memory.md R60). -/
abbrev Byte := BitVec 8

/-- `u16`, the stored width of `acc`, `x`, `y`, `direct_page`, `stack_ptr`, `pc` (10_state.md R20). -/
abbrev Word := BitVec 16

/-- `u24`, an address (20_memory.md R60). -/
abbrev Addr := BitVec 24

/-- A logical width (00_scope.md R9). -/
inductive Width where
  | bit8
  | bit16
  deriving DecidableEq, Repr

/-- `nbytes(w)` (00_scope.md R9). -/
def Width.nbytes : Width → Nat
  | .bit8 => 1
  | .bit16 => 2

/-- The two values of `emu_mode` (10_state.md R29). -/
inductive OpMode where
  | emulation
  | native
  deriving DecidableEq, Repr

/-- `zext_N` (00_scope.md R8). -/
abbrev zext {m : Nat} (n : Nat) (v : BitVec m) : BitVec n := v.setWidth n

/-- `sext_N` (00_scope.md R8): defined for completeness, no rule uses it. -/
abbrev sext {m : Nat} (n : Nat) (v : BitVec m) : BitVec n := v.signExtend n

end Sys2Proof
end

