-- ==== Sys2Proof/Syntax.lean ====
section
/-! DEFINITION. The instructions: one constructor per row of spec/opcode_table.json (30_encoding.md R96). A constructor
carries the operand of its format (30_encoding.md R91, R93): `o8`, `o16`, `o24`, or `imm`, the immediate datum
zero-extended to 16 bits. -/

namespace Sys2Proof

/-- A decoded instruction with its operand (log 7). -/
inductive Instr where
  /-- `ORA #$hh or #$hhhh`: opcode `0x09`, R203. -/
  | oraImm (imm : Word)
  /-- `ORA $hhhh`: opcode `0x0D`, R204. -/
  | oraAbs (o16 : Word)
  /-- `ORA $hhhhhh`: opcode `0x0F`, R205. -/
  | oraLong (o24 : Addr)
  /-- `ORA $hh`: opcode `0x05`, R206. -/
  | oraDp (o8 : Byte)
  /-- `ORA ($hh)`: opcode `0x12`, R207. -/
  | oraDpInd (o8 : Byte)
  /-- `ORA [$hh]`: opcode `0x07`, R208. -/
  | oraDpIndLong (o8 : Byte)
  /-- `ORA $hhhh,X`: opcode `0x1D`, R209. -/
  | oraAbsX (o16 : Word)
  /-- `ORA $hhhhhh,X`: opcode `0x1F`, R210. -/
  | oraLongX (o24 : Addr)
  /-- `ORA $hhhh,Y`: opcode `0x19`, R211. -/
  | oraAbsY (o16 : Word)
  /-- `ORA $hh,X`: opcode `0x15`, R212. -/
  | oraDpX (o8 : Byte)
  /-- `ORA ($hh,X)`: opcode `0x01`, R213. -/
  | oraDpXInd (o8 : Byte)
  /-- `ORA ($hh),Y`: opcode `0x11`, R214. -/
  | oraDpIndY (o8 : Byte)
  /-- `ORA [$hh],Y`: opcode `0x17`, R215. -/
  | oraDpIndLongY (o8 : Byte)
  /-- `ORA $hh,S`: opcode `0x03`, R216. -/
  | oraSr (o8 : Byte)
  /-- `ORA ($hh,S),Y`: opcode `0x13`, R217. -/
  | oraSrIndY (o8 : Byte)
  /-- `AND #$hh or #$hhhh`: opcode `0x29`, R218. -/
  | andImm (imm : Word)
  /-- `AND $hhhh`: opcode `0x2D`, R219. -/
  | andAbs (o16 : Word)
  /-- `AND $hhhhhh`: opcode `0x2F`, R220. -/
  | andLong (o24 : Addr)
  /-- `AND $hh`: opcode `0x25`, R221. -/
  | andDp (o8 : Byte)
  /-- `AND ($hh)`: opcode `0x32`, R222. -/
  | andDpInd (o8 : Byte)
  /-- `AND [$hh]`: opcode `0x27`, R223. -/
  | andDpIndLong (o8 : Byte)
  /-- `AND $hhhh,X`: opcode `0x3D`, R224. -/
  | andAbsX (o16 : Word)
  /-- `AND $hhhhhh,X`: opcode `0x3F`, R225. -/
  | andLongX (o24 : Addr)
  /-- `AND $hhhh,Y`: opcode `0x39`, R226. -/
  | andAbsY (o16 : Word)
  /-- `AND $hh,X`: opcode `0x35`, R227. -/
  | andDpX (o8 : Byte)
  /-- `AND ($hh,X)`: opcode `0x21`, R228. -/
  | andDpXInd (o8 : Byte)
  /-- `AND ($hh),Y`: opcode `0x31`, R229. -/
  | andDpIndY (o8 : Byte)
  /-- `AND [$hh],Y`: opcode `0x37`, R230. -/
  | andDpIndLongY (o8 : Byte)
  /-- `AND $hh,S`: opcode `0x23`, R231. -/
  | andSr (o8 : Byte)
  /-- `AND ($hh,S),Y`: opcode `0x33`, R232. -/
  | andSrIndY (o8 : Byte)
  /-- `BIT #$hh or #$hhhh`: opcode `0x89`, R244. -/
  | bitImm (imm : Word)
  /-- `BIT $hhhh`: opcode `0x2C`, R245. -/
  | bitAbs (o16 : Word)
  /-- `BIT $hh`: opcode `0x24`, R246. -/
  | bitDp (o8 : Byte)
  /-- `BIT $hhhh,X`: opcode `0x3C`, R247. -/
  | bitAbsX (o16 : Word)
  /-- `BIT $hh,X`: opcode `0x34`, R248. -/
  | bitDpX (o8 : Byte)
  /-- `TRB $hhhh`: opcode `0x1C`, R249. -/
  | trbAbs (o16 : Word)
  /-- `TRB $hh`: opcode `0x14`, R250. -/
  | trbDp (o8 : Byte)
  /-- `TSB $hhhh`: opcode `0x0C`, R251. -/
  | tsbAbs (o16 : Word)
  /-- `TSB $hh`: opcode `0x04`, R252. -/
  | tsbDp (o8 : Byte)
  /-- `ASL A`: opcode `0x0A`, R262. -/
  | aslA
  /-- `ASL $hh`: opcode `0x06`, R263. -/
  | aslDp (o8 : Byte)
  /-- `ASL $hhhh`: opcode `0x0E`, R264. -/
  | aslAbs (o16 : Word)
  /-- `ASL $hh,X`: opcode `0x16`, R265. -/
  | aslDpX (o8 : Byte)
  /-- `ASL $hhhh,X`: opcode `0x1E`, R266. -/
  | aslAbsX (o16 : Word)
  /-- `ROL A`: opcode `0x2A`, R267. -/
  | rolA
  /-- `ROL $hh`: opcode `0x26`, R268. -/
  | rolDp (o8 : Byte)
  /-- `ROL $hhhh`: opcode `0x2E`, R269. -/
  | rolAbs (o16 : Word)
  /-- `ROL $hh,X`: opcode `0x36`, R270. -/
  | rolDpX (o8 : Byte)
  /-- `ROL $hhhh,X`: opcode `0x3E`, R271. -/
  | rolAbsX (o16 : Word)
  /-- `LSR A`: opcode `0x4A`, R272. -/
  | lsrA
  /-- `LSR $hh`: opcode `0x46`, R273. -/
  | lsrDp (o8 : Byte)
  /-- `LSR $hhhh`: opcode `0x4E`, R274. -/
  | lsrAbs (o16 : Word)
  /-- `LSR $hh,X`: opcode `0x56`, R275. -/
  | lsrDpX (o8 : Byte)
  /-- `LSR $hhhh,X`: opcode `0x5E`, R276. -/
  | lsrAbsX (o16 : Word)
  /-- `ROR A`: opcode `0x6A`, R277. -/
  | rorA
  /-- `ROR $hh`: opcode `0x66`, R278. -/
  | rorDp (o8 : Byte)
  /-- `ROR $hhhh`: opcode `0x6E`, R279. -/
  | rorAbs (o16 : Word)
  /-- `ROR $hh,X`: opcode `0x76`, R280. -/
  | rorDpX (o8 : Byte)
  /-- `ROR $hhhh,X`: opcode `0x7E`, R281. -/
  | rorAbsX (o16 : Word)
  /-- `INC A`: opcode `0x1A`, R293. -/
  | incA
  /-- `INC $hhhh`: opcode `0xEE`, R294. -/
  | incAbs (o16 : Word)
  /-- `INC $hh`: opcode `0xE6`, R295. -/
  | incDp (o8 : Byte)
  /-- `INC $hhhh,X`: opcode `0xFE`, R296. -/
  | incAbsX (o16 : Word)
  /-- `INC $hh,X`: opcode `0xF6`, R297. -/
  | incDpX (o8 : Byte)
  /-- `INX`: opcode `0xE8`, R298. -/
  | inx
  /-- `INY`: opcode `0xC8`, R299. -/
  | iny
  /-- `DEC A`: opcode `0x3A`, R300. -/
  | decA
  /-- `DEC $hhhh`: opcode `0xCE`, R301. -/
  | decAbs (o16 : Word)
  /-- `DEC $hh`: opcode `0xC6`, R302. -/
  | decDp (o8 : Byte)
  /-- `DEC $hhhh,X`: opcode `0xDE`, R303. -/
  | decAbsX (o16 : Word)
  /-- `DEC $hh,X`: opcode `0xD6`, R304. -/
  | decDpX (o8 : Byte)
  /-- `DEX`: opcode `0xCA`, R305. -/
  | dex
  /-- `DEY`: opcode `0x88`, R306. -/
  | dey
  /-- `CLC`: opcode `0x18`, R323. -/
  | clc
  /-- `SEC`: opcode `0x38`, R324. -/
  | sec
  /-- `CLD`: opcode `0xD8`, R325. -/
  | cld
  /-- `SED`: opcode `0xF8`, R326. -/
  | sed
  /-- `SEI`: opcode `0x78`, R327. -/
  | sei
  /-- `CLI`: opcode `0x58`, R328. -/
  | cli
  /-- `CLV`: opcode `0xB8`, R329. -/
  | clv
  /-- `NOP`: opcode `0xEA`, R330. -/
  | nop
  /-- `XBA`: opcode `0xEB`, R331. -/
  | xba
  /-- `XCE`: opcode `0xFB`, R332. -/
  | xce
  /-- `REP #$hh`: opcode `0xC2`, R333. -/
  | rep (o8 : Byte)
  /-- `SEP #$hh`: opcode `0xE2`, R334. -/
  | sep (o8 : Byte)
  deriving DecidableEq, Repr

end Sys2Proof
end

