-- ==== Sys2Proof/WellFormed.lean ====
section
/-! DEFINITION. Which instructions an encoding exists for. Operand widths are in the types; the one check is that an
immediate datum fits the width the instruction is decoded at (30_encoding.md R93, R94; 41_addressing_modes.md R145). -/

namespace Sys2Proof

/-- The immediate datum fits `nbytes(w)` bytes (30_encoding.md R93, R94). -/
def immFits (w : Width) (imm : Word) : Bool :=
  match w with
  | .bit8 => imm.toNat < 0x100
  | .bit16 => true

/-- Well-formed at observed accumulator width `w`. -/
def Instr.wellFormed (w : Width) : Instr → Bool
  | .oraImm imm => immFits w imm
  | .andImm imm => immFits w imm
  | .bitImm imm => immFits w imm
  | .oraAbs _ | .oraLong _ | .oraDp _ | .oraDpInd _ | .oraDpIndLong _ | .oraAbsX _ | .oraLongX _ | .oraAbsY _
  | .oraDpX _ | .oraDpXInd _ | .oraDpIndY _ | .oraDpIndLongY _ | .oraSr _ | .oraSrIndY _ | .andAbs _
  | .andLong _ | .andDp _ | .andDpInd _ | .andDpIndLong _ | .andAbsX _ | .andLongX _ | .andAbsY _ | .andDpX _
  | .andDpXInd _ | .andDpIndY _ | .andDpIndLongY _ | .andSr _ | .andSrIndY _ | .bitAbs _ | .bitDp _
  | .bitAbsX _ | .bitDpX _ | .trbAbs _ | .trbDp _ | .tsbAbs _ | .tsbDp _ | .aslA | .aslDp _ | .aslAbs _
  | .aslDpX _ | .aslAbsX _ | .rolA | .rolDp _ | .rolAbs _ | .rolDpX _ | .rolAbsX _ | .lsrA | .lsrDp _
  | .lsrAbs _ | .lsrDpX _ | .lsrAbsX _ | .rorA | .rorDp _ | .rorAbs _ | .rorDpX _ | .rorAbsX _ | .incA
  | .incAbs _ | .incDp _ | .incAbsX _ | .incDpX _ | .inx | .iny | .decA | .decAbs _ | .decDp _ | .decAbsX _
  | .decDpX _ | .dex | .dey | .clc | .sec | .cld | .sed | .sei | .cli | .clv | .nop | .xba | .xce | .rep _
  | .sep _ => true

end Sys2Proof
end

