-- ==== Sys2Proof/Decode.lean ====
section
/-! DEFINITION. Decoding and encoding (30_encoding.md), written from the spec's opcode tables, and the little-endian byte
order (20_memory.md R61). -/

namespace Sys2Proof

/-! ## Byte order -/

/-- The unsigned value of bytes in ascending address order, low byte first (20_memory.md R61). -/
def leValue : List Byte → Nat
  | [] => 0
  | b :: bs => b.toNat + 0x100 * leValue bs

/-- The low `n` bytes of a value, low byte first (20_memory.md R64). -/
def leBytes : Nat → Nat → List Byte
  | 0, _ => []
  | n + 1, v => BitVec.ofNat 8 v :: leBytes n (v / 0x100)

/-! ## Formats -/

/-- An opcode byte's instruction still waiting for its operand: the five formats of 30_encoding.md R91. -/
inductive Form where
  | imp (i : Instr)
  | op8 (i : Byte → Instr)
  | op16 (i : Word → Instr)
  | op24 (i : Addr → Instr)
  | immM (i : Word → Instr)

/-- The number of operand bytes at observed accumulator width `w` (30_encoding.md R91, R94). -/
def Form.operandBytes (w : Width) : Form → Nat
  | .imp _ => 0
  | .op8 _ => 1
  | .op16 _ => 2
  | .op24 _ => 3
  | .immM _ => w.nbytes

/-- The instruction with the assembled operand `v` (30_encoding.md R93). -/
def Form.build (v : Nat) : Form → Instr
  | .imp i => i
  | .op8 i => i (BitVec.ofNat 8 v)
  | .op16 i => i (BitVec.ofNat 16 v)
  | .op24 i => i (BitVec.ofNat 24 v)
  | .immM i => i (BitVec.ofNat 16 v)

/-! ## The five family decoders (30_encoding.md R95): `none` is "not this family" -/

/-- The ORA and AND rows (43_logical_ora_and.md R200). -/
def logicalTable : List (Byte × Form) :=
  [(0x09, .immM .oraImm), (0x0D, .op16 .oraAbs), (0x0F, .op24 .oraLong),
   (0x05, .op8 .oraDp), (0x12, .op8 .oraDpInd), (0x07, .op8 .oraDpIndLong),
   (0x1D, .op16 .oraAbsX), (0x1F, .op24 .oraLongX), (0x19, .op16 .oraAbsY),
   (0x15, .op8 .oraDpX), (0x01, .op8 .oraDpXInd), (0x11, .op8 .oraDpIndY),
   (0x17, .op8 .oraDpIndLongY), (0x03, .op8 .oraSr), (0x13, .op8 .oraSrIndY),
   (0x29, .immM .andImm), (0x2D, .op16 .andAbs), (0x2F, .op24 .andLong),
   (0x25, .op8 .andDp), (0x32, .op8 .andDpInd), (0x27, .op8 .andDpIndLong),
   (0x3D, .op16 .andAbsX), (0x3F, .op24 .andLongX), (0x39, .op16 .andAbsY),
   (0x35, .op8 .andDpX), (0x21, .op8 .andDpXInd), (0x31, .op8 .andDpIndY),
   (0x37, .op8 .andDpIndLongY), (0x23, .op8 .andSr), (0x33, .op8 .andSrIndY)]

/-- The ORA/AND family. -/
def decodeLogical (b : Byte) : Option Form := logicalTable.lookup b

/-- The BIT, TRB and TSB rows (44_bit_trb_tsb.md R240). -/
def bitTestTable : List (Byte × Form) :=
  [(0x89, .immM .bitImm), (0x2C, .op16 .bitAbs), (0x24, .op8 .bitDp),
   (0x3C, .op16 .bitAbsX), (0x34, .op8 .bitDpX), (0x1C, .op16 .trbAbs),
   (0x14, .op8 .trbDp), (0x0C, .op16 .tsbAbs), (0x04, .op8 .tsbDp)]

/-- The BIT/TRB/TSB family. -/
def decodeBitTest (b : Byte) : Option Form := bitTestTable.lookup b

/-- The operations of the shift family, in the order of opcode bits 6:5 (30_encoding.md R97). -/
inductive ShiftOp where
  | asl
  | rol
  | lsr
  | ror
  deriving DecidableEq, Repr

/-- Opcode bits 6:5 select the operation (30_encoding.md R97). -/
def shiftOpOfBits (b : Byte) : ShiftOp :=
  match b.getLsbD 6, b.getLsbD 5 with
  | false, false => .asl
  | false, true => .rol
  | true, false => .lsr
  | true, true => .ror

/-- Opcode bits 4:0 select the mode (30_encoding.md R97; 45_shift_rotate.md R260); any other value is not this family. -/
def shiftForm (modeBits : BitVec 5) : ShiftOp → Option Form
  | .asl => [(0x0A, .imp .aslA), (0x06, .op8 .aslDp), (0x0E, .op16 .aslAbs), (0x16, .op8 .aslDpX), (0x1E, .op16 .aslAbsX)].lookup modeBits
  | .rol => [(0x0A, .imp .rolA), (0x06, .op8 .rolDp), (0x0E, .op16 .rolAbs), (0x16, .op8 .rolDpX), (0x1E, .op16 .rolAbsX)].lookup modeBits
  | .lsr => [(0x0A, .imp .lsrA), (0x06, .op8 .lsrDp), (0x0E, .op16 .lsrAbs), (0x16, .op8 .lsrDpX), (0x1E, .op16 .lsrAbsX)].lookup modeBits
  | .ror => [(0x0A, .imp .rorA), (0x06, .op8 .rorDp), (0x0E, .op16 .rorAbs), (0x16, .op8 .rorDpX), (0x1E, .op16 .rorAbsX)].lookup modeBits

/-- The shift and rotate family, by bit fields of the opcode byte (30_encoding.md R97; 90_conflicts.md C1). -/
def decodeShift (b : Byte) : Option Form :=
  if b.getLsbD 7 then none else shiftForm (b.extractLsb' 0 5) (shiftOpOfBits b)

/-- The INC, INX, INY, DEC, DEX and DEY rows (46_inc_dec.md R290). -/
def incDecTable : List (Byte × Form) :=
  [(0x1A, .imp .incA), (0xEE, .op16 .incAbs), (0xE6, .op8 .incDp),
   (0xFE, .op16 .incAbsX), (0xF6, .op8 .incDpX), (0xE8, .imp .inx),
   (0xC8, .imp .iny), (0x3A, .imp .decA), (0xCE, .op16 .decAbs),
   (0xC6, .op8 .decDp), (0xDE, .op16 .decAbsX), (0xD6, .op8 .decDpX),
   (0xCA, .imp .dex), (0x88, .imp .dey)]

/-- The INC/DEC family. -/
def decodeIncDec (b : Byte) : Option Form := incDecTable.lookup b

/-- The processor-status rows (47_status_ops.md R320). PRESUMED (unsafe): the twelve bytes are general knowledge of the
WDC part and not in the source (30_encoding.md R98; log 10). -/
def statusTable : List (Byte × Form) :=
  [(0x18, .imp .clc), (0x38, .imp .sec), (0xD8, .imp .cld),
   (0xF8, .imp .sed), (0x78, .imp .sei), (0x58, .imp .cli),
   (0xB8, .imp .clv), (0xEA, .imp .nop), (0xEB, .imp .xba),
   (0xFB, .imp .xce), (0xC2, .op8 .rep), (0xE2, .op8 .sep)]

/-- The processor-status family. -/
def decodeStatus (b : Byte) : Option Form := statusTable.lookup b

/-- `Decode(byte)` (30_encoding.md R95; 48_opcode_protocol.md R356): the one family that claims the byte, or `none`,
`NotClaimed`. -/
def decodeOpcode (b : Byte) : Option Form :=
  (decodeLogical b).or ((decodeBitTest b).or ((decodeShift b).or ((decodeIncDec b).or (decodeStatus b))))

/-! ## Decoding bytes -/

/-- Why bytes do not decode. -/
inductive DecodeError where
  /-- No family claims the opcode byte (30_encoding.md R99). -/
  | notClaimed (b : Byte)
  /-- The bytes end before the instruction does. -/
  | truncated
  deriving DecidableEq, Repr

/-- The instruction at the head of some bytes, at observed accumulator width `w`, and the bytes after it
(30_encoding.md R90 to R94). -/
def decode (w : Width) : List Byte → Except DecodeError (Instr × List Byte)
  | [] => .error .truncated
  | b :: bs =>
    match decodeOpcode b with
    | none => .error (.notClaimed b)
    | some f =>
      let n := f.operandBytes w
      if bs.length < n then .error .truncated else .ok (f.build (leValue (bs.take n)), bs.drop n)

/-! ## Encoding -/

/-- The bytes of a well-formed instruction at observed accumulator width `w` (30_encoding.md R91, R96). -/
def encode (w : Width) : Instr → List Byte
  | .oraImm imm => 0x09 :: leBytes w.nbytes imm.toNat
  | .oraAbs o16 => 0x0D :: leBytes 2 o16.toNat
  | .oraLong o24 => 0x0F :: leBytes 3 o24.toNat
  | .oraDp o8 => 0x05 :: leBytes 1 o8.toNat
  | .oraDpInd o8 => 0x12 :: leBytes 1 o8.toNat
  | .oraDpIndLong o8 => 0x07 :: leBytes 1 o8.toNat
  | .oraAbsX o16 => 0x1D :: leBytes 2 o16.toNat
  | .oraLongX o24 => 0x1F :: leBytes 3 o24.toNat
  | .oraAbsY o16 => 0x19 :: leBytes 2 o16.toNat
  | .oraDpX o8 => 0x15 :: leBytes 1 o8.toNat
  | .oraDpXInd o8 => 0x01 :: leBytes 1 o8.toNat
  | .oraDpIndY o8 => 0x11 :: leBytes 1 o8.toNat
  | .oraDpIndLongY o8 => 0x17 :: leBytes 1 o8.toNat
  | .oraSr o8 => 0x03 :: leBytes 1 o8.toNat
  | .oraSrIndY o8 => 0x13 :: leBytes 1 o8.toNat
  | .andImm imm => 0x29 :: leBytes w.nbytes imm.toNat
  | .andAbs o16 => 0x2D :: leBytes 2 o16.toNat
  | .andLong o24 => 0x2F :: leBytes 3 o24.toNat
  | .andDp o8 => 0x25 :: leBytes 1 o8.toNat
  | .andDpInd o8 => 0x32 :: leBytes 1 o8.toNat
  | .andDpIndLong o8 => 0x27 :: leBytes 1 o8.toNat
  | .andAbsX o16 => 0x3D :: leBytes 2 o16.toNat
  | .andLongX o24 => 0x3F :: leBytes 3 o24.toNat
  | .andAbsY o16 => 0x39 :: leBytes 2 o16.toNat
  | .andDpX o8 => 0x35 :: leBytes 1 o8.toNat
  | .andDpXInd o8 => 0x21 :: leBytes 1 o8.toNat
  | .andDpIndY o8 => 0x31 :: leBytes 1 o8.toNat
  | .andDpIndLongY o8 => 0x37 :: leBytes 1 o8.toNat
  | .andSr o8 => 0x23 :: leBytes 1 o8.toNat
  | .andSrIndY o8 => 0x33 :: leBytes 1 o8.toNat
  | .bitImm imm => 0x89 :: leBytes w.nbytes imm.toNat
  | .bitAbs o16 => 0x2C :: leBytes 2 o16.toNat
  | .bitDp o8 => 0x24 :: leBytes 1 o8.toNat
  | .bitAbsX o16 => 0x3C :: leBytes 2 o16.toNat
  | .bitDpX o8 => 0x34 :: leBytes 1 o8.toNat
  | .trbAbs o16 => 0x1C :: leBytes 2 o16.toNat
  | .trbDp o8 => 0x14 :: leBytes 1 o8.toNat
  | .tsbAbs o16 => 0x0C :: leBytes 2 o16.toNat
  | .tsbDp o8 => 0x04 :: leBytes 1 o8.toNat
  | .aslA => [0x0A]
  | .aslDp o8 => 0x06 :: leBytes 1 o8.toNat
  | .aslAbs o16 => 0x0E :: leBytes 2 o16.toNat
  | .aslDpX o8 => 0x16 :: leBytes 1 o8.toNat
  | .aslAbsX o16 => 0x1E :: leBytes 2 o16.toNat
  | .rolA => [0x2A]
  | .rolDp o8 => 0x26 :: leBytes 1 o8.toNat
  | .rolAbs o16 => 0x2E :: leBytes 2 o16.toNat
  | .rolDpX o8 => 0x36 :: leBytes 1 o8.toNat
  | .rolAbsX o16 => 0x3E :: leBytes 2 o16.toNat
  | .lsrA => [0x4A]
  | .lsrDp o8 => 0x46 :: leBytes 1 o8.toNat
  | .lsrAbs o16 => 0x4E :: leBytes 2 o16.toNat
  | .lsrDpX o8 => 0x56 :: leBytes 1 o8.toNat
  | .lsrAbsX o16 => 0x5E :: leBytes 2 o16.toNat
  | .rorA => [0x6A]
  | .rorDp o8 => 0x66 :: leBytes 1 o8.toNat
  | .rorAbs o16 => 0x6E :: leBytes 2 o16.toNat
  | .rorDpX o8 => 0x76 :: leBytes 1 o8.toNat
  | .rorAbsX o16 => 0x7E :: leBytes 2 o16.toNat
  | .incA => [0x1A]
  | .incAbs o16 => 0xEE :: leBytes 2 o16.toNat
  | .incDp o8 => 0xE6 :: leBytes 1 o8.toNat
  | .incAbsX o16 => 0xFE :: leBytes 2 o16.toNat
  | .incDpX o8 => 0xF6 :: leBytes 1 o8.toNat
  | .inx => [0xE8]
  | .iny => [0xC8]
  | .decA => [0x3A]
  | .decAbs o16 => 0xCE :: leBytes 2 o16.toNat
  | .decDp o8 => 0xC6 :: leBytes 1 o8.toNat
  | .decAbsX o16 => 0xDE :: leBytes 2 o16.toNat
  | .decDpX o8 => 0xD6 :: leBytes 1 o8.toNat
  | .dex => [0xCA]
  | .dey => [0x88]
  | .clc => [0x18]
  | .sec => [0x38]
  | .cld => [0xD8]
  | .sed => [0xF8]
  | .sei => [0x78]
  | .cli => [0x58]
  | .clv => [0xB8]
  | .nop => [0xEA]
  | .xba => [0xEB]
  | .xce => [0xFB]
  | .rep o8 => 0xC2 :: leBytes 1 o8.toNat
  | .sep o8 => 0xE2 :: leBytes 1 o8.toNat

/-! ## The host's view of the decoder -/

/-- The four bytes of a table word: bit 0 is the lowest bit of the opcode byte, and bits at or above `nbits` are zero. -/
def tableBytes (nbits w : Nat) : List Byte := leBytes 4 (w % 2 ^ nbits)

/-- What the decoder reads from a table word, at the width after reset (8-bit accumulator). -/
def decodeTableWord (nbits w : Nat) : Option Instr :=
  match decode .bit8 (tableBytes nbits w) with
  | .ok (i, _) => some i
  | .error _ => none

end Sys2Proof
end

