-- ==== Sys2Proof/Machine/Flags.lean ====
section
/-! DEFINITION. The ALU helpers (40_alu_helpers.md): width constants, flags derived from a value, one-place shifts. -/

namespace Sys2Proof.Machine

/-- `mask(w)` (00_scope.md R9; 40_alu_helpers.md R120). -/
def mask : Width → Word
  | .bit8 => 0x00FF
  | .bit16 => 0xFFFF

/-- `sign_bit(w)` (00_scope.md R9; 40_alu_helpers.md R120). -/
def signBit : Width → Word
  | .bit8 => 0x0080
  | .bit16 => 0x8000

/-- `overflow_bit(w)` (00_scope.md R9; 40_alu_helpers.md R120). -/
def overflowBit : Width → Word
  | .bit8 => 0x0040
  | .bit16 => 0x4000

/-- `negative_of(value, width)` (40_alu_helpers.md R120). -/
def negativeOf (value : Word) (w : Width) : Bool := value &&& signBit w != 0

/-- The four results of `check_flags_for_value`. -/
structure ValueFlags where
  negative : Bool
  overflow : Bool
  zero : Bool
  carry : Bool
  deriving DecidableEq, Repr

/-- `check_flags_for_value` (40_alu_helpers.md R121): the value is not masked before the tests. -/
def checkFlagsForValue (value : Word) (w : Width) : ValueFlags where
  negative := negativeOf value w
  overflow := value &&& overflowBit w != 0
  zero := value == 0
  carry := false

/-- The direction of `rotate`. -/
inductive Direction where
  | left
  | right
  deriving DecidableEq, Repr

/-- `rotate` (40_alu_helpers.md R124): one place, zero shifted in, and the bit that fell off. -/
def rotate (value : Word) (w : Width) : Direction → Word × Bool
  | .left => ((value <<< 1) &&& mask w, value &&& signBit w != 0)
  | .right => (value >>> 1, value &&& 1 != 0)

/-- `INC` (40_alu_helpers.md R127 (1); 46_inc_dec.md R291). -/
def increment (value : Word) (w : Width) : Word := (value + 1) &&& mask w

/-- `DEC` (40_alu_helpers.md R127 (2); 46_inc_dec.md R292), in the rule's two arms. -/
def decrement (value : Word) (w : Width) : Word := if value == 0 then mask w else (value - 1) &&& mask w

end Sys2Proof.Machine
end

