-- ==== Sys2Proof/Config.lean ====
section
/-! DEFINITION. What an implementation fixes and the loader hands over (00_scope.md R5; 60_exceptions.md R376;
70_reset_and_hazards.md R390). Log 1, 2, 3. -/

namespace Sys2Proof

/-- `NARROW_WRITE` (00_scope.md R5; 10_state.md R33): what an 8-bit write does to the stored high byte. -/
inductive NarrowWrite where
  /-- The stored high byte stays. -/
  | keepHigh
  /-- The stored high byte becomes zero. -/
  | replace
  deriving DecidableEq, Repr

/-- The parameters of 00_scope.md R5 that a step reads. They never change during a run. -/
structure Config where
  /-- `MEM_SIZE`: valid addresses are `0 .. MEM_SIZE-1`. -/
  memSize : Nat
  /-- `NARROW_WRITE`. -/
  narrowWrite : NarrowWrite
  deriving DecidableEq, Repr

/-- The size of the whole 24-bit address space. -/
def fullMemory : Nat := 0x1000000

/-- `1 <= MEM_SIZE <= 0x1000000` (00_scope.md R5). -/
abbrev Config.Wf (c : Config) : Prop := 1 ≤ c.memSize ∧ c.memSize ≤ fullMemory

/-- The parameters `State.reset` is built with. DESIGN CHOICE (unsafe for claims about `State.reset` alone): the whole
24-bit space, and the value of `NARROW_WRITE` that 92_eei_decisions.md D2 recommends. Log 1, 2. -/
def Config.default : Config where
  memSize := fullMemory
  narrowWrite := .keepHigh

/-- The six vector numbers the loader gives the core (60_exceptions.md R376). Only `reset` has a reader: the reset
transition. -/
structure Vectors where
  reset : Word
  irq : Word
  nmi : Word
  abort : Word
  brk : Word
  cop : Word
  deriving DecidableEq, Repr

/-- DESIGN CHOICE (unsafe for claims about `State.reset` alone): all vector numbers zero. Log 3. -/
def Vectors.zero : Vectors := ⟨0, 0, 0, 0, 0, 0⟩

/-- The entries of the loader's two vector blocks (60_exceptions.md R376). -/
inductive VectorEntry where
  | unknown
  | cop
  | brk
  | abort
  | nmi
  | reset
  | irq
  | brkIrq
  deriving DecidableEq, Repr

/-- The native vector block, in order; entry `k` is at byte offset `2*k` (60_exceptions.md R376). -/
def nativeVectorBlock : List VectorEntry := [.unknown, .unknown, .cop, .brk, .abort, .nmi, .reset, .irq]

/-- The emulation vector block, in order; entry `k` is at byte offset `2*k` (60_exceptions.md R376). -/
def emulationVectorBlock : List VectorEntry := [.unknown, .unknown, .cop, .unknown, .abort, .nmi, .reset, .brkIrq]

/-- The fields that reset leaves unspecified (70_reset_and_hazards.md R391): a claim about reset holds for every value. -/
structure Unspecified where
  acc : Word
  x : Word
  y : Word
  stackPtr : Word
  neg : Bool
  overflow : Bool
  carry : Bool
  zero : Bool
  deriving DecidableEq, Repr

/-- DESIGN CHOICE (unsafe for claims about `State.reset` alone): zero for every field the spec leaves unspecified. Log 4. -/
def Unspecified.zeros : Unspecified := ⟨0, 0, 0, 0, false, false, false, false⟩

end Sys2Proof
end

