-- ==== Sys2Proof/Machine/State.lean ====
section
/-! DEFINITION. The state of the block (10_state.md R20), the ways a step can stop (60_exceptions.md R370) and the reset
transition (70_reset_and_hazards.md R390, R391). -/

namespace Sys2Proof.Machine

/-- The byte store: pairs of address and byte, addresses strictly rising, no byte zero (`Memory.Wf` in Ops.lean). An
address that is not listed reads as `0x00`; log 5. -/
abbrev Memory := List Host.Cell

/-- The architectural state, field by field as 10_state.md R20 lists it, and the constant parameters (log 1). -/
structure State where
  /-- The parameters of 00_scope.md R5; 10_state.md R41 says they are not state, and no step changes them. -/
  config : Config
  /-- The stored 16-bit accumulator (R21). -/
  acc : Word
  /-- The stored `acc_size` (R30). -/
  accSize : Width
  /-- The stored index register `x` (R22). -/
  x : Word
  /-- The stored index register `y` (R22). -/
  y : Word
  /-- The stored `index_size` (R31). -/
  indexSize : Width
  /-- DBR (R23). -/
  dataBank : Byte
  /-- D (R24). -/
  directPage : Word
  /-- PBR (R25). -/
  programBank : Byte
  /-- S (R26). -/
  stackPtr : Word
  /-- PC (R28). -/
  pc : Word
  /-- E (R29). -/
  emuMode : OpMode
  /-- N (R34). -/
  neg : Bool
  /-- V (R34). -/
  overflow : Bool
  /-- C (R34). -/
  carry : Bool
  /-- Z (R34). -/
  zero : Bool
  /-- I (R34). -/
  irqDisable : Bool
  /-- D flag (R34). -/
  decimalMode : Bool
  /-- The byte-addressable store (R39). -/
  memory : Memory
  deriving DecidableEq, Repr

/-- Why a step stops with a fault. -/
inductive Fault where
  /-- `MemoryBounds(a)` (60_exceptions.md R372): raised by `memRead` and `memWrite` when the access touches a byte at or past
  `MEM_SIZE`; `a` is the lowest such byte. Safe: the spec gives the access no value and keeps the state unchanged. -/
  | memoryBounds (a : Nat)
  deriving DecidableEq, Repr

/-- Why a step is refused. -/
inductive Refusal where
  /-- An arm of `exec` that has no meaning yet. No arm of this model answers it. Safe. -/
  | notModelled (mnemonic : String)
  /-- `UnimplementedOpcode(b)` (60_exceptions.md R373): raised by the instruction fetch when no family claims the opcode byte.
  Safe: the spec keeps the state unchanged. -/
  | unimplementedOpcode (b : Byte)
  /-- `InstructionStraddlesBank` (60_exceptions.md R374): raised by the instruction fetch when `pc + ByteSize > 0x10000`.
  Safe: the spec keeps the state unchanged. -/
  | instructionStraddlesBank
  deriving DecidableEq, Repr

/-- The reset transition (70_reset_and_hazards.md R390, R391): from the loader's image and vector numbers, with every field
the spec leaves unspecified taken from `u`. It reads no memory. -/
def State.resetFrom (c : Config) (image : Memory) (v : Vectors) (u : Unspecified) : State where
  config := c
  acc := u.acc
  accSize := .bit8
  x := u.x
  y := u.y
  indexSize := .bit8
  dataBank := 0x00
  directPage := 0x0000
  programBank := 0x00
  stackPtr := u.stackPtr
  pc := v.reset
  emuMode := .emulation
  neg := u.neg
  overflow := u.overflow
  carry := u.carry
  zero := u.zero
  irqDisable := true
  decimalMode := false
  memory := image

/-- The machine right after reset: `resetFrom` at the values the log names (DESIGN CHOICE, unsafe for claims about this one
state: log 1 to 5). -/
def State.reset : State := State.resetFrom Config.default [] Vectors.zero Unspecified.zeros

end Sys2Proof.Machine
end

