-- ==== Sys2Proof/Machine/Ops.lean ====
section
/-! DEFINITION. The named operations over the registers and the memory (10_state.md, 20_memory.md). The spec has no
exception to take and none to return from (60_exceptions.md R371, R379), so no such operation exists. -/

namespace Sys2Proof.Machine

/-! ## Field updates -/

/-- Writes the stored `acc`. -/
def State.setAcc (s : State) (v : Word) : State := { s with acc := v }
/-- Writes the stored `x`. -/
def State.setX (s : State) (v : Word) : State := { s with x := v }
/-- Writes the stored `y`. -/
def State.setY (s : State) (v : Word) : State := { s with y := v }
/-- Writes the stored `acc_size`. -/
def State.setAccSize (s : State) (w : Width) : State := { s with accSize := w }
/-- Writes the stored `index_size`. -/
def State.setIndexSize (s : State) (w : Width) : State := { s with indexSize := w }
/-- Writes `emu_mode`. -/
def State.setEmuMode (s : State) (m : OpMode) : State := { s with emuMode := m }
/-- Writes `pc`. -/
def State.setPc (s : State) (v : Word) : State := { s with pc := v }
/-- Writes `neg`. -/
def State.setNeg (s : State) (b : Bool) : State := { s with neg := b }
/-- Writes `overflow`. -/
def State.setOverflow (s : State) (b : Bool) : State := { s with overflow := b }
/-- Writes `carry`. -/
def State.setCarry (s : State) (b : Bool) : State := { s with carry := b }
/-- Writes `zero`. -/
def State.setZero (s : State) (b : Bool) : State := { s with zero := b }
/-- Writes `irq_disable`. -/
def State.setIrqDisable (s : State) (b : Bool) : State := { s with irqDisable := b }
/-- Writes `decimal_mode`. -/
def State.setDecimalMode (s : State) (b : Bool) : State := { s with decimalMode := b }
/-- Replaces `memory`. -/
def State.setMemory (s : State) (m : Memory) : State := { s with memory := m }

/-! ## Widths, views and width-aware accessors -/

/-- `AccW(cpu)` (10_state.md R30). -/
def accW (s : State) : Width :=
  match s.emuMode with
  | .emulation => .bit8
  | .native => s.accSize

/-- `IdxW(cpu)` (10_state.md R31). -/
def idxW (s : State) : Width :=
  match s.emuMode with
  | .emulation => .bit8
  | .native => s.indexSize

/-- `EffPC(cpu)` (10_state.md R28). -/
def effPC (s : State) : Addr := zext 24 s.programBank <<< 16 ||| zext 24 s.pc

/-- `A8(cpu)` (10_state.md R21). -/
def a8 (s : State) : Byte := zext 8 (s.acc &&& 0x00FF)

/-- `B8(cpu)` (10_state.md R21). -/
def b8 (s : State) : Byte := zext 8 ((s.acc &&& 0xFF00) >>> 8)

/-- `C16(cpu)` (10_state.md R21). -/
def c16 (s : State) : Word := s.acc

/-- `RdAcc(cpu)` (10_state.md R32). -/
def rdAcc (s : State) : Word := s.acc &&& mask (accW s)

/-- `RdX(cpu)` (10_state.md R32). -/
def rdX (s : State) : Word := s.x &&& mask (idxW s)

/-- `RdY(cpu)` (10_state.md R32). -/
def rdY (s : State) : Word := s.y &&& mask (idxW s)

/-- What a write of `v` at width `w` leaves in a register that held `r` (10_state.md R33). -/
def narrowWrite (c : Config) (w : Width) (r v : Word) : Word :=
  match w, c.narrowWrite with
  | .bit16, _ => v
  | .bit8, .keepHigh => (r &&& 0xFF00) ||| (v &&& 0x00FF)
  | .bit8, .replace => v &&& 0x00FF

/-- `WrAcc(cpu, v)` (10_state.md R33). -/
def wrAcc (s : State) (v : Word) : State := s.setAcc (narrowWrite s.config (accW s) s.acc v)

/-- `WrX(cpu, v)` (10_state.md R33). -/
def wrX (s : State) (v : Word) : State := s.setX (narrowWrite s.config (idxW s) s.x v)

/-- `WrY(cpu, v)` (10_state.md R33). -/
def wrY (s : State) (v : Word) : State := s.setY (narrowWrite s.config (idxW s) s.y v)

/-- `Break(cpu)` (10_state.md R36), defined only in emulation mode; it reads the stored `index_size`. -/
def breakFlag (s : State) : Option Bool :=
  match s.emuMode with
  | .emulation => some (s.indexSize == .bit8)
  | .native => none

/-- `SetBreak(cpu, b)` (10_state.md R36), defined only in emulation mode; no instruction calls it. -/
def setBreak (s : State) (b : Bool) : Option State :=
  match s.emuMode with
  | .emulation => some (s.setIndexSize (if b then .bit8 else .bit16))
  | .native => none

/-- `neg` and `zero` from `value` at width `w`: the two results of `check_flags_for_value` that every result-producing
instruction copies (40_alu_helpers.md R122). -/
def setNZ (s : State) (value : Word) (w : Width) : State :=
  let f := checkFlagsForValue value w
  (s.setNeg f.negative).setZero f.zero

/-! ## The byte store -/

/-- The canonical form of a byte store: addresses strictly rising, no listed byte equal to what an unlisted address reads
as. -/
abbrev Memory.Wf (m : Memory) : Prop := m.Pairwise (·.1 < ·.1) ∧ ∀ c ∈ m, c.2 ≠ 0

/-- Every listed address is below `size` (20_memory.md R60). -/
abbrev Memory.Below (m : Memory) (size : Nat) : Prop := ∀ c ∈ m, c.1 < size

/-- The byte at an address. DESIGN CHOICE: an unlisted address holds `0x00` (log 5). -/
def Memory.read : Memory → Nat → Byte
  | [], _ => 0
  | c :: m, a => if c.1 = a then c.2 else Memory.read m a

/-- Removes the entry of an address. -/
def Memory.without (m : Memory) (a : Nat) : Memory := m.filter fun c => c.1 ≠ a

/-- Inserts an entry before the first higher address. -/
def Memory.place : Memory → Nat → Byte → Memory
  | [], a, b => [(a, b)]
  | c :: m, a, b => if a < c.1 then (a, b) :: c :: m else c :: Memory.place m a b

/-- Replaces the byte at an address, keeping the canonical form (10_state.md R39: "Writes replace the targeted bytes"). -/
def Memory.write (m : Memory) (a : Nat) (b : Byte) : Memory :=
  if b = 0 then m.without a else (m.without a).place a b

/-- The `n` bytes from address `a` up, linearly. -/
def Memory.bytes (m : Memory) (a : Nat) : Nat → List Byte
  | 0 => []
  | n + 1 => m.read a :: Memory.bytes m (a + 1) n

/-- Writes a list of bytes from address `a` up, linearly. -/
def Memory.writeBytes : Memory → Nat → List Byte → Memory
  | m, _, [] => m
  | m, a, b :: bs => Memory.writeBytes (m.write a b) (a + 1) bs

/-- `MemRead(addr, n)` (20_memory.md R63): an unsigned `8n`-bit value, little-endian; out of range it is `MemoryBounds` of
the lowest out-of-range byte (R62). The address is a natural number: nothing wraps. -/
def memRead (s : State) (a n : Nat) : Except Fault Nat :=
  if a + n ≤ s.config.memSize then .ok (leValue (s.memory.bytes a n))
  else .error (.memoryBounds (max a s.config.memSize))

/-- `MemWrite(addr, n, v)` (20_memory.md R64): all of the bytes or, out of range, none of them. -/
def memWrite (s : State) (a n v : Nat) : Except Fault State :=
  if a + n ≤ s.config.memSize then .ok (s.setMemory (s.memory.writeBytes a (leBytes n v)))
  else .error (.memoryBounds (max a s.config.memSize))

/-! ## From a checked computation to the outcome of an instruction -/

/-- A computation that may meet `MemoryBounds`, as an outcome of `exec`: the fault leaves the state unchanged
(60_exceptions.md R370). -/
def finish : Except Fault State → Host.Outcome State Fault Refusal
  | .ok t => .next t
  | .error f => .fault f

end Sys2Proof.Machine
end

