-- ==== Sys2Proof/Machine/Operands.lean ====
section
/-! DEFINITION. The addressing-mode unit (41_addressing_modes.md). The operand bytes of the instruction are a parameter
`o`, already read and zero-extended to 24 bits (log 7). -/

namespace Sys2Proof.Machine

/-- `absolute_offset(bank8, addr16)` (R140). -/
def absoluteOffset (bank : Byte) (a : Word) : Addr := zext 24 bank <<< 16 ||| zext 24 a

/-- `calc_offset(a, b)` (R142). -/
def calcOffset (a b : Word) : Word := a + b

/-- The register of an `Indexed` mode. -/
inductive IndexReg where
  | x
  | y
  deriving DecidableEq, Repr

/-- The width-masked value of an index register (R141). -/
def indexValue (s : State) : IndexReg → Word
  | .x => rdX s
  | .y => rdY s

/-- `indexed(addr24, cpu, r)` (R141): the sum is taken on all 24 bits. -/
def indexed (a : Addr) (s : State) (r : IndexReg) : Addr := a + zext 24 (indexValue s r)

/-- `read_indirect(addr, cpu, n)` (R143). -/
def readIndirect (s : State) (a : Addr) (n : Nat) : Except Fault Addr :=
  (memRead s a.toNat n).map (BitVec.ofNat 24)

/-- The register of a `Register` mode (R144, R151). -/
inductive Reg where
  | acc
  | x
  | y
  deriving DecidableEq, Repr

/-- Where the bank byte of an address comes from (R144). -/
inductive Bank where
  | data
  | program
  | long
  deriving DecidableEq, Repr

/-- An addressing-mode value (R144): configuration only, no CPU state. -/
inductive AddrMode where
  | immediate
  | absolute (k : Bank)
  | directPage
  | stack
  | register (r : Reg)
  | indexed (base : AddrMode) (r : IndexReg)
  | indirect (base : AddrMode) (k : Bank)
  deriving DecidableEq, Repr

/-- `address(m, cpu)` (R145 to R155). -/
def AddrMode.address (o : Addr) (s : State) : AddrMode → Except Fault Addr
  | .immediate => .ok 0
  | .absolute .data => .ok (absoluteOffset s.dataBank (zext 16 o))
  | .absolute .program => .ok (absoluteOffset s.programBank (zext 16 o))
  | .absolute .long => .ok o
  | .directPage => .ok (zext 24 (calcOffset (zext 16 o) s.directPage))
  | .stack => .ok (zext 24 (calcOffset s.stackPtr (zext 16 o)))
  | .register _ => .ok 0
  | .indexed base r => (base.address o s).map fun a => Machine.indexed a s r
  | .indirect base .data =>
    (base.address o s).bind fun a => (readIndirect s a 2).map fun p => absoluteOffset s.dataBank (zext 16 p)
  | .indirect base .program =>
    (base.address o s).bind fun a => (readIndirect s a 2).map fun p => absoluteOffset s.programBank (zext 16 p)
  | .indirect base .long => (base.address o s).bind fun a => readIndirect s a 3

/-- `byte_size(m, cpu)` (R145 to R155), at the observed accumulator width `w`. -/
def AddrMode.byteSize (w : Width) : AddrMode → Nat
  | .immediate => w.nbytes
  | .absolute .data => 2
  | .absolute .program => 2
  | .absolute .long => 3
  | .directPage => 1
  | .stack => 1
  | .register _ => 0
  | .indexed base _ => base.byteSize w
  | .indirect base _ => base.byteSize w

/-- The width-masked value of a register (R151). -/
def readReg (s : State) : Reg → Word
  | .acc => rdAcc s
  | .x => rdX s
  | .y => rdY s

/-- The width-aware write of a register (R151). -/
def writeReg (s : State) (v : Word) : Reg → State
  | .acc => wrAcc s v
  | .x => wrX s v
  | .y => wrY s v

/-- The width of the operation on an operand of this mode (R151, R156; 46_inc_dec.md R291). -/
def AddrMode.width (s : State) : AddrMode → Width
  | .register .x => idxW s
  | .register .y => idxW s
  | _ => accW s

/-- `fetch` of a memory mode (R156). -/
def AddrMode.fetchData (m : AddrMode) (o : Addr) (s : State) : Except Fault Word :=
  (m.address o s).bind fun a => (memRead s a.toNat (accW s).nbytes).map (BitVec.ofNat 16)

/-- `store` of a memory mode (R156). -/
def AddrMode.storeData (m : AddrMode) (o : Addr) (v : Word) (s : State) : Except Fault State :=
  (m.address o s).bind fun a => memWrite s a.toNat (accW s).nbytes v.toNat

/-- `fetch(m, cpu)` (R145, R151, R156). The immediate datum is the operand at the accumulator's width (log 7). -/
def AddrMode.fetch (m : AddrMode) (o : Addr) (s : State) : Except Fault Word :=
  match m with
  | .immediate => .ok (zext 16 o &&& mask (accW s))
  | .register r => .ok (readReg s r)
  | .absolute k => (AddrMode.absolute k).fetchData o s
  | .directPage => AddrMode.directPage.fetchData o s
  | .stack => AddrMode.stack.fetchData o s
  | .indexed base r => (AddrMode.indexed base r).fetchData o s
  | .indirect base k => (AddrMode.indirect base k).fetchData o s

/-- `store(m, cpu, data)` (R145, R151, R156). -/
def AddrMode.store (m : AddrMode) (o : Addr) (v : Word) (s : State) : Except Fault State :=
  match m with
  | .immediate => .ok s
  | .register r => .ok (writeReg s v r)
  | .absolute k => (AddrMode.absolute k).storeData o v s
  | .directPage => AddrMode.directPage.storeData o v s
  | .stack => AddrMode.stack.storeData o v s
  | .indexed base r => (AddrMode.indexed base r).storeData o v s
  | .indirect base k => (AddrMode.indirect base k).storeData o v s

end Sys2Proof.Machine
end

