-- ==== Sys2Proof/Machine/BitTest.lean ====
section
/-! DEFINITION. BIT, TRB and TSB (44_bit_trb_tsb.md): shared operations (R241 to R243), one meaning per opcode (R244 to
R252). -/

namespace Sys2Proof.Machine

/-- BIT execute (R241): `neg` and `overflow` from the datum, `zero` from `acc & data`, nothing else written. -/
def execBit (m : AddrMode) (o : Addr) (s : State) : Except Fault State :=
  (m.fetch o s).map fun data =>
    let f := checkFlagsForValue data (accW s)
    ((s.setNeg f.negative).setOverflow f.overflow).setZero (rdAcc s &&& data == 0)

/-- The value TRB writes (R242): `acc & (~data & mask(w))`, as the source has it and not as the WDC part does it. -/
def trbValue (w : Width) (a data : Word) : Word := a &&& (~~~data &&& mask w)

/-- The value TSB writes (R243). -/
def tsbValue (_w : Width) (a data : Word) : Word := a ||| data

/-- TRB and TSB execute (R242, R243): read, write `value` through the mode, `zero` from the values before the write. -/
def execTestStore (value : Width → Word → Word → Word) (m : AddrMode) (o : Addr) (s : State) : Except Fault State :=
  (m.fetch o s).bind fun data =>
    (m.store o (value (accW s) (rdAcc s) data) s).map fun t => t.setZero (rdAcc s &&& data == 0)

/-- `BIT #$hh or #$hhhh` (R244). -/
def execBitImm (imm : Word) (s : State) : Host.Outcome State Fault Refusal :=
  finish (execBit .immediate (zext 24 imm) s)

/-- `BIT $hhhh` (R245). -/
def execBitAbs (o16 : Word) (s : State) : Host.Outcome State Fault Refusal :=
  finish (execBit (.absolute .data) (zext 24 o16) s)

/-- `BIT $hh` (R246). -/
def execBitDp (o8 : Byte) (s : State) : Host.Outcome State Fault Refusal :=
  finish (execBit .directPage (zext 24 o8) s)

/-- `BIT $hhhh,X` (R247). -/
def execBitAbsX (o16 : Word) (s : State) : Host.Outcome State Fault Refusal :=
  finish (execBit (.indexed (.absolute .data) .x) (zext 24 o16) s)

/-- `BIT $hh,X` (R248). -/
def execBitDpX (o8 : Byte) (s : State) : Host.Outcome State Fault Refusal :=
  finish (execBit (.indexed .directPage .x) (zext 24 o8) s)

/-- `TRB $hhhh` (R249). -/
def execTrbAbs (o16 : Word) (s : State) : Host.Outcome State Fault Refusal :=
  finish (execTestStore trbValue (.absolute .data) (zext 24 o16) s)

/-- `TRB $hh` (R250). -/
def execTrbDp (o8 : Byte) (s : State) : Host.Outcome State Fault Refusal :=
  finish (execTestStore trbValue .directPage (zext 24 o8) s)

/-- `TSB $hhhh` (R251). -/
def execTsbAbs (o16 : Word) (s : State) : Host.Outcome State Fault Refusal :=
  finish (execTestStore tsbValue (.absolute .data) (zext 24 o16) s)

/-- `TSB $hh` (R252). -/
def execTsbDp (o8 : Byte) (s : State) : Host.Outcome State Fault Refusal :=
  finish (execTestStore tsbValue .directPage (zext 24 o8) s)

end Sys2Proof.Machine
end

