-- ==== Sys2Proof/Machine/IncDec.lean ====
section
/-! DEFINITION. INC, INX, INY, DEC, DEX and DEY (46_inc_dec.md): one shared operation (R291, R292), one meaning per opcode
(R293 to R306). -/

namespace Sys2Proof.Machine

/-- Execute of the family (R291, R292): `f` is `increment` or `decrement`, and the width is the index registers' for
`Register(x)` and `Register(y)`, the accumulator's otherwise. -/
def execIncDec (f : Word → Width → Word) (m : AddrMode) (o : Addr) (s : State) : Except Fault State :=
  (m.fetch o s).bind fun value =>
    let new := f value (m.width s)
    (m.store o new s).map fun t => setNZ t new (m.width s)

/-- `INC A` (R293). -/
def execIncA (s : State) : Host.Outcome State Fault Refusal :=
  finish (execIncDec increment (.register .acc) 0 s)

/-- `INC $hhhh` (R294). -/
def execIncAbs (o16 : Word) (s : State) : Host.Outcome State Fault Refusal :=
  finish (execIncDec increment (.absolute .data) (zext 24 o16) s)

/-- `INC $hh` (R295). -/
def execIncDp (o8 : Byte) (s : State) : Host.Outcome State Fault Refusal :=
  finish (execIncDec increment .directPage (zext 24 o8) s)

/-- `INC $hhhh,X` (R296). -/
def execIncAbsX (o16 : Word) (s : State) : Host.Outcome State Fault Refusal :=
  finish (execIncDec increment (.indexed (.absolute .data) .x) (zext 24 o16) s)

/-- `INC $hh,X` (R297). -/
def execIncDpX (o8 : Byte) (s : State) : Host.Outcome State Fault Refusal :=
  finish (execIncDec increment (.indexed .directPage .x) (zext 24 o8) s)

/-- `INX` (R298). -/
def execInx (s : State) : Host.Outcome State Fault Refusal :=
  finish (execIncDec increment (.register .x) 0 s)

/-- `INY` (R299). -/
def execIny (s : State) : Host.Outcome State Fault Refusal :=
  finish (execIncDec increment (.register .y) 0 s)

/-- `DEC A` (R300). -/
def execDecA (s : State) : Host.Outcome State Fault Refusal :=
  finish (execIncDec decrement (.register .acc) 0 s)

/-- `DEC $hhhh` (R301). -/
def execDecAbs (o16 : Word) (s : State) : Host.Outcome State Fault Refusal :=
  finish (execIncDec decrement (.absolute .data) (zext 24 o16) s)

/-- `DEC $hh` (R302). -/
def execDecDp (o8 : Byte) (s : State) : Host.Outcome State Fault Refusal :=
  finish (execIncDec decrement .directPage (zext 24 o8) s)

/-- `DEC $hhhh,X` (R303). -/
def execDecAbsX (o16 : Word) (s : State) : Host.Outcome State Fault Refusal :=
  finish (execIncDec decrement (.indexed (.absolute .data) .x) (zext 24 o16) s)

/-- `DEC $hh,X` (R304). -/
def execDecDpX (o8 : Byte) (s : State) : Host.Outcome State Fault Refusal :=
  finish (execIncDec decrement (.indexed .directPage .x) (zext 24 o8) s)

/-- `DEX` (R305). -/
def execDex (s : State) : Host.Outcome State Fault Refusal :=
  finish (execIncDec decrement (.register .x) 0 s)

/-- `DEY` (R306). -/
def execDey (s : State) : Host.Outcome State Fault Refusal :=
  finish (execIncDec decrement (.register .y) 0 s)

end Sys2Proof.Machine
end

