-- ==== Sys2Proof/Machine/Logical.lean ====
section
/-! DEFINITION. ORA and AND (43_logical_ora_and.md): one shared operation (R201), one meaning per opcode (R203 to R232). -/

namespace Sys2Proof.Machine

/-- The operation selector of the family (R200). -/
inductive LogicalOp where
  | or
  | and
  deriving DecidableEq, Repr

/-- `acc OP data` (R201). -/
def LogicalOp.apply : LogicalOp → Word → Word → Word
  | .or, a, d => a ||| d
  | .and, a, d => a &&& d

/-- Execute of the family (R201). -/
def execLogical (op : LogicalOp) (m : AddrMode) (o : Addr) (s : State) : Except Fault State :=
  (m.fetch o s).map fun data =>
    let r := op.apply (rdAcc s) data
    setNZ (wrAcc s r) r (accW s)

/-- `ORA #$hh or #$hhhh` (R203). -/
def execOraImm (imm : Word) (s : State) : Host.Outcome State Fault Refusal :=
  finish (execLogical .or .immediate (zext 24 imm) s)

/-- `ORA $hhhh` (R204). -/
def execOraAbs (o16 : Word) (s : State) : Host.Outcome State Fault Refusal :=
  finish (execLogical .or (.absolute .data) (zext 24 o16) s)

/-- `ORA $hhhhhh` (R205). -/
def execOraLong (o24 : Addr) (s : State) : Host.Outcome State Fault Refusal :=
  finish (execLogical .or (.absolute .long) (zext 24 o24) s)

/-- `ORA $hh` (R206). -/
def execOraDp (o8 : Byte) (s : State) : Host.Outcome State Fault Refusal :=
  finish (execLogical .or .directPage (zext 24 o8) s)

/-- `ORA ($hh)` (R207). -/
def execOraDpInd (o8 : Byte) (s : State) : Host.Outcome State Fault Refusal :=
  finish (execLogical .or (.indirect .directPage .data) (zext 24 o8) s)

/-- `ORA [$hh]` (R208). -/
def execOraDpIndLong (o8 : Byte) (s : State) : Host.Outcome State Fault Refusal :=
  finish (execLogical .or (.indirect .directPage .long) (zext 24 o8) s)

/-- `ORA $hhhh,X` (R209). -/
def execOraAbsX (o16 : Word) (s : State) : Host.Outcome State Fault Refusal :=
  finish (execLogical .or (.indexed (.absolute .data) .x) (zext 24 o16) s)

/-- `ORA $hhhhhh,X` (R210). -/
def execOraLongX (o24 : Addr) (s : State) : Host.Outcome State Fault Refusal :=
  finish (execLogical .or (.indexed (.absolute .long) .x) (zext 24 o24) s)

/-- `ORA $hhhh,Y` (R211). -/
def execOraAbsY (o16 : Word) (s : State) : Host.Outcome State Fault Refusal :=
  finish (execLogical .or (.indexed (.absolute .data) .y) (zext 24 o16) s)

/-- `ORA $hh,X` (R212). -/
def execOraDpX (o8 : Byte) (s : State) : Host.Outcome State Fault Refusal :=
  finish (execLogical .or (.indexed .directPage .x) (zext 24 o8) s)

/-- `ORA ($hh,X)` (R213). -/
def execOraDpXInd (o8 : Byte) (s : State) : Host.Outcome State Fault Refusal :=
  finish (execLogical .or (.indirect (.indexed .directPage .x) .data) (zext 24 o8) s)

/-- `ORA ($hh),Y` (R214). -/
def execOraDpIndY (o8 : Byte) (s : State) : Host.Outcome State Fault Refusal :=
  finish (execLogical .or (.indexed (.indirect .directPage .data) .y) (zext 24 o8) s)

/-- `ORA [$hh],Y` (R215). -/
def execOraDpIndLongY (o8 : Byte) (s : State) : Host.Outcome State Fault Refusal :=
  finish (execLogical .or (.indexed (.indirect .directPage .long) .y) (zext 24 o8) s)

/-- `ORA $hh,S` (R216). -/
def execOraSr (o8 : Byte) (s : State) : Host.Outcome State Fault Refusal :=
  finish (execLogical .or .stack (zext 24 o8) s)

/-- `ORA ($hh,S),Y` (R217). -/
def execOraSrIndY (o8 : Byte) (s : State) : Host.Outcome State Fault Refusal :=
  finish (execLogical .or (.indexed (.indirect .stack .data) .y) (zext 24 o8) s)

/-- `AND #$hh or #$hhhh` (R218). -/
def execAndImm (imm : Word) (s : State) : Host.Outcome State Fault Refusal :=
  finish (execLogical .and .immediate (zext 24 imm) s)

/-- `AND $hhhh` (R219). -/
def execAndAbs (o16 : Word) (s : State) : Host.Outcome State Fault Refusal :=
  finish (execLogical .and (.absolute .data) (zext 24 o16) s)

/-- `AND $hhhhhh` (R220). -/
def execAndLong (o24 : Addr) (s : State) : Host.Outcome State Fault Refusal :=
  finish (execLogical .and (.absolute .long) (zext 24 o24) s)

/-- `AND $hh` (R221). -/
def execAndDp (o8 : Byte) (s : State) : Host.Outcome State Fault Refusal :=
  finish (execLogical .and .directPage (zext 24 o8) s)

/-- `AND ($hh)` (R222). -/
def execAndDpInd (o8 : Byte) (s : State) : Host.Outcome State Fault Refusal :=
  finish (execLogical .and (.indirect .directPage .data) (zext 24 o8) s)

/-- `AND [$hh]` (R223). -/
def execAndDpIndLong (o8 : Byte) (s : State) : Host.Outcome State Fault Refusal :=
  finish (execLogical .and (.indirect .directPage .long) (zext 24 o8) s)

/-- `AND $hhhh,X` (R224). -/
def execAndAbsX (o16 : Word) (s : State) : Host.Outcome State Fault Refusal :=
  finish (execLogical .and (.indexed (.absolute .data) .x) (zext 24 o16) s)

/-- `AND $hhhhhh,X` (R225). -/
def execAndLongX (o24 : Addr) (s : State) : Host.Outcome State Fault Refusal :=
  finish (execLogical .and (.indexed (.absolute .long) .x) (zext 24 o24) s)

/-- `AND $hhhh,Y` (R226). -/
def execAndAbsY (o16 : Word) (s : State) : Host.Outcome State Fault Refusal :=
  finish (execLogical .and (.indexed (.absolute .data) .y) (zext 24 o16) s)

/-- `AND $hh,X` (R227). -/
def execAndDpX (o8 : Byte) (s : State) : Host.Outcome State Fault Refusal :=
  finish (execLogical .and (.indexed .directPage .x) (zext 24 o8) s)

/-- `AND ($hh,X)` (R228). -/
def execAndDpXInd (o8 : Byte) (s : State) : Host.Outcome State Fault Refusal :=
  finish (execLogical .and (.indirect (.indexed .directPage .x) .data) (zext 24 o8) s)

/-- `AND ($hh),Y` (R229). -/
def execAndDpIndY (o8 : Byte) (s : State) : Host.Outcome State Fault Refusal :=
  finish (execLogical .and (.indexed (.indirect .directPage .data) .y) (zext 24 o8) s)

/-- `AND [$hh],Y` (R230). -/
def execAndDpIndLongY (o8 : Byte) (s : State) : Host.Outcome State Fault Refusal :=
  finish (execLogical .and (.indexed (.indirect .directPage .long) .y) (zext 24 o8) s)

/-- `AND $hh,S` (R231). -/
def execAndSr (o8 : Byte) (s : State) : Host.Outcome State Fault Refusal :=
  finish (execLogical .and .stack (zext 24 o8) s)

/-- `AND ($hh,S),Y` (R232). -/
def execAndSrIndY (o8 : Byte) (s : State) : Host.Outcome State Fault Refusal :=
  finish (execLogical .and (.indexed (.indirect .stack .data) .y) (zext 24 o8) s)

end Sys2Proof.Machine
end

