-- ==== Sys2Proof/Machine/Shift.lean ====
section
/-! DEFINITION. ASL, ROL, LSR and ROR (45_shift_rotate.md): one shared operation (R261), one meaning per opcode (R262 to
R281). -/

namespace Sys2Proof.Machine

/-- `left` for ASL and ROL, `right` for LSR and ROR (R261). -/
def shiftDirection : ShiftOp → Direction
  | .asl => .left
  | .rol => .left
  | .lsr => .right
  | .ror => .right

/-- The carry-in mask that is OR-ed into the shifted value (R261). -/
def carryIn (w : Width) (cin : Bool) : ShiftOp → Word
  | .asl => 0
  | .lsr => 0
  | .rol => if cin then 0x0001 else 0
  | .ror => if cin then signBit w else 0

/-- The result and the bit shifted out (R261). -/
def shiftValue (op : ShiftOp) (value : Word) (w : Width) (cin : Bool) : Word × Bool :=
  let p := rotate value w (shiftDirection op)
  (p.1 ||| carryIn w cin op, p.2)

/-- Execute of the family (R261). -/
def execShift (op : ShiftOp) (m : AddrMode) (o : Addr) (s : State) : Except Fault State :=
  (m.fetch o s).bind fun value =>
    let p := shiftValue op value (accW s) s.carry
    (m.store o p.1 s).map fun t => (setNZ t p.1 (accW s)).setCarry p.2

/-- `ASL A` (R262). -/
def execAslA (s : State) : Host.Outcome State Fault Refusal :=
  finish (execShift .asl (.register .acc) 0 s)

/-- `ASL $hh` (R263). -/
def execAslDp (o8 : Byte) (s : State) : Host.Outcome State Fault Refusal :=
  finish (execShift .asl .directPage (zext 24 o8) s)

/-- `ASL $hhhh` (R264). -/
def execAslAbs (o16 : Word) (s : State) : Host.Outcome State Fault Refusal :=
  finish (execShift .asl (.absolute .data) (zext 24 o16) s)

/-- `ASL $hh,X` (R265). -/
def execAslDpX (o8 : Byte) (s : State) : Host.Outcome State Fault Refusal :=
  finish (execShift .asl (.indexed .directPage .x) (zext 24 o8) s)

/-- `ASL $hhhh,X` (R266). -/
def execAslAbsX (o16 : Word) (s : State) : Host.Outcome State Fault Refusal :=
  finish (execShift .asl (.indexed (.absolute .data) .x) (zext 24 o16) s)

/-- `ROL A` (R267). -/
def execRolA (s : State) : Host.Outcome State Fault Refusal :=
  finish (execShift .rol (.register .acc) 0 s)

/-- `ROL $hh` (R268). -/
def execRolDp (o8 : Byte) (s : State) : Host.Outcome State Fault Refusal :=
  finish (execShift .rol .directPage (zext 24 o8) s)

/-- `ROL $hhhh` (R269). -/
def execRolAbs (o16 : Word) (s : State) : Host.Outcome State Fault Refusal :=
  finish (execShift .rol (.absolute .data) (zext 24 o16) s)

/-- `ROL $hh,X` (R270). -/
def execRolDpX (o8 : Byte) (s : State) : Host.Outcome State Fault Refusal :=
  finish (execShift .rol (.indexed .directPage .x) (zext 24 o8) s)

/-- `ROL $hhhh,X` (R271). -/
def execRolAbsX (o16 : Word) (s : State) : Host.Outcome State Fault Refusal :=
  finish (execShift .rol (.indexed (.absolute .data) .x) (zext 24 o16) s)

/-- `LSR A` (R272). -/
def execLsrA (s : State) : Host.Outcome State Fault Refusal :=
  finish (execShift .lsr (.register .acc) 0 s)

/-- `LSR $hh` (R273). -/
def execLsrDp (o8 : Byte) (s : State) : Host.Outcome State Fault Refusal :=
  finish (execShift .lsr .directPage (zext 24 o8) s)

/-- `LSR $hhhh` (R274). -/
def execLsrAbs (o16 : Word) (s : State) : Host.Outcome State Fault Refusal :=
  finish (execShift .lsr (.absolute .data) (zext 24 o16) s)

/-- `LSR $hh,X` (R275). -/
def execLsrDpX (o8 : Byte) (s : State) : Host.Outcome State Fault Refusal :=
  finish (execShift .lsr (.indexed .directPage .x) (zext 24 o8) s)

/-- `LSR $hhhh,X` (R276). -/
def execLsrAbsX (o16 : Word) (s : State) : Host.Outcome State Fault Refusal :=
  finish (execShift .lsr (.indexed (.absolute .data) .x) (zext 24 o16) s)

/-- `ROR A` (R277). -/
def execRorA (s : State) : Host.Outcome State Fault Refusal :=
  finish (execShift .ror (.register .acc) 0 s)

/-- `ROR $hh` (R278). -/
def execRorDp (o8 : Byte) (s : State) : Host.Outcome State Fault Refusal :=
  finish (execShift .ror .directPage (zext 24 o8) s)

/-- `ROR $hhhh` (R279). -/
def execRorAbs (o16 : Word) (s : State) : Host.Outcome State Fault Refusal :=
  finish (execShift .ror (.absolute .data) (zext 24 o16) s)

/-- `ROR $hh,X` (R280). -/
def execRorDpX (o8 : Byte) (s : State) : Host.Outcome State Fault Refusal :=
  finish (execShift .ror (.indexed .directPage .x) (zext 24 o8) s)

/-- `ROR $hhhh,X` (R281). -/
def execRorAbsX (o16 : Word) (s : State) : Host.Outcome State Fault Refusal :=
  finish (execShift .ror (.indexed (.absolute .data) .x) (zext 24 o16) s)

end Sys2Proof.Machine
end

