-- ==== Sys2Proof/Machine/Status.lean ====
section
/-! DEFINITION. The processor-status operations (47_status_ops.md R323 to R334). -/

namespace Sys2Proof.Machine

/-- A mask bit of REP and SEP selects its flag for the new value `v`; an unselected flag keeps its value (R322). -/
def maskFlag (m bit : Byte) (v old : Bool) : Bool := if m &&& bit != 0 then v else old

/-- The six flag bits of the mask, which act in both modes (R322, R333, R334). -/
def maskFlags (m : Byte) (v : Bool) (s : State) : State :=
  (((((s.setNeg (maskFlag m 0x80 v s.neg)).setOverflow (maskFlag m 0x40 v s.overflow)).setDecimalMode
    (maskFlag m 0x08 v s.decimalMode)).setIrqDisable (maskFlag m 0x04 v s.irqDisable)).setZero
    (maskFlag m 0x02 v s.zero)).setCarry (maskFlag m 0x01 v s.carry)

/-- The M and X bits of the mask, which act in native mode only (R322, R333, R334). -/
def maskWidths (m : Byte) (w : Width) (s : State) : State :=
  match s.emuMode with
  | .emulation => s
  | .native =>
    (s.setAccSize (if m &&& 0x20 != 0 then w else s.accSize)).setIndexSize (if m &&& 0x10 != 0 then w else s.indexSize)

/-- `CLC` (R323). -/
def execClc (s : State) : Host.Outcome State Fault Refusal :=
  .next (s.setCarry false)

/-- `SEC` (R324). -/
def execSec (s : State) : Host.Outcome State Fault Refusal :=
  .next (s.setCarry true)

/-- `CLD` (R325). -/
def execCld (s : State) : Host.Outcome State Fault Refusal :=
  .next (s.setDecimalMode false)

/-- `SED` (R326). -/
def execSed (s : State) : Host.Outcome State Fault Refusal :=
  .next (s.setDecimalMode true)

/-- `SEI` (R327). -/
def execSei (s : State) : Host.Outcome State Fault Refusal :=
  .next (s.setIrqDisable true)

/-- `CLI` (R328). -/
def execCli (s : State) : Host.Outcome State Fault Refusal :=
  .next (s.setIrqDisable false)

/-- `CLV` (R329). -/
def execClv (s : State) : Host.Outcome State Fault Refusal :=
  .next (s.setOverflow false)

/-- `NOP` (R330). -/
def execNop (s : State) : Host.Outcome State Fault Refusal :=
  .next s

/-- `XBA` (R331). -/
def execXba (s : State) : Host.Outcome State Fault Refusal :=
  let low := s.acc &&& 0xFF
  let high := (s.acc >>> 8) &&& 0xFF
  let c := (low <<< 8) ||| high
  .next (((s.setAcc c).setNeg (decide (c > 0x7FFF))).setZero (c == 0x0000))

/-- `XCE` (R332). -/
def execXce (s : State) : Host.Outcome State Fault Refusal :=
  match s.carry, s.emuMode with
  | true, .native => .next ((s.setCarry false).setEmuMode .emulation)
  | false, .emulation => .next ((((s.setCarry true).setEmuMode .native).setAccSize .bit8).setIndexSize .bit8)
  | true, .emulation => .next s
  | false, .native => .next s

/-- `REP #$hh` (R333). -/
def execRep (o8 : Byte) (s : State) : Host.Outcome State Fault Refusal :=
  .next (maskWidths o8 .bit16 (maskFlags o8 false s))

/-- `SEP #$hh` (R334). -/
def execSep (o8 : Byte) (s : State) : Host.Outcome State Fault Refusal :=
  .next (maskWidths o8 .bit8 (maskFlags o8 true s))

end Sys2Proof.Machine
end

