-- ==== Sys2Proof/Machine/Dispatch.lean ====
section
/-! DEFINITION. `Execute(inst, cpu)` (48_opcode_protocol.md R353): one arm per constructor, one meaning per arm. -/

namespace Sys2Proof.Machine

def exec (i : Instr) (s : State) : Host.Outcome State Fault Refusal :=
  match i with
  | .oraImm imm => Sys2Proof.Machine.execOraImm imm s
  | .oraAbs o16 => Sys2Proof.Machine.execOraAbs o16 s
  | .oraLong o24 => Sys2Proof.Machine.execOraLong o24 s
  | .oraDp o8 => Sys2Proof.Machine.execOraDp o8 s
  | .oraDpInd o8 => Sys2Proof.Machine.execOraDpInd o8 s
  | .oraDpIndLong o8 => Sys2Proof.Machine.execOraDpIndLong o8 s
  | .oraAbsX o16 => Sys2Proof.Machine.execOraAbsX o16 s
  | .oraLongX o24 => Sys2Proof.Machine.execOraLongX o24 s
  | .oraAbsY o16 => Sys2Proof.Machine.execOraAbsY o16 s
  | .oraDpX o8 => Sys2Proof.Machine.execOraDpX o8 s
  | .oraDpXInd o8 => Sys2Proof.Machine.execOraDpXInd o8 s
  | .oraDpIndY o8 => Sys2Proof.Machine.execOraDpIndY o8 s
  | .oraDpIndLongY o8 => Sys2Proof.Machine.execOraDpIndLongY o8 s
  | .oraSr o8 => Sys2Proof.Machine.execOraSr o8 s
  | .oraSrIndY o8 => Sys2Proof.Machine.execOraSrIndY o8 s
  | .andImm imm => Sys2Proof.Machine.execAndImm imm s
  | .andAbs o16 => Sys2Proof.Machine.execAndAbs o16 s
  | .andLong o24 => Sys2Proof.Machine.execAndLong o24 s
  | .andDp o8 => Sys2Proof.Machine.execAndDp o8 s
  | .andDpInd o8 => Sys2Proof.Machine.execAndDpInd o8 s
  | .andDpIndLong o8 => Sys2Proof.Machine.execAndDpIndLong o8 s
  | .andAbsX o16 => Sys2Proof.Machine.execAndAbsX o16 s
  | .andLongX o24 => Sys2Proof.Machine.execAndLongX o24 s
  | .andAbsY o16 => Sys2Proof.Machine.execAndAbsY o16 s
  | .andDpX o8 => Sys2Proof.Machine.execAndDpX o8 s
  | .andDpXInd o8 => Sys2Proof.Machine.execAndDpXInd o8 s
  | .andDpIndY o8 => Sys2Proof.Machine.execAndDpIndY o8 s
  | .andDpIndLongY o8 => Sys2Proof.Machine.execAndDpIndLongY o8 s
  | .andSr o8 => Sys2Proof.Machine.execAndSr o8 s
  | .andSrIndY o8 => Sys2Proof.Machine.execAndSrIndY o8 s
  | .bitImm imm => Sys2Proof.Machine.execBitImm imm s
  | .bitAbs o16 => Sys2Proof.Machine.execBitAbs o16 s
  | .bitDp o8 => Sys2Proof.Machine.execBitDp o8 s
  | .bitAbsX o16 => Sys2Proof.Machine.execBitAbsX o16 s
  | .bitDpX o8 => Sys2Proof.Machine.execBitDpX o8 s
  | .trbAbs o16 => Sys2Proof.Machine.execTrbAbs o16 s
  | .trbDp o8 => Sys2Proof.Machine.execTrbDp o8 s
  | .tsbAbs o16 => Sys2Proof.Machine.execTsbAbs o16 s
  | .tsbDp o8 => Sys2Proof.Machine.execTsbDp o8 s
  | .aslA => Sys2Proof.Machine.execAslA s
  | .aslDp o8 => Sys2Proof.Machine.execAslDp o8 s
  | .aslAbs o16 => Sys2Proof.Machine.execAslAbs o16 s
  | .aslDpX o8 => Sys2Proof.Machine.execAslDpX o8 s
  | .aslAbsX o16 => Sys2Proof.Machine.execAslAbsX o16 s
  | .rolA => Sys2Proof.Machine.execRolA s
  | .rolDp o8 => Sys2Proof.Machine.execRolDp o8 s
  | .rolAbs o16 => Sys2Proof.Machine.execRolAbs o16 s
  | .rolDpX o8 => Sys2Proof.Machine.execRolDpX o8 s
  | .rolAbsX o16 => Sys2Proof.Machine.execRolAbsX o16 s
  | .lsrA => Sys2Proof.Machine.execLsrA s
  | .lsrDp o8 => Sys2Proof.Machine.execLsrDp o8 s
  | .lsrAbs o16 => Sys2Proof.Machine.execLsrAbs o16 s
  | .lsrDpX o8 => Sys2Proof.Machine.execLsrDpX o8 s
  | .lsrAbsX o16 => Sys2Proof.Machine.execLsrAbsX o16 s
  | .rorA => Sys2Proof.Machine.execRorA s
  | .rorDp o8 => Sys2Proof.Machine.execRorDp o8 s
  | .rorAbs o16 => Sys2Proof.Machine.execRorAbs o16 s
  | .rorDpX o8 => Sys2Proof.Machine.execRorDpX o8 s
  | .rorAbsX o16 => Sys2Proof.Machine.execRorAbsX o16 s
  | .incA => Sys2Proof.Machine.execIncA s
  | .incAbs o16 => Sys2Proof.Machine.execIncAbs o16 s
  | .incDp o8 => Sys2Proof.Machine.execIncDp o8 s
  | .incAbsX o16 => Sys2Proof.Machine.execIncAbsX o16 s
  | .incDpX o8 => Sys2Proof.Machine.execIncDpX o8 s
  | .inx => Sys2Proof.Machine.execInx s
  | .iny => Sys2Proof.Machine.execIny s
  | .decA => Sys2Proof.Machine.execDecA s
  | .decAbs o16 => Sys2Proof.Machine.execDecAbs o16 s
  | .decDp o8 => Sys2Proof.Machine.execDecDp o8 s
  | .decAbsX o16 => Sys2Proof.Machine.execDecAbsX o16 s
  | .decDpX o8 => Sys2Proof.Machine.execDecDpX o8 s
  | .dex => Sys2Proof.Machine.execDex s
  | .dey => Sys2Proof.Machine.execDey s
  | .clc => Sys2Proof.Machine.execClc s
  | .sec => Sys2Proof.Machine.execSec s
  | .cld => Sys2Proof.Machine.execCld s
  | .sed => Sys2Proof.Machine.execSed s
  | .sei => Sys2Proof.Machine.execSei s
  | .cli => Sys2Proof.Machine.execCli s
  | .clv => Sys2Proof.Machine.execClv s
  | .nop => Sys2Proof.Machine.execNop s
  | .xba => Sys2Proof.Machine.execXba s
  | .xce => Sys2Proof.Machine.execXce s
  | .rep o8 => Sys2Proof.Machine.execRep o8 s
  | .sep o8 => Sys2Proof.Machine.execSep o8 s

end Sys2Proof.Machine
end

