-- ==== Sys2Proof/Machine/Cycles.lean ====
section
/-! DEFINITION. The cycle calculator (42_cycle_calculator.md). Its result is an output of a step and no state. -/

namespace Sys2Proof.Machine

/-- A cycle modifier (R180): a count, a signed 32-bit integer, and a predicate, the predicates being the constructors of R182 to
R188. -/
inductive CycleMod where
  | constant (cycles : Int32)
  | accIs16Bit (cycles : Int32)
  | indexIs16Bit (cycles : Int32)
  | nativeMode (cycles : Int32)
  | lowDirectPageIsNotZero (cycles : Int32)
  | checkPageBoundary (cycles : Int32) (initial : Addr) (r : IndexReg)
  | checkPageBoundaryAndEmulationMode (cycles : Int32) (initial new : Addr)
  deriving DecidableEq, Repr

/-- Two addresses differ in their page-and-bank part (R187, R188). -/
def pageDiffers (a b : Addr) : Bool := a &&& 0xFFFF00 != b &&& 0xFFFF00

/-- The predicate of a modifier (R182 to R188). -/
def CycleMod.holds (s : State) : CycleMod → Bool
  | .constant _ => true
  | .accIs16Bit _ => accW s == .bit16
  | .indexIs16Bit _ => idxW s == .bit16
  | .nativeMode _ => s.emuMode == .native
  | .lowDirectPageIsNotZero _ => s.directPage &&& 0x00FF != 0
  | .checkPageBoundary _ initial r => pageDiffers initial (indexed initial s r)
  | .checkPageBoundaryAndEmulationMode _ initial new => s.emuMode == .emulation && pageDiffers initial new

/-- `acc16` of the tables (R189). -/
def acc16 : CycleMod := .accIs16Bit 1

/-- `dpnz` of the tables (R189). -/
def dpnz : CycleMod := .lowDirectPageIsNotZero 1

/-- The count of a modifier (R180). -/
def CycleMod.cycles : CycleMod → Int32
  | .constant n => n
  | .accIs16Bit n => n
  | .indexIs16Bit n => n
  | .nativeMode n => n
  | .lowDirectPageIsNotZero n => n
  | .checkPageBoundary n _ _ => n
  | .checkPageBoundaryAndEmulationMode n _ _ => n

/-- `calc_cycles(cpu, mods)` (R181): the sum, an exact integer (log 8). -/
def calcCycles (s : State) : List CycleMod → Int
  | [] => 0
  | m :: ms => (if m.holds s then m.cycles.toInt else 0) + calcCycles s ms

end Sys2Proof.Machine
end

