-- ==== Sys2Proof/Machine/Instance.lean ====
section
/-! DEFINITION. The opcode instance of every instruction (48_opcode_protocol.md R355): what `ByteSize`, `TotalCycles`, `Disasm`
and the access order are computed from. -/

namespace Sys2Proof.Machine

/-- The instance of a decoded instruction (48_opcode_protocol.md R355). -/
inductive Instance where
  /-- An instruction with an addressing mode: mnemonic, mode, operand, `cycle_mods`, the index register of its
  `pre_index_mode` (R352: where there is one it is `Absolute(data)`), and whether it writes its memory operand. -/
  | addressed (mnemonic : String) (mode : AddrMode) (operand : Addr) (mods : List CycleMod) (preIndex : Option IndexReg)
      (stores : Bool)
  /-- A processor-status instruction (47_status_ops.md R321): mnemonic, fixed size, fixed cycles, mask byte of REP and SEP. -/
  | status (mnemonic : String) (size : Nat) (cycles : Nat) (maskByte : Option Byte)
  deriving DecidableEq, Repr

/-- The tables of 43_logical_ora_and.md R200, 44_bit_trb_tsb.md R240, 45_shift_rotate.md R260, 46_inc_dec.md R290 and
47_status_ops.md R321. -/
def instanceOf : Instr → Instance
  | .oraImm imm => .addressed "ORA" .immediate (zext 24 imm) [.constant 2, acc16] none false
  | .oraAbs o16 => .addressed "ORA" (.absolute .data) (zext 24 o16) [.constant 4, acc16] none false
  | .oraLong o24 => .addressed "ORA" (.absolute .long) (zext 24 o24) [.constant 5, acc16] none false
  | .oraDp o8 => .addressed "ORA" .directPage (zext 24 o8) [.constant 3, acc16, dpnz] none false
  | .oraDpInd o8 => .addressed "ORA" (.indirect .directPage .data) (zext 24 o8) [.constant 5, acc16, dpnz] none false
  | .oraDpIndLong o8 => .addressed "ORA" (.indirect .directPage .long) (zext 24 o8) [.constant 6, acc16, dpnz] none false
  | .oraAbsX o16 => .addressed "ORA" (.indexed (.absolute .data) .x) (zext 24 o16) [.constant 4, acc16] (some .x) false
  | .oraLongX o24 => .addressed "ORA" (.indexed (.absolute .long) .x) (zext 24 o24) [.constant 5, acc16] none false
  | .oraAbsY o16 => .addressed "ORA" (.indexed (.absolute .data) .y) (zext 24 o16) [.constant 4, acc16] (some .y) false
  | .oraDpX o8 => .addressed "ORA" (.indexed .directPage .x) (zext 24 o8) [.constant 4, acc16, dpnz] none false
  | .oraDpXInd o8 => .addressed "ORA" (.indirect (.indexed .directPage .x) .data) (zext 24 o8) [.constant 6, acc16, dpnz] none false
  | .oraDpIndY o8 => .addressed "ORA" (.indexed (.indirect .directPage .data) .y) (zext 24 o8) [.constant 5, acc16, dpnz] none false
  | .oraDpIndLongY o8 => .addressed "ORA" (.indexed (.indirect .directPage .long) .y) (zext 24 o8) [.constant 6, acc16, dpnz] none false
  | .oraSr o8 => .addressed "ORA" .stack (zext 24 o8) [.constant 4, acc16] none false
  | .oraSrIndY o8 => .addressed "ORA" (.indexed (.indirect .stack .data) .y) (zext 24 o8) [.constant 7, acc16] none false
  | .andImm imm => .addressed "AND" .immediate (zext 24 imm) [.constant 2, acc16] none false
  | .andAbs o16 => .addressed "AND" (.absolute .data) (zext 24 o16) [.constant 4, acc16] none false
  | .andLong o24 => .addressed "AND" (.absolute .long) (zext 24 o24) [.constant 5, acc16] none false
  | .andDp o8 => .addressed "AND" .directPage (zext 24 o8) [.constant 3, acc16, dpnz] none false
  | .andDpInd o8 => .addressed "AND" (.indirect .directPage .data) (zext 24 o8) [.constant 5, acc16, dpnz] none false
  | .andDpIndLong o8 => .addressed "AND" (.indirect .directPage .long) (zext 24 o8) [.constant 6, acc16, dpnz] none false
  | .andAbsX o16 => .addressed "AND" (.indexed (.absolute .data) .x) (zext 24 o16) [.constant 4, acc16] (some .x) false
  | .andLongX o24 => .addressed "AND" (.indexed (.absolute .long) .x) (zext 24 o24) [.constant 5, acc16] none false
  | .andAbsY o16 => .addressed "AND" (.indexed (.absolute .data) .y) (zext 24 o16) [.constant 4, acc16] (some .y) false
  | .andDpX o8 => .addressed "AND" (.indexed .directPage .x) (zext 24 o8) [.constant 4, acc16, dpnz] none false
  | .andDpXInd o8 => .addressed "AND" (.indirect (.indexed .directPage .x) .data) (zext 24 o8) [.constant 6, acc16, dpnz] none false
  | .andDpIndY o8 => .addressed "AND" (.indexed (.indirect .directPage .data) .y) (zext 24 o8) [.constant 5, acc16, dpnz] none false
  | .andDpIndLongY o8 => .addressed "AND" (.indexed (.indirect .directPage .long) .y) (zext 24 o8) [.constant 6, acc16, dpnz] none false
  | .andSr o8 => .addressed "AND" .stack (zext 24 o8) [.constant 4, acc16] none false
  | .andSrIndY o8 => .addressed "AND" (.indexed (.indirect .stack .data) .y) (zext 24 o8) [.constant 7, acc16] none false
  | .bitImm imm => .addressed "BIT" .immediate (zext 24 imm) [.constant 2, acc16] none false
  | .bitAbs o16 => .addressed "BIT" (.absolute .data) (zext 24 o16) [.constant 4, acc16] none false
  | .bitDp o8 => .addressed "BIT" .directPage (zext 24 o8) [.constant 3, acc16, dpnz] none false
  | .bitAbsX o16 => .addressed "BIT" (.indexed (.absolute .data) .x) (zext 24 o16) [.constant 4, acc16] (some .x) false
  | .bitDpX o8 => .addressed "BIT" (.indexed .directPage .x) (zext 24 o8) [.constant 4, acc16, dpnz] none false
  | .trbAbs o16 => .addressed "TRB" (.absolute .data) (zext 24 o16) [.constant 6, .accIs16Bit 2] none true
  | .trbDp o8 => .addressed "TRB" .directPage (zext 24 o8) [.constant 5, .accIs16Bit 2, dpnz] none true
  | .tsbAbs o16 => .addressed "TSB" (.absolute .data) (zext 24 o16) [.constant 6, .accIs16Bit 2] none true
  | .tsbDp o8 => .addressed "TSB" .directPage (zext 24 o8) [.constant 5, .accIs16Bit 2, dpnz] none true
  | .aslA => .addressed "ASL" (.register .acc) 0 [.constant 2] none false
  | .aslDp o8 => .addressed "ASL" .directPage (zext 24 o8) [.constant 5, acc16, dpnz] none true
  | .aslAbs o16 => .addressed "ASL" (.absolute .data) (zext 24 o16) [.constant 6, .accIs16Bit 2] none true
  | .aslDpX o8 => .addressed "ASL" (.indexed .directPage .x) (zext 24 o8) [.constant 6, acc16, dpnz] none true
  | .aslAbsX o16 => .addressed "ASL" (.indexed (.absolute .data) .x) (zext 24 o16) [.constant 7, .accIs16Bit 2] none true
  | .rolA => .addressed "ROL" (.register .acc) 0 [.constant 2] none false
  | .rolDp o8 => .addressed "ROL" .directPage (zext 24 o8) [.constant 5, acc16, dpnz] none true
  | .rolAbs o16 => .addressed "ROL" (.absolute .data) (zext 24 o16) [.constant 6, .accIs16Bit 2] none true
  | .rolDpX o8 => .addressed "ROL" (.indexed .directPage .x) (zext 24 o8) [.constant 6, acc16, dpnz] none true
  | .rolAbsX o16 => .addressed "ROL" (.indexed (.absolute .data) .x) (zext 24 o16) [.constant 7, .accIs16Bit 2] none true
  | .lsrA => .addressed "LSR" (.register .acc) 0 [.constant 2] none false
  | .lsrDp o8 => .addressed "LSR" .directPage (zext 24 o8) [.constant 5, acc16, dpnz] none true
  | .lsrAbs o16 => .addressed "LSR" (.absolute .data) (zext 24 o16) [.constant 6, .accIs16Bit 2] none true
  | .lsrDpX o8 => .addressed "LSR" (.indexed .directPage .x) (zext 24 o8) [.constant 6, acc16, dpnz] none true
  | .lsrAbsX o16 => .addressed "LSR" (.indexed (.absolute .data) .x) (zext 24 o16) [.constant 7, .accIs16Bit 2] none true
  | .rorA => .addressed "ROR" (.register .acc) 0 [.constant 2] none false
  | .rorDp o8 => .addressed "ROR" .directPage (zext 24 o8) [.constant 5, acc16, dpnz] none true
  | .rorAbs o16 => .addressed "ROR" (.absolute .data) (zext 24 o16) [.constant 6, .accIs16Bit 2] none true
  | .rorDpX o8 => .addressed "ROR" (.indexed .directPage .x) (zext 24 o8) [.constant 6, acc16, dpnz] none true
  | .rorAbsX o16 => .addressed "ROR" (.indexed (.absolute .data) .x) (zext 24 o16) [.constant 7, .accIs16Bit 2] none true
  | .incA => .addressed "INC" (.register .acc) 0 [.constant 2] none false
  | .incAbs o16 => .addressed "INC" (.absolute .data) (zext 24 o16) [.constant 6, .accIs16Bit 2] none true
  | .incDp o8 => .addressed "INC" .directPage (zext 24 o8) [.constant 5, .accIs16Bit 2, dpnz] none true
  | .incAbsX o16 => .addressed "INC" (.indexed (.absolute .data) .x) (zext 24 o16) [.constant 7, .accIs16Bit 2] none true
  | .incDpX o8 => .addressed "INC" (.indexed .directPage .x) (zext 24 o8) [.constant 6, .accIs16Bit 2, dpnz] none true
  | .inx => .addressed "INX" (.register .x) 0 [.constant 2] none false
  | .iny => .addressed "INY" (.register .y) 0 [.constant 2] none false
  | .decA => .addressed "DEC" (.register .acc) 0 [.constant 2] none false
  | .decAbs o16 => .addressed "DEC" (.absolute .data) (zext 24 o16) [.constant 6, .accIs16Bit 2] none true
  | .decDp o8 => .addressed "DEC" .directPage (zext 24 o8) [.constant 5, .accIs16Bit 2, dpnz] none true
  | .decAbsX o16 => .addressed "DEC" (.indexed (.absolute .data) .x) (zext 24 o16) [.constant 7, .accIs16Bit 2] none true
  | .decDpX o8 => .addressed "DEC" (.indexed .directPage .x) (zext 24 o8) [.constant 6, .accIs16Bit 2, dpnz] none true
  | .dex => .addressed "DEX" (.register .x) 0 [.constant 2] none false
  | .dey => .addressed "DEY" (.register .y) 0 [.constant 2] none false
  | .clc => .status "CLC" 1 2 none
  | .sec => .status "SEC" 1 2 none
  | .cld => .status "CLD" 1 2 none
  | .sed => .status "SED" 1 2 none
  | .sei => .status "SEI" 1 2 none
  | .cli => .status "CLI" 1 2 none
  | .clv => .status "CLV" 1 2 none
  | .nop => .status "NOP" 1 2 none
  | .xba => .status "XBA" 1 3 none
  | .xce => .status "XCE" 1 2 none
  | .rep o8 => .status "REP" 2 3 (some o8)
  | .sep o8 => .status "SEP" 2 3 (some o8)

/-- The index register of the instance's `pre_index_mode`, where it has one (48_opcode_protocol.md R352). -/
def Instance.preIndex : Instance → Option IndexReg
  | .addressed _ _ _ _ r _ => r
  | .status _ _ _ _ => none

/-- `ByteSize(inst, cpu)` (48_opcode_protocol.md R350), at the observed accumulator width `w`. -/
def Instance.byteSize (w : Width) : Instance → Nat
  | .addressed _ m _ _ _ _ => 1 + m.byteSize w
  | .status _ n _ _ => n

/-- `TotalCycles(inst, cpu)` (48_opcode_protocol.md R351, R352), on the state before `Execute`. -/
def Instance.totalCycles (s : State) : Instance → Nat
  | .addressed _ _ o mods (some r) _ =>
    (calcCycles s (.checkPageBoundary 1 (absoluteOffset s.dataBank (zext 16 o)) r :: mods)).toNat
  | .addressed _ _ _ mods none _ => (calcCycles s mods).toNat
  | .status _ _ k _ => k

/-- `ByteSize` of a decoded instruction in a state. -/
def byteSize (i : Instr) (s : State) : Nat := (instanceOf i).byteSize (accW s)

/-- `TotalCycles` of a decoded instruction in a state. -/
def totalCycles (i : Instr) (s : State) : Nat := (instanceOf i).totalCycles s

end Sys2Proof.Machine
end

