-- ==== Sys2Proof/Machine/Fetch.lean ====
section
/-! DEFINITION. Fetching the next instruction: lines 1 to 3 of `Step` and the operand read of 30_encoding.md R92
(48_opcode_protocol.md R358; order of the checks 60_exceptions.md R375). -/

namespace Sys2Proof.Machine

/-- Lines 1 and 2 of `Step`: the opcode byte at `EffPC` and the family row that claims it (48_opcode_protocol.md R356, R358). -/
def fetchOpcode (s : State) : Host.Outcome Form Fault Refusal :=
  match memRead s (effPC s).toNat 1 with
  | .error f => .fault f
  | .ok b =>
    match decodeOpcode (BitVec.ofNat 8 b) with
    | none => .refused (.unimplementedOpcode (BitVec.ofNat 8 b))
    | some form => .next form

/-- `Operand(cpu, n)` (30_encoding.md R92); no read at all where there is no operand byte. -/
def operandAt (s : State) : Nat → Except Fault Nat
  | 0 => .ok 0
  | n + 1 => memRead s ((effPC s).toNat + 1) (n + 1)

/-- The next instruction with its operand, or why there is none. The operand bytes are read once here; the reads of
`TotalCycles` and `Execute` at the same addresses stop in the same way (log 7). -/
def fetchInstr (s : State) : Host.Outcome Instr Fault Refusal :=
  match fetchOpcode s with
  | .fault f => .fault f
  | .refused r => .refused r
  | .next form =>
    let n := form.operandBytes (accW s)
    if s.pc.toNat + (1 + n) > 0x10000 then .refused .instructionStraddlesBank
    else
      match operandAt s n with
      | .error f => .fault f
      | .ok v => .next (form.build v)

/-- Line 6 of `Step` (48_opcode_protocol.md R358): `pc` moves past the instruction inside its bank. -/
def advance (pc : Word) (n : Nat) (t : State) : State := t.setPc (pc + BitVec.ofNat 16 n)

/-- Stores the bytes of a list from address `a` up, as far as memory exists: the loader placing a program (log 6). -/
def placeBytes (s : State) : Nat → List Byte → State
  | _, [] => s
  | a, b :: bs => placeBytes (if a < s.config.memSize then s.setMemory (s.memory.write a b) else s) (a + 1) bs

end Sys2Proof.Machine
end

