-- ==== Sys2Proof/Machine/Step.lean ====
section
/-! DEFINITION. The reference step (48_opcode_protocol.md R358 to R360). -/

namespace Sys2Proof.Machine

/-- `Step` (48_opcode_protocol.md R358) without its cycle count: fetch, execute, move `pc` by the size on the state before. -/
def step (s : State) : Host.Outcome State Fault Refusal :=
  match fetchInstr s with
  | .fault f => .fault f
  | .refused r => .refused r
  | .next i =>
    match exec i s with
    | .fault f => .fault f
    | .refused r => .refused r
    | .next t => .next (advance s.pc (byteSize i s) t)

/-- The state with one instruction's bytes stored where the next step fetches: at `EffPC` up (log 6). -/
def State.withFetchWord (s : State) (nbits w : Nat) : State := placeBytes s (effPC s).toNat (tableBytes nbits w)

end Sys2Proof.Machine
end

