-- ==== Sys2Proof/Machine/Disasm.lean ====
section
/-! DEFINITION. The disassembly text (30_encoding.md R101, R102; 48_opcode_protocol.md R354). An observation: no rule of the
machine depends on it. -/

namespace Sys2Proof.Machine

/-- One upper-case hex digit (R102). -/
def hexDigit (n : Nat) : Char := if n < 10 then Char.ofNat (0x30 + n) else Char.ofNat (0x37 + n)

/-- A value as exactly `k` hex digits, zero-padded (R102). -/
def hexDigits : Nat → Nat → List Char
  | 0, _ => []
  | k + 1, v => hexDigits k (v / 0x10) ++ [hexDigit (v % 0x10)]

/-- `$` and `k` hex digits (R101). -/
def hexText (k v : Nat) : String := "$" ++ String.ofList (hexDigits k v)

/-- `disasm(m, cpu)` of a mode (41_addressing_modes.md R145 to R155; 30_encoding.md R101). -/
def AddrMode.text (w : Width) (o : Addr) : AddrMode → String
  | .immediate => "#" ++ hexText (2 * w.nbytes) o.toNat
  | .absolute .data => hexText 4 o.toNat
  | .absolute .program => hexText 4 o.toNat
  | .absolute .long => hexText 6 o.toNat
  | .directPage => hexText 2 o.toNat
  | .stack => hexText 2 o.toNat ++ ",S"
  | .register .acc => "A"
  | .register .x => "X"
  | .register .y => "Y"
  | .indexed base .x => base.text w o ++ ",X"
  | .indexed base .y => base.text w o ++ ",Y"
  | .indirect base .long => "[" ++ base.text w o ++ "]"
  | .indirect base .data => "(" ++ base.text w o ++ ")"
  | .indirect base .program => "(" ++ base.text w o ++ ")"

/-- `Disasm(inst, cpu)` (48_opcode_protocol.md R354), with the bare mnemonic of INX, INY, DEX and DEY ("disasm override"). -/
def Instance.text (w : Width) : Instance → String
  | .addressed mn (.register .x) _ _ _ _ => mn
  | .addressed mn (.register .y) _ _ _ _ => mn
  | .addressed mn m o _ _ _ => mn ++ " " ++ m.text w o
  | .status mn _ _ none => mn
  | .status mn _ _ (some b) => mn ++ " #" ++ hexText 2 b.toNat

/-- `Disasm` of a decoded instruction in a state: of the state it reads `AccW` alone. -/
def disasm (i : Instr) (s : State) : String := (instanceOf i).text (accW s)

end Sys2Proof.Machine
end

