-- ==== Sys2Proof/Machine/Interface.lean ====
section
/-! DEFINITION. The interface functions as 00_scope.md R6 has them: on the instance of an opcode byte and a state, each reading
the operand bytes it needs from memory (48_opcode_protocol.md R350 to R355). The instance is the row `Form` that claims the
byte; what an instance is configured with does not depend on the operand, so the row built with operand 0 shows it (R355). -/

namespace Sys2Proof.Machine

/-- The operand bytes of a row, read from memory (30_encoding.md R92, R94). -/
def operandOf (f : Form) (s : State) : Except Fault Nat := operandAt s (f.operandBytes (accW s))

/-- `ByteSize(inst, cpu)` (R350): it reads no memory. -/
def byteSizeOf (f : Form) (s : State) : Nat := byteSize (f.build 0) s

/-- `TotalCycles(inst, cpu)` (R351, R352): only an instance with a `pre_index_mode` reads its operand bytes, and it alone can
meet `MemoryBounds` (60_exceptions.md R372). -/
def totalCyclesOf (f : Form) (s : State) : Except Fault Nat :=
  match (instanceOf (f.build 0)).preIndex with
  | none => .ok (totalCycles (f.build 0) s)
  | some _ => (operandOf f s).map fun v => totalCycles (f.build v) s

/-- `Execute(inst, cpu)` (R353). -/
def executeOf (f : Form) (s : State) : Host.Outcome State Fault Refusal :=
  match operandOf f s with
  | .error e => .fault e
  | .ok v => exec (f.build v) s

/-- `Disasm(inst, cpu)` (R354): it reads the operand bytes, and can meet `MemoryBounds` on them (60_exceptions.md R372). -/
def disasmOf (f : Form) (s : State) : Except Fault String := (operandOf f s).map fun v => disasm (f.build v) s

end Sys2Proof.Machine
end

