-- ==== Sys2Proof/Machine/Run.lean ====
section
/-! DEFINITION. `Step` with its cycle count, line by line, and runs (48_opcode_protocol.md R358 to R360). -/

namespace Sys2Proof.Machine

/-- `Step` (R358), each line a call of an interface function on the state before. `step` is the same machine with the operand
read once (log 7). -/
def stepReport (s : State) : Host.Outcome (State × Nat) Fault Refusal :=
  match fetchOpcode s with
  | .fault e => .fault e
  | .refused r => .refused r
  | .next f =>
    let n := byteSizeOf f s
    if s.pc.toNat + n > 0x10000 then .refused .instructionStraddlesBank
    else
      match totalCyclesOf f s with
      | .error e => .fault e
      | .ok k =>
        match executeOf f s with
        | .fault e => .fault e
        | .refused r => .refused r
        | .next t => .next (advance s.pc n t, k)

/-- What ended a run (R359): the caller, or the outcome that a step raised. -/
inductive RunEnd where
  | caller
  | fault (f : Fault)
  | refused (r : Refusal)
  deriving DecidableEq, Repr

/-- All that a run reports (R359): the final state, the cycle count of each completed step, first step first, and the
outcome. A step that stops reports no count (R360). -/
structure RunReport where
  state : State
  counts : List Nat
  ending : RunEnd
  deriving DecidableEq, Repr

/-- The report with one completed step of `k` cycles before it. -/
def RunReport.after (k : Nat) (r : RunReport) : RunReport := { r with counts := k :: r.counts }

/-- The cycle total of a run: the plain sum over its steps (R360). -/
def RunReport.total (r : RunReport) : Nat := r.counts.sum

/-- A run of at most `n` steps (R359): it ends at the first outcome other than completion, with the state of the last completed
step. -/
def runReport : Nat → State → RunReport
  | 0, s => ⟨s, [], .caller⟩
  | n + 1, s =>
    match stepReport s with
    | .fault f => ⟨s, [], .fault f⟩
    | .refused r => ⟨s, [], .refused r⟩
    | .next p => (runReport n p.1).after p.2

end Sys2Proof.Machine
end

