-- ==== Sys2Proof/Machine/Trace.lean ====
section
/-! DEFINITION. The order of the memory accesses of one step (20_memory.md R74). An observation: no program sees it. -/

namespace Sys2Proof.Machine

/-- Read or write. -/
inductive AccessKind where
  | read
  | write
  deriving DecidableEq, Repr

/-- One byte access. -/
structure Access where
  kind : AccessKind
  addr : Nat
  deriving DecidableEq, Repr

/-- `n` byte accesses in ascending order. -/
def accessRun (k : AccessKind) (a : Nat) : Nat → List Access
  | 0 => []
  | n + 1 => ⟨k, a⟩ :: accessRun k (a + 1) n

/-- The number of pointer bytes of an `Indirect` mode (20_memory.md R66). -/
def Bank.pointerBytes : Bank → Nat
  | .data => 2
  | .program => 2
  | .long => 3

/-- The pointer bytes a mode reads (20_memory.md R74 (3)). -/
def AddrMode.pointerReads (o : Addr) (s : State) : AddrMode → List Access
  | .indexed base _ => base.pointerReads o s
  | .indirect base k =>
    base.pointerReads o s ++
      match base.address o s with
      | .ok a => accessRun .read a.toNat k.pointerBytes
      | .error _ => []
  | .immediate => []
  | .absolute _ => []
  | .directPage => []
  | .stack => []
  | .register _ => []

/-- The data bytes a mode moves (20_memory.md R66, R74 (4), (5)). -/
def AddrMode.dataAccesses (k : AccessKind) (o : Addr) (s : State) : AddrMode → List Access
  | .immediate => []
  | .register _ => []
  | m =>
    match m.address o s with
    | .ok a => accessRun k a.toNat (accW s).nbytes
    | .error _ => []

/-- The accesses of `Execute` after the operand bytes (20_memory.md R74 (3) to (5)). -/
def Instance.accesses (s : State) : Instance → List Access
  | .addressed _ m o _ _ stores =>
    m.pointerReads o s ++ m.dataAccesses .read o s ++ (if stores then m.dataAccesses .write o s else [])
  | .status _ _ _ _ => []

/-- The operand bytes of an instruction (20_memory.md R74 (2)). -/
def operandReads (i : Instr) (s : State) : List Access := accessRun .read ((effPC s).toNat + 1) (byteSize i s - 1)

/-- The pointer bytes of an instruction (20_memory.md R74 (3)). -/
def Instance.pointerReads (s : State) : Instance → List Access
  | .addressed _ m o _ _ _ => m.pointerReads o s
  | .status _ _ _ _ => []

/-- Reads (1) to (3) of 20_memory.md R74: opcode, operand bytes, pointer bytes. -/
def leadingReads (i : Instr) (s : State) : List Access :=
  accessRun .read (effPC s).toNat 1 ++ operandReads i s ++ (instanceOf i).pointerReads s

/-- The accesses of a completing instruction (20_memory.md R74): opcode, operand, pointer, data read, data write. -/
def accesses (i : Instr) (s : State) : List Access :=
  accessRun .read (effPC s).toNat (byteSize i s) ++ (instanceOf i).accesses s

/-- The reads that a call of `TotalCycles` repeats: (1) to (3) of 20_memory.md R74, for every opcode. -/
def cyclesReads (i : Instr) (s : State) : List Access := leadingReads i s

/-- The reads that a call of `Disasm` repeats: (1) to (3) of 20_memory.md R74, for every opcode. -/
def disasmReads (i : Instr) (s : State) : List Access := leadingReads i s

/-- Of the reads of `TotalCycles`, those its count is computed from, the only ones it can stop on: the operand bytes of an
instance with a `pre_index_mode` (48_opcode_protocol.md R352; 60_exceptions.md R372; log 11). -/
def cyclesOperandReads (i : Instr) (s : State) : List Access :=
  match (instanceOf i).preIndex with
  | some _ => operandReads i s
  | none => []

/-- The whole event history of a completing `Step`, in the line order of 48_opcode_protocol.md R358: the opcode byte, the reads
that `TotalCycles` repeats, and the accesses of `Execute`, (2) to (5) of 20_memory.md R74. -/
def stepHistory (i : Instr) (s : State) : List Access :=
  accessRun .read (effPC s).toNat 1 ++ cyclesReads i s ++ operandReads i s ++ (instanceOf i).accesses s

/-- The history of a tool's call that fetches the opcode byte at `EffPC`, decodes it and calls one function on the instance. -/
def callHistory (reads : Instr → State → List Access) (i : Instr) (s : State) : List Access :=
  accessRun .read (effPC s).toNat 1 ++ reads i s

end Sys2Proof.Machine
end

