-- ==== Sys2Proof/Safety.lean ====
section
/-! DEFINITION. The invariant of the machine, and the terms the statements speak in: the effective addresses of
41_addressing_modes.md R157 as plain arithmetic on natural numbers, when the bytes an instruction needs exist, and the values
read and stored byte by byte. Nothing here is used by the machine. -/

namespace Sys2Proof.Machine

/-! ## The invariant -/

/-- The memory keeps its canonical form and lists no address past `MEM_SIZE`; the parameters are legal (00_scope.md R5;
20_memory.md R60). -/
abbrev State.Inv (s : State) : Prop := s.memory.Wf ∧ s.memory.Below s.config.memSize ∧ s.config.Wf

/-! ## Bits and ranges of a width -/

/-- `2^width`. -/
def rangeOf : Width → Nat
  | .bit8 => 0x100
  | .bit16 => 0x10000

/-- Bit 7 at `bit8`, bit 15 at `bit16` (40_alu_helpers.md R127 (4)). -/
def topBit : Width → Word → Bool
  | .bit8, v => v.getLsbD 7
  | .bit16, v => v.getLsbD 15

/-- Bit 6 at `bit8`, bit 14 at `bit16` (44_bit_trb_tsb.md R241). -/
def nextBit : Width → Word → Bool
  | .bit8, v => v.getLsbD 6
  | .bit16, v => v.getLsbD 14

/-! ## Addresses, flat (R157) -/

/-- `(o8 + direct_page) & 0xFFFF` (R149). -/
def directAddr (s : State) (o8 : Byte) : Nat := (o8.toNat + s.directPage.toNat) % 0x10000

/-- `(stack_ptr + o8) & 0xFFFF` (R150). -/
def stackAddr (s : State) (o8 : Byte) : Nat := (s.stackPtr.toNat + o8.toNat) % 0x10000

/-- `(bank << 16) | a` for a 16-bit `a` (R140). -/
def inBank (bank : Byte) (a : Nat) : Nat := bank.toNat * 0x10000 + a

/-- `(a + RdX(cpu)) & 0xFFFFFF` (R141). -/
def plusX (s : State) (a : Nat) : Nat := (a + (rdX s).toNat) % 0x1000000

/-- `(a + RdY(cpu)) & 0xFFFFFF` (R141). -/
def plusY (s : State) (a : Nat) : Nat := (a + (rdY s).toNat) % 0x1000000

/-- The two bytes at `a`, low byte first (20_memory.md R61). -/
def word2 (s : State) (a : Nat) : Nat := (s.memory.read a).toNat + 0x100 * (s.memory.read (a + 1)).toNat

/-- The three bytes at `a`, low byte first (20_memory.md R61). -/
def word3 (s : State) (a : Nat) : Nat := word2 s a + 0x10000 * (s.memory.read (a + 2)).toNat

/-- Where an instruction reads a pointer, and how many bytes (R153, R155; 20_memory.md R66). -/
def pointerOf (s : State) : Instr → Option (Nat × Nat)
  | .oraDpInd o8 | .oraDpIndY o8 | .andDpInd o8 | .andDpIndY o8 => some (directAddr s o8, 2)
  | .oraDpIndLong o8 | .oraDpIndLongY o8 | .andDpIndLong o8 | .andDpIndLongY o8 => some (directAddr s o8, 3)
  | .oraDpXInd o8 | .andDpXInd o8 => some (plusX s (directAddr s o8), 2)
  | .oraSrIndY o8 | .andSrIndY o8 => some (stackAddr s o8, 2)
  | .oraImm _ | .oraAbs _ | .oraLong _ | .oraDp _ | .oraAbsX _ | .oraLongX _ | .oraAbsY _ | .oraDpX _ | .oraSr _
  | .andImm _ | .andAbs _ | .andLong _ | .andDp _ | .andAbsX _ | .andLongX _ | .andAbsY _ | .andDpX _ | .andSr _
  | .bitImm _ | .bitAbs _ | .bitDp _ | .bitAbsX _ | .bitDpX _ | .trbAbs _ | .trbDp _ | .tsbAbs _ | .tsbDp _
  | .aslA | .aslDp _ | .aslAbs _ | .aslDpX _ | .aslAbsX _ | .rolA | .rolDp _ | .rolAbs _ | .rolDpX _
  | .rolAbsX _ | .lsrA | .lsrDp _ | .lsrAbs _ | .lsrDpX _ | .lsrAbsX _ | .rorA | .rorDp _ | .rorAbs _
  | .rorDpX _ | .rorAbsX _ | .incA | .incAbs _ | .incDp _ | .incAbsX _ | .incDpX _ | .inx | .iny | .decA
  | .decAbs _ | .decDp _ | .decAbsX _ | .decDpX _ | .dex | .dey | .clc | .sec | .cld | .sed | .sei | .cli | .clv
  | .nop | .xba | .xce | .rep _ | .sep _ => none

/-- The address an instruction reads its memory datum from and stores it back to (R157); `none` where it has none. -/
def dataAddr (s : State) : Instr → Option Nat
  | .oraAbs o16 | .andAbs o16 | .bitAbs o16 | .trbAbs o16 | .tsbAbs o16 | .aslAbs o16 | .rolAbs o16
  | .lsrAbs o16 | .rorAbs o16 | .incAbs o16 | .decAbs o16 => some (inBank s.dataBank o16.toNat)
  | .oraLong o24 | .andLong o24 => some o24.toNat
  | .oraDp o8 | .andDp o8 | .bitDp o8 | .trbDp o8 | .tsbDp o8 | .aslDp o8 | .rolDp o8 | .lsrDp o8 | .rorDp o8
  | .incDp o8 | .decDp o8 => some (directAddr s o8)
  | .oraDpInd o8 | .andDpInd o8 => some (inBank s.dataBank (word2 s (directAddr s o8)))
  | .oraDpIndLong o8 | .andDpIndLong o8 => some (word3 s (directAddr s o8))
  | .oraAbsX o16 | .andAbsX o16 | .bitAbsX o16 | .aslAbsX o16 | .rolAbsX o16 | .lsrAbsX o16 | .rorAbsX o16
  | .incAbsX o16 | .decAbsX o16 => some (plusX s (inBank s.dataBank o16.toNat))
  | .oraLongX o24 | .andLongX o24 => some (plusX s o24.toNat)
  | .oraAbsY o16 | .andAbsY o16 => some (plusY s (inBank s.dataBank o16.toNat))
  | .oraDpX o8 | .andDpX o8 | .bitDpX o8 | .aslDpX o8 | .rolDpX o8 | .lsrDpX o8 | .rorDpX o8 | .incDpX o8
  | .decDpX o8 => some (plusX s (directAddr s o8))
  | .oraDpXInd o8 | .andDpXInd o8 => some (inBank s.dataBank (word2 s (plusX s (directAddr s o8))))
  | .oraDpIndY o8 | .andDpIndY o8 => some (plusY s (inBank s.dataBank (word2 s (directAddr s o8))))
  | .oraDpIndLongY o8 | .andDpIndLongY o8 => some (plusY s (word3 s (directAddr s o8)))
  | .oraSr o8 | .andSr o8 => some (stackAddr s o8)
  | .oraSrIndY o8 | .andSrIndY o8 => some (plusY s (inBank s.dataBank (word2 s (stackAddr s o8))))
  | .oraImm _ | .andImm _ | .bitImm _ | .aslA | .rolA | .lsrA | .rorA | .incA | .inx | .iny | .decA | .dex
  | .dey | .clc | .sec | .cld | .sed | .sei | .cli | .clv | .nop | .xba | .xce | .rep _ | .sep _ => none

/-! ## When the bytes exist -/

/-- The bytes `a .. a+n-1` are below `MEM_SIZE` (20_memory.md R62). -/
abbrev Present (s : State) (a n : Nat) : Prop := a + n ≤ s.config.memSize

/-- The pointer and data bytes that `Execute` touches are all in range. -/
abbrev Ready (s : State) (i : Instr) : Prop :=
  (∀ p ∈ pointerOf s i, Present s p.1 p.2) ∧ ∀ a ∈ dataAddr s i, Present s a (accW s).nbytes

/-- The bytes of an instruction fetched at `EffPC` are in range and do not run past the program bank
(48_opcode_protocol.md R358). -/
abbrev Fetchable (s : State) (i : Instr) : Prop :=
  Present s (effPC s).toNat (byteSize i s) ∧ s.pc.toNat + byteSize i s ≤ 0x10000

/-! ## Values read and stored -/

/-- The memory datum at `a`, of the accumulator's width (20_memory.md R66; 41_addressing_modes.md R156). -/
def datumAt (s : State) (a : Nat) : Word :=
  match accW s with
  | .bit8 => zext 16 (s.memory.read a)
  | .bit16 => s.memory.read (a + 1) ++ s.memory.read a

/-- `m` is the memory of `s` with `v` stored at `a` at the accumulator's width: every byte of `m`, the stored ones and all
others (20_memory.md R64). -/
def StoredAt (s : State) (m : Memory) (a : Nat) (v : Word) : Prop :=
  ∀ b, m.read b =
    if b = a then zext 8 v
    else if b = a + 1 ∧ accW s = .bit16 then zext 8 (v >>> 8)
    else s.memory.read b

/-- The result of a one-place shift or rotate of `v` below `2^width`, in arithmetic (45_shift_rotate.md R261). -/
def shifted (op : ShiftOp) (w : Width) (v : Word) (cin : Bool) : Word :=
  match op with
  | .asl => BitVec.ofNat 16 (2 * v.toNat % rangeOf w)
  | .rol => BitVec.ofNat 16 (2 * v.toNat % rangeOf w + cin.toNat)
  | .lsr => BitVec.ofNat 16 (v.toNat / 2)
  | .ror => BitVec.ofNat 16 (v.toNat / 2 + cin.toNat * (rangeOf w / 2))

/-- The bit shifted out (45_shift_rotate.md R261). -/
def shiftedOut (op : ShiftOp) (w : Width) (v : Word) : Bool :=
  match op with
  | .asl => topBit w v
  | .rol => topBit w v
  | .lsr => v.getLsbD 0
  | .ror => v.getLsbD 0

/-! ## Instructions by mnemonic -/

/-- The mnemonic of an instance. -/
def Instance.mnemonic : Instance → String
  | .addressed mn _ _ _ _ _ => mn
  | .status mn _ _ _ => mn

/-- The mnemonic of an instruction. -/
def mnemonicOf (i : Instr) : String := (instanceOf i).mnemonic

/-! ## What a narrow register hides -/

/-- Two states that agree in everything but the stored high bytes of registers observed at 8 bits (10_state.md R38). -/
def SameVisible (s t : State) : Prop :=
  t = { s with acc := t.acc, x := t.x, y := t.y } ∧ rdAcc s = rdAcc t ∧ rdX s = rdX t ∧ rdY s = rdY t

end Sys2Proof.Machine
end

