-- ==== Sys2Proof/Certificates/Slice0/Obligations.lean ====
section
/-! DEFINITION. The statements for the provers. -/

open Sys2Proof Sys2Proof.Machine

/-- The unclaimed opcode bytes, as 30_encoding.md R100 lists them. -/
def Sys2Proof.unclaimedBytes : List Byte :=
  [0x00, 0x02, 0x08, 0x0B, 0x10, 0x1B, 0x20, 0x22, 0x28, 0x2B, 0x30, 0x3B, 0x40, 0x41, 0x42, 0x43, 0x44] ++
  [0x45, 0x47, 0x48, 0x49, 0x4B, 0x4C, 0x4D, 0x4F, 0x50, 0x51, 0x52, 0x53, 0x54, 0x55, 0x57, 0x59, 0x5A] ++
  [0x5B, 0x5C, 0x5D, 0x5F, 0x60, 0x61, 0x62, 0x63, 0x64, 0x65, 0x67, 0x68, 0x69, 0x6B, 0x6C, 0x6D, 0x6F] ++
  [0x70, 0x71, 0x72, 0x73, 0x74, 0x75, 0x77, 0x79, 0x7A, 0x7B, 0x7C, 0x7D, 0x7F, 0x80, 0x81, 0x82, 0x83] ++
  [0x84, 0x85, 0x86, 0x87, 0x8A, 0x8B, 0x8C, 0x8D, 0x8E, 0x8F, 0x90, 0x91, 0x92, 0x93, 0x94, 0x95, 0x96] ++
  [0x97, 0x98, 0x99, 0x9A, 0x9B, 0x9C, 0x9D, 0x9E, 0x9F, 0xA0, 0xA1, 0xA2, 0xA3, 0xA4, 0xA5, 0xA6, 0xA7] ++
  [0xA8, 0xA9, 0xAA, 0xAB, 0xAC, 0xAD, 0xAE, 0xAF, 0xB0, 0xB1, 0xB2, 0xB3, 0xB4, 0xB5, 0xB6, 0xB7, 0xB9] ++
  [0xBA, 0xBB, 0xBC, 0xBD, 0xBE, 0xBF, 0xC0, 0xC1, 0xC3, 0xC4, 0xC5, 0xC7, 0xC9, 0xCB, 0xCC, 0xCD, 0xCF] ++
  [0xD0, 0xD1, 0xD2, 0xD3, 0xD4, 0xD5, 0xD7, 0xD9, 0xDA, 0xDB, 0xDC, 0xDD, 0xDF, 0xE0, 0xE1, 0xE3, 0xE4] ++
  [0xE5, 0xE7, 0xE9, 0xEC, 0xED, 0xEF, 0xF0, 0xF1, 0xF2, 0xF3, 0xF4, 0xF5, 0xF7, 0xF9, 0xFA, 0xFC, 0xFD] ++
  [0xFF]

/-- For both accumulator widths, every well-formed instruction with every operand value, and any bytes after it: decode
(encode i ++ rest) is exactly (i, rest). (30_encoding.md sections 1 to 3 (formats, operand assembly, opcode map).) -/
def Obligations.DecodeAfterEncode : Prop :=
  ∀ (w : Width) (i : Instr) (rest : List Byte), i.wellFormed w = true → decode w (encode w i ++ rest) = .ok (i, rest)

/-- If some bytes decode to instruction i with bytes rest left over, then i is well-formed at that width and encode i ++
rest are those bytes: no two byte strings share an instruction and no bit is dropped. (30_encoding.md sections 1 to
3 (formats, operand assembly, opcode map).) -/
def Obligations.EncodeAfterDecode : Prop :=
  ∀ (w : Width) (bytes rest : List Byte) (i : Instr), decode w bytes = .ok (i, rest) →
    i.wellFormed w = true ∧ encode w i ++ rest = bytes

/-- An opcode byte is claimed by no family if and only if it is in the list of 171 bytes of 30_encoding.md section 4.
(30_encoding.md section 4 (unclaimed encodings).) -/
def Obligations.UnclaimedOpcodesAreTheListed : Prop :=
  ∀ b : Byte, decodeOpcode b = none ↔ b ∈ unclaimedBytes

/-- With bit 7 = 0, bits 6:5 = 00, 01, 10, 11 select ASL, ROL, LSR, ROR and bits 4:0 = 0x0A, 0x06, 0x0E, 0x16, 0x1E
select the mode (operands little-endian), at both widths; a byte with bit 7 = 1 or any other bits 4:0 is not this
family, and the twenty bytes are exactly those the rule lists. (R97.) -/
def Obligations.ShiftFamilyDecodesByBitFields : Prop :=
  ∀ (w : Width) (o8 lo hi : Byte) (rest : List Byte),
    decode w ((0#1 ++ 0#2 ++ 0x0A#5 : Byte) :: rest) = .ok (.aslA, rest) ∧
    decode w ((0#1 ++ 1#2 ++ 0x0A#5 : Byte) :: rest) = .ok (.rolA, rest) ∧
    decode w ((0#1 ++ 2#2 ++ 0x0A#5 : Byte) :: rest) = .ok (.lsrA, rest) ∧
    decode w ((0#1 ++ 3#2 ++ 0x0A#5 : Byte) :: rest) = .ok (.rorA, rest) ∧
    decode w ((0#1 ++ 0#2 ++ 0x06#5 : Byte) :: o8 :: rest) = .ok (.aslDp o8, rest) ∧
    decode w ((0#1 ++ 1#2 ++ 0x06#5 : Byte) :: o8 :: rest) = .ok (.rolDp o8, rest) ∧
    decode w ((0#1 ++ 2#2 ++ 0x06#5 : Byte) :: o8 :: rest) = .ok (.lsrDp o8, rest) ∧
    decode w ((0#1 ++ 3#2 ++ 0x06#5 : Byte) :: o8 :: rest) = .ok (.rorDp o8, rest) ∧
    decode w ((0#1 ++ 0#2 ++ 0x0E#5 : Byte) :: lo :: hi :: rest) = .ok (.aslAbs (hi ++ lo), rest) ∧
    decode w ((0#1 ++ 1#2 ++ 0x0E#5 : Byte) :: lo :: hi :: rest) = .ok (.rolAbs (hi ++ lo), rest) ∧
    decode w ((0#1 ++ 2#2 ++ 0x0E#5 : Byte) :: lo :: hi :: rest) = .ok (.lsrAbs (hi ++ lo), rest) ∧
    decode w ((0#1 ++ 3#2 ++ 0x0E#5 : Byte) :: lo :: hi :: rest) = .ok (.rorAbs (hi ++ lo), rest) ∧
    decode w ((0#1 ++ 0#2 ++ 0x16#5 : Byte) :: o8 :: rest) = .ok (.aslDpX o8, rest) ∧
    decode w ((0#1 ++ 1#2 ++ 0x16#5 : Byte) :: o8 :: rest) = .ok (.rolDpX o8, rest) ∧
    decode w ((0#1 ++ 2#2 ++ 0x16#5 : Byte) :: o8 :: rest) = .ok (.lsrDpX o8, rest) ∧
    decode w ((0#1 ++ 3#2 ++ 0x16#5 : Byte) :: o8 :: rest) = .ok (.rorDpX o8, rest) ∧
    decode w ((0#1 ++ 0#2 ++ 0x1E#5 : Byte) :: lo :: hi :: rest) = .ok (.aslAbsX (hi ++ lo), rest) ∧
    decode w ((0#1 ++ 1#2 ++ 0x1E#5 : Byte) :: lo :: hi :: rest) = .ok (.rolAbsX (hi ++ lo), rest) ∧
    decode w ((0#1 ++ 2#2 ++ 0x1E#5 : Byte) :: lo :: hi :: rest) = .ok (.lsrAbsX (hi ++ lo), rest) ∧
    decode w ((0#1 ++ 3#2 ++ 0x1E#5 : Byte) :: lo :: hi :: rest) = .ok (.rorAbsX (hi ++ lo), rest) ∧
    (∀ b : Byte, b.getLsbD 7 = true ∨ b.extractLsb' 0 5 ∉ [0x0A#5, 0x06#5, 0x0E#5, 0x16#5, 0x1E#5] → decodeShift b = none) ∧
    ∀ b : Byte, (decodeShift b).isSome = true ↔ b ∈
      [0x0A, 0x06, 0x0E, 0x16, 0x1E, 0x2A, 0x26, 0x2E, 0x36, 0x3E, 0x4A, 0x46, 0x4E, 0x56, 0x5E, 0x6A, 0x66, 0x6E, 0x76,
        0x7E]

/-- Of the five family decoders at most one answers for any byte, and a byte is decoded if and only if one of them does,
so the order they are tried in does not matter. (30_encoding.md section 3 (decoding by family);
48_opcode_protocol.md section 2 (the dispatcher).) -/
def Obligations.OpcodeFamiliesAreDisjoint : Prop :=
  ∀ b : Byte,
    ([(decodeLogical b).isSome, (decodeBitTest b).isSome, (decodeShift b).isSome, (decodeIncDec b).isSome,
      (decodeStatus b).isSome].count true) = if (decodeOpcode b).isSome then 1 else 0

/-- Words written out from the opcode map, among them those of scenarios S1 to S3: one or more of each family, with
8-bit and 16-bit immediates. The status words rest on the opcode bytes of log 10. (30_encoding.md sections 1 to 3;
95_test_vectors.md part 1 (scenarios S1 to S6); 47_status_ops.md section 1 (opcode bytes, general knowledge; log
10).) -/
def Obligations.SampleWordsDecode : Prop :=
  decode .bit8 [0x09, 0xF0, 0xEA] = .ok (.oraImm 0x00F0, [0xEA]) ∧
  decode .bit16 [0x09, 0x34, 0x12, 0xEA] = .ok (.oraImm 0x1234, [0xEA]) ∧
  decode .bit8 [0x2D, 0x00, 0x10] = .ok (.andAbs 0x1000, []) ∧
  decode .bit8 [0x1F, 0x56, 0x34, 0x12] = .ok (.oraLongX 0x123456, []) ∧
  decode .bit16 [0x3C, 0xFF, 0x20] = .ok (.bitAbsX 0x20FF, []) ∧
  decode .bit8 [0x0C, 0x00, 0x20] = .ok (.tsbAbs 0x2000, []) ∧
  decode .bit8 [0x06, 0x05] = .ok (.aslDp 0x05, []) ∧
  decode .bit8 [0xDE, 0x01, 0x80] = .ok (.decAbsX 0x8001, []) ∧
  decode .bit8 [0xC8] = .ok (.iny, []) ∧
  decode .bit16 [0xC2, 0x30] = .ok (.rep 0x30, []) ∧
  decode .bit8 [0xFB, 0x00] = .ok (.xce, [0x00]) ∧
  decode .bit8 [0x0F, 0x00, 0x10] = .error .truncated ∧
  decode .bit8 [0x00, 0x00] = .error (.notClaimed 0x00)

/-- REP and SEP take 2 bytes, the other processor-status operations 1, every other instruction 1 plus its mode's operand
bytes: 1 for register modes, 2 for direct-page and stack-relative based modes, 3 for Absolute(data) based modes, 4
for Absolute(long) based modes, and 2 or 3 for the three immediates as AccW is bit8 or bit16. The size reads nothing
else of the state and lies in 1..4. (R350.) -/
def Obligations.ByteSizeOfEveryInstruction : Prop :=
  ∀ (s : State) (imm o16 : Word) (o8 : Byte) (o24 : Addr),
    (∀ i ∈ [Instr.rep o8, .sep o8], byteSize i s = 2) ∧
    (∀ i ∈ [Instr.clc, .sec, .cld, .sed, .sei, .cli, .clv, .nop, .xba, .xce], byteSize i s = 1) ∧
    (∀ i ∈ [Instr.aslA, .rolA, .lsrA, .rorA, .incA, .inx, .iny, .decA, .dex, .dey], byteSize i s = 1) ∧
    (∀ i ∈ [Instr.oraDp o8, .oraDpInd o8, .oraDpIndLong o8, .oraDpX o8, .oraDpXInd o8, .oraDpIndY o8,
      .oraDpIndLongY o8, .oraSr o8, .oraSrIndY o8, .andDp o8, .andDpInd o8, .andDpIndLong o8,
      .andDpX o8, .andDpXInd o8, .andDpIndY o8, .andDpIndLongY o8, .andSr o8, .andSrIndY o8, .bitDp o8,
      .bitDpX o8, .trbDp o8, .tsbDp o8, .aslDp o8, .aslDpX o8, .rolDp o8, .rolDpX o8, .lsrDp o8,
      .lsrDpX o8, .rorDp o8, .rorDpX o8, .incDp o8, .incDpX o8, .decDp o8, .decDpX o8],
      byteSize i s = 2) ∧
    (∀ i ∈ [Instr.oraAbs o16, .oraAbsX o16, .oraAbsY o16, .andAbs o16, .andAbsX o16, .andAbsY o16, .bitAbs o16,
      .bitAbsX o16, .trbAbs o16, .tsbAbs o16, .aslAbs o16, .aslAbsX o16, .rolAbs o16, .rolAbsX o16,
      .lsrAbs o16, .lsrAbsX o16, .rorAbs o16, .rorAbsX o16, .incAbs o16, .incAbsX o16, .decAbs o16,
      .decAbsX o16],
      byteSize i s = 3) ∧
    (∀ i ∈ [Instr.oraLong o24, .oraLongX o24, .andLong o24, .andLongX o24], byteSize i s = 4) ∧
    (∀ i ∈ [Instr.oraImm imm, .andImm imm, .bitImm imm], byteSize i s = match accW s with | .bit8 => 2 | .bit16 => 3) ∧
    (∀ i mn m o mods pre st, instanceOf i = .addressed mn m o mods pre st → byteSize i s = 1 + m.byteSize (accW s)) ∧
    (∀ i t, accW s = accW t → byteSize i s = byteSize i t) ∧
    ∀ i, 1 ≤ byteSize i s ∧ byteSize i s ≤ 4

/-- If one instruction has different sizes in two states, it is ORA, AND or BIT immediate and one state observes an
8-bit, the other a 16-bit accumulator; REP, SEP and XCE, which change that width, have the same size before and
after their own execution. (30_encoding.md section 2 (mode-dependent length); 48_opcode_protocol.md section 1.) -/
def Obligations.LengthFollowsTheStateOnlyForImmediates : Prop :=
  (∀ (i : Instr) (s t : State), byteSize i s ≠ byteSize i t →
      (∃ imm, i = .oraImm imm ∨ i = .andImm imm ∨ i = .bitImm imm) ∧
        (accW s = .bit8 ∧ accW t = .bit16 ∨ accW s = .bit16 ∧ accW t = .bit8)) ∧
    ∀ (i : Instr) (s t : State), exec i s = .next t → byteSize i t = byteSize i s

/-- Reading 1, 2 or 3 bytes in range gives the sum of memory[a+i] * 256^i, unsigned; otherwise the outcome is
MemoryBounds of the first address of the access at or past MEM_SIZE; the value is the same in any state whose
MEM_SIZE and bytes read are the same. (R63.) -/
def Obligations.MemReadIsLittleEndian : Prop :=
  ∀ (s : State) (a : Nat),
    (a + 1 ≤ s.config.memSize → memRead s a 1 = .ok (s.memory.read a).toNat) ∧
    (a + 2 ≤ s.config.memSize →
      memRead s a 2 = .ok ((s.memory.read a).toNat + 2 ^ 8 * (s.memory.read (a + 1)).toNat)) ∧
    (a + 3 ≤ s.config.memSize →
      memRead s a 3 = .ok ((s.memory.read a).toNat + 2 ^ 8 * (s.memory.read (a + 1)).toNat +
        2 ^ 16 * (s.memory.read (a + 2)).toNat)) ∧
    ∀ n ∈ [1, 2, 3],
      (∀ k, k < n → s.config.memSize ≤ a + k → (∀ j, j < k → a + j < s.config.memSize) →
        memRead s a n = .error (.memoryBounds (a + k))) ∧
      ∀ t : State, t.config.memSize = s.config.memSize →
        (∀ k, k < n → t.memory.read (a + k) = s.memory.read (a + k)) → memRead t a n = memRead s a n

/-- Whenever the write is in range, MemWrite(a, 2, v) then MemRead(a, 2) gives v & 0xFFFF and MemWrite(a, 3, v) then
MemRead(a, 3) gives v & 0xFFFFFF. (R65.) -/
def Obligations.MemWriteThenReadGivesTheValue : Prop :=
  ∀ (s : State) (a v : Nat),
    (a + 2 ≤ s.config.memSize → ∃ t, memWrite s a 2 v = .ok t ∧ memRead t a 2 = .ok (v &&& 0xFFFF)) ∧
    (a + 3 ≤ s.config.memSize → ∃ t, memWrite s a 3 v = .ok t ∧ memRead t a 3 = .ok (v &&& 0xFFFFFF))

/-- In range, a write of n bytes puts byte i of the value at a+i, leaves every other byte and every other field as it
was, and keeps the memory in canonical form; out of range it is MemoryBounds of the lowest missing byte and no state
results. (20_memory.md sections 3 and 4 (the checked write is decision D7); log 5.) -/
def Obligations.MemWriteReplacesExactlyItsBytes : Prop :=
  ∀ (s : State) (a n v : Nat),
    (a + n ≤ s.config.memSize → ∃ m, memWrite s a n v = .ok { s with memory := m } ∧ (s.memory.Wf → m.Wf) ∧
      ∀ b, m.read b = if a ≤ b ∧ b < a + n then BitVec.ofNat 8 (v / 2 ^ (8 * (b - a))) else s.memory.read b) ∧
    (s.config.memSize < a + n → memWrite s a n v = .error (.memoryBounds (max a s.config.memSize)))

/-- A width-aware read of acc, x or y gives stored mod 256 when the width is bit8 or the mode is emulation, otherwise
the stored 16 bits; the result is zero-extended, the mask of the observed width applied to the stored value. (R32.) -/
def Obligations.RegisterReadsAreMasked : Prop :=
  ∀ s : State,
    rdAcc s = s.acc &&& (match accW s with | .bit8 => 0x00FF | .bit16 => 0xFFFF) ∧
    rdX s = s.x &&& (match idxW s with | .bit8 => 0x00FF | .bit16 => 0xFFFF) ∧
    rdY s = s.y &&& (match idxW s with | .bit8 => 0x00FF | .bit16 => 0xFFFF) ∧
    (s.emuMode = .emulation ∨ s.accSize = .bit8 → (rdAcc s).toNat = s.acc.toNat % 0x100) ∧
    (s.emuMode = .native → s.accSize = .bit16 → rdAcc s = s.acc) ∧
    (s.emuMode = .emulation ∨ s.indexSize = .bit8 →
      (rdX s).toNat = s.x.toNat % 0x100 ∧ (rdY s).toNat = s.y.toNat % 0x100) ∧
    (s.emuMode = .native → s.indexSize = .bit16 → rdX s = s.x ∧ rdY s = s.y)

/-- In emulation mode a write of v to acc, x or y reads back as v & 0xFF; in native mode with acc_size = bit16 a write
of v to acc reads back as v; EffPC, the bank byte over pc, is below 0x1000000. (R40.) -/
def Obligations.ReadAfterRegisterWrite : Prop :=
  ∀ (s : State) (v : Word),
    (s.emuMode = .emulation →
      rdAcc (wrAcc s v) = v &&& 0xFF ∧ rdX (wrX s v) = v &&& 0xFF ∧ rdY (wrY s v) = v &&& 0xFF) ∧
    (s.emuMode = .native → s.accSize = .bit16 → rdAcc (wrAcc s v) = v &&& 0xFFFF) ∧
    (effPC s).toNat = s.programBank.toNat * 0x10000 + s.pc.toNat ∧ (effPC s).toNat < 0x1000000

/-- WrAcc, WrX and WrY write all 16 bits at bit16; at bit8 they write the low byte and keep the high byte under
keep_high or clear it under replace. Nothing else of the state changes. NARROW_WRITE is the spec's open parameter;
the statement holds for both values. (10_state.md section 5 (NARROW_WRITE is decision D2); log 2.) -/
def Obligations.NarrowWritesFollowTheParameter : Prop :=
  ∀ (s : State) (v : Word),
    (∃ a, wrAcc s v = { s with acc := a } ∧
      (accW s = .bit16 → a = v) ∧
      (accW s = .bit8 → a.extractLsb' 0 8 = v.extractLsb' 0 8 ∧
        (s.config.narrowWrite = .keepHigh → a.extractLsb' 8 8 = s.acc.extractLsb' 8 8) ∧
        (s.config.narrowWrite = .replace → a.extractLsb' 8 8 = 0))) ∧
    (∃ a, wrX s v = { s with x := a } ∧
      (idxW s = .bit16 → a = v) ∧
      (idxW s = .bit8 → a.extractLsb' 0 8 = v.extractLsb' 0 8 ∧
        (s.config.narrowWrite = .keepHigh → a.extractLsb' 8 8 = s.x.extractLsb' 8 8) ∧
        (s.config.narrowWrite = .replace → a.extractLsb' 8 8 = 0))) ∧
    ∃ a, wrY s v = { s with y := a } ∧
      (idxW s = .bit16 → a = v) ∧
      (idxW s = .bit8 → a.extractLsb' 0 8 = v.extractLsb' 0 8 ∧
        (s.config.narrowWrite = .keepHigh → a.extractLsb' 8 8 = s.y.extractLsb' 8 8) ∧
        (s.config.narrowWrite = .replace → a.extractLsb' 8 8 = 0))

/-- In emulation mode Break is true exactly when the stored index_size is bit8, and SetBreak(b) stores bit8 or bit16,
changes nothing else and is read back as b while the observed index width stays bit8; in native mode neither is
defined. (10_state.md section 6 (the break alias; decision D10); log 9.) -/
def Obligations.BreakAliasesTheStoredIndexSize : Prop :=
  ∀ s : State,
    (s.emuMode = .emulation →
      breakFlag s = some (decide (s.indexSize = .bit8)) ∧
      ∀ b, ∃ t, setBreak s b = some t ∧ t = { s with indexSize := if b then .bit8 else .bit16 } ∧
        breakFlag t = some b ∧ idxW t = .bit8) ∧
    (s.emuMode = .native → breakFlag s = none ∧ ∀ b, setBreak s b = none)

/-- For any width and value: negative iff value & sign_bit is not 0, overflow iff value & overflow_bit is not 0, zero
iff the unmasked value is 0, carry is false; a value with bits above the width is not zero even if its low bits are.
(R121; R123.) -/
def Obligations.FlagsOfAValue : Prop :=
  ∀ (v : Word) (w : Width),
    ((checkFlagsForValue v w).negative = true ↔ v &&& (match w with | .bit8 => 0x0080 | .bit16 => 0x8000) ≠ 0) ∧
    ((checkFlagsForValue v w).overflow = true ↔ v &&& (match w with | .bit8 => 0x0040 | .bit16 => 0x4000) ≠ 0) ∧
    ((checkFlagsForValue v w).zero = true ↔ v = 0) ∧
    (checkFlagsForValue v w).carry = false ∧
    (checkFlagsForValue 0x0100 .bit8).zero = false

/-- Left: (2 * value) mod 2^width, with the sign bit of the width out; right: value / 2, with bit 0 out; for every
16-bit value, bits above the width included. The source's six examples and the rule's two. (R124; R125.) -/
def Obligations.RotateMovesOnePlace : Prop :=
  (∀ (v : Word) (w : Width),
      (rotate v w .left).1.toNat = 2 * v.toNat % (match w with | .bit8 => 0x100 | .bit16 => 0x10000) ∧
      (rotate v w .left).2 = (match w with | .bit8 => v.getLsbD 7 | .bit16 => v.getLsbD 15) ∧
      (rotate v w .right).1.toNat = v.toNat / 2 ∧
      (rotate v w .right).2 = v.getLsbD 0) ∧
    rotate 0x80 .bit8 .left = (0, true) ∧ rotate 0x80 .bit16 .left = (0x0100, false) ∧
    rotate 0x7FFF .bit16 .left = (0xFFFE, false) ∧ rotate 0xFFFF .bit16 .left = (0xFFFE, true) ∧
    rotate 0xFF .bit8 .right = (0x7F, true) ∧ rotate 0x8000 .bit16 .right = (0x4000, false) ∧
    rotate 0x180 .bit8 .left = (0x00, true) ∧ rotate 0x100 .bit8 .right = (0x80, false)

/-- rotate(0, w, d) = (0, false) for both widths and directions; for v within the width, if rotate left gives (n, b) and
rotate right of n gives m, then m with the sign bit set where b held is v. (R126.) -/
def Obligations.RotateLeftThenRightRestores : Prop :=
  (∀ (w : Width) (d : Direction), rotate 0 w d = (0, false)) ∧
    ∀ (v : Word) (w : Width), v.toNat < 2 ^ (8 * w.nbytes) →
      (rotate (rotate v w .left).1 w .right).1 ||| (if (rotate v w .left).2 then signBit w else 0) = v

/-- absolute_offset(bank, a) is bank * 65536 + a; indexed adds the width-masked x or y modulo 2^24, the register value
being below 0x100 or 0x10000 as IdxW is bit8 or bit16; it leaves bank 0 from a direct-page base: D = 0xFFF0, operand
0x0F, x = 0x01 gives 0x010000. (R140; R141.) -/
def Obligations.BankAndIndexArithmetic : Prop :=
  (∀ (bank : Byte) (a : Word), (absoluteOffset bank a).toNat = bank.toNat * 0x10000 + a.toNat) ∧
    (∀ (e : Addr) (s : State),
      (indexed e s .x).toNat = (e.toNat + (rdX s).toNat) % 0x1000000 ∧
      (indexed e s .y).toNat = (e.toNat + (rdY s).toNat) % 0x1000000 ∧
      (rdX s).toNat < (match idxW s with | .bit8 => 0x100 | .bit16 => 0x10000) ∧
      (rdY s).toNat < (match idxW s with | .bit8 => 0x100 | .bit16 => 0x10000)) ∧
    ∀ s : State, s.directPage = 0xFFF0 → rdX s = 0x01 →
      (AddrMode.indexed .directPage .x).address 0x0F s = .ok 0x010000

/-- Both modes have one operand byte; the address is (operand + D) mod 2^16 or (S + operand) mod 2^16, in bank 0, in
both operating modes; fetch and store move the accumulator's width there; storing leaves stack_ptr as it was; the
text is $ and two hex digits, with ,S for Stack. D = 0xFFF0 with operand 0x20 gives 0x000010, and D = 0x0010 with
0x05 gives 0x000015. (R149; R150.) -/
def Obligations.DirectPageAndStackModes : Prop :=
  ∀ (s : State) (o8 : Byte) (v : Word),
    AddrMode.directPage.byteSize (accW s) = 1 ∧ AddrMode.stack.byteSize (accW s) = 1 ∧
    AddrMode.directPage.address (zext 24 o8) s = .ok (BitVec.ofNat 24 ((o8.toNat + s.directPage.toNat) % 0x10000)) ∧
    AddrMode.stack.address (zext 24 o8) s = .ok (BitVec.ofNat 24 ((s.stackPtr.toNat + o8.toNat) % 0x10000)) ∧
    AddrMode.directPage.fetch (zext 24 o8) s =
      (memRead s ((o8.toNat + s.directPage.toNat) % 0x10000) (accW s).nbytes).map (BitVec.ofNat 16) ∧
    AddrMode.stack.fetch (zext 24 o8) s =
      (memRead s ((s.stackPtr.toNat + o8.toNat) % 0x10000) (accW s).nbytes).map (BitVec.ofNat 16) ∧
    AddrMode.directPage.store (zext 24 o8) v s =
      memWrite s ((o8.toNat + s.directPage.toNat) % 0x10000) (accW s).nbytes v.toNat ∧
    AddrMode.stack.store (zext 24 o8) v s =
      memWrite s ((s.stackPtr.toNat + o8.toNat) % 0x10000) (accW s).nbytes v.toNat ∧
    (∀ t, AddrMode.stack.store (zext 24 o8) v s = .ok t → t.stackPtr = s.stackPtr) ∧
    AddrMode.directPage.text (accW s) (zext 24 o8) = "$" ++ String.ofList (hexDigits 2 o8.toNat) ∧
    AddrMode.stack.text (accW s) (zext 24 o8) = "$" ++ String.ofList (hexDigits 2 o8.toNat) ++ ",S" ∧
    (s.directPage = 0xFFF0 → AddrMode.directPage.address 0x20 s = .ok 0x000010) ∧
    (s.directPage = 0x0010 → AddrMode.directPage.address 0x05 s = .ok 0x000015)

/-- The address of every memory mode the 85 opcodes use, and of the two program-bank modes they do not, is the straight-
line computation of the spec, pointers read low byte first from the bytes of memory. Where a pointer is read, its
bytes are assumed in range. (41_addressing_modes.md sections 3 and 5 (the fourteen composite modes);
41_addressing_modes.md rules R147, R153 to R155.) -/
def Obligations.EffectiveAddressOfEveryMode : Prop :=
  ∀ (s : State) (o16 : Word) (o8 : Byte) (o24 : Addr),
    (AddrMode.absolute .data).address (zext 24 o16) s = .ok (BitVec.ofNat 24 (inBank s.dataBank o16.toNat)) ∧
    (AddrMode.absolute .program).address (zext 24 o16) s = .ok (BitVec.ofNat 24 (inBank s.programBank o16.toNat)) ∧
    (AddrMode.absolute .long).address (zext 24 o24) s = .ok (BitVec.ofNat 24 (o24.toNat)) ∧
    (AddrMode.indexed (.absolute .data) .x).address (zext 24 o16) s = .ok (BitVec.ofNat 24 (plusX s (inBank s.dataBank o16.toNat))) ∧
    (AddrMode.indexed (.absolute .data) .y).address (zext 24 o16) s = .ok (BitVec.ofNat 24 (plusY s (inBank s.dataBank o16.toNat))) ∧
    (AddrMode.indexed (.absolute .long) .x).address (zext 24 o24) s = .ok (BitVec.ofNat 24 (plusX s o24.toNat)) ∧
    AddrMode.directPage.address (zext 24 o8) s = .ok (BitVec.ofNat 24 (directAddr s o8)) ∧
    (AddrMode.indexed .directPage .x).address (zext 24 o8) s = .ok (BitVec.ofNat 24 (plusX s (directAddr s o8))) ∧
    AddrMode.stack.address (zext 24 o8) s = .ok (BitVec.ofNat 24 (stackAddr s o8)) ∧
    (Present s (directAddr s o8) 2 →
      (AddrMode.indirect .directPage .data).address (zext 24 o8) s = .ok (BitVec.ofNat 24 (inBank s.dataBank (word2 s (directAddr s o8))))) ∧
    (Present s (directAddr s o8) 2 →
      (AddrMode.indirect .directPage .program).address (zext 24 o8) s = .ok (BitVec.ofNat 24 (inBank s.programBank (word2 s (directAddr s o8))))) ∧
    (Present s (directAddr s o8) 3 →
      (AddrMode.indirect .directPage .long).address (zext 24 o8) s = .ok (BitVec.ofNat 24 (word3 s (directAddr s o8)))) ∧
    (Present s (plusX s (directAddr s o8)) 2 →
      (AddrMode.indirect (.indexed .directPage .x) .data).address (zext 24 o8) s = .ok (BitVec.ofNat 24 (inBank s.dataBank (word2 s (plusX s (directAddr s o8)))))) ∧
    (Present s (directAddr s o8) 2 →
      (AddrMode.indexed (.indirect .directPage .data) .y).address (zext 24 o8) s = .ok (BitVec.ofNat 24 (plusY s (inBank s.dataBank (word2 s (directAddr s o8)))))) ∧
    (Present s (directAddr s o8) 3 →
      (AddrMode.indexed (.indirect .directPage .long) .y).address (zext 24 o8) s = .ok (BitVec.ofNat 24 (plusY s (word3 s (directAddr s o8))))) ∧
    (Present s (stackAddr s o8) 2 →
      (AddrMode.indexed (.indirect .stack .data) .y).address (zext 24 o8) s = .ok (BitVec.ofNat 24 (plusY s (inBank s.dataBank (word2 s (stackAddr s o8))))))

/-- The immediate forms and, where their pointer and data bytes exist, the memory forms complete: acc becomes RdAcc |
data or RdAcc & data written at the accumulator's width (its high byte as NARROW_WRITE says), neg is the result's
sign bit and zero whether it is 0; every other register, flag and byte of memory, pc included, is unchanged, and the
result lies within the width. (R201.) -/
def Obligations.OraAndResultInEveryMode : Prop :=
  ∀ (s : State) (imm o16 : Word) (o8 : Byte) (o24 : Addr),
    let after (r : Word) : State :=
      { s with
        acc := narrowWrite s.config (accW s) s.acc r
        neg := topBit (accW s) r
        zero := decide (r = 0) }
    exec (.oraImm imm) s = .next (after (rdAcc s ||| (imm &&& mask (accW s)))) ∧
    exec (.andImm imm) s = .next (after (rdAcc s &&& (imm &&& mask (accW s)))) ∧
    (∀ i ∈ [Instr.oraAbs o16, .oraLong o24, .oraDp o8, .oraDpInd o8, .oraDpIndLong o8, .oraAbsX o16,
      .oraLongX o24, .oraAbsY o16, .oraDpX o8, .oraDpXInd o8, .oraDpIndY o8, .oraDpIndLongY o8,
      .oraSr o8, .oraSrIndY o8],
      ∀ a, dataAddr s i = some a → Ready s i → exec i s = .next (after (rdAcc s ||| datumAt s a))) ∧
    (∀ i ∈ [Instr.andAbs o16, .andLong o24, .andDp o8, .andDpInd o8, .andDpIndLong o8, .andAbsX o16,
      .andLongX o24, .andAbsY o16, .andDpX o8, .andDpXInd o8, .andDpIndY o8, .andDpIndLongY o8,
      .andSr o8, .andSrIndY o8],
      ∀ a, dataAddr s i = some a → Ready s i → exec i s = .next (after (rdAcc s &&& datumAt s a))) ∧
    (∀ d : Word, d = (imm &&& mask (accW s)) ∨ (∃ a, d = datumAt s a) →
      (rdAcc s ||| d).toNat < 2 ^ (8 * (accW s).nbytes) ∧ (rdAcc s &&& d).toNat < 2 ^ (8 * (accW s).nbytes))

/-- Each of the five BIT forms, the immediate included, completes where its data bytes exist: neg is bit 7 or 15 of the
datum, overflow bit 6 or 14, zero whether RdAcc & datum is 0; accumulator, memory, carry, irq_disable, decimal_mode
and everything else are unchanged. (R241.) -/
def Obligations.BitResultInEveryMode : Prop :=
  ∀ (s : State) (imm o16 : Word) (o8 : Byte),
    let after (data : Word) : State :=
      { s with
        neg := topBit (accW s) data
        overflow := nextBit (accW s) data
        zero := decide (rdAcc s &&& data = 0) }
    exec (.bitImm imm) s = .next (after (imm &&& mask (accW s))) ∧
    ∀ i ∈ [Instr.bitAbs o16, .bitDp o8, .bitAbsX o16, .bitDpX o8], ∀ a, dataAddr s i = some a → Ready s i →
      exec i s = .next (after (datumAt s a))

/-- Where the data bytes exist, TRB abs and TRB dp complete: the bytes at the effective address become RdAcc & (~datum &
mask), every other byte of memory is unchanged, zero is whether RdAcc & datum is 0 for the values before the write,
the stored value lies within the width, and no other flag or register changes. (R242.) -/
def Obligations.TrbStoresTheAccumulatorLessTheDatum : Prop :=
  ∀ (s : State) (o16 : Word) (o8 : Byte), ∀ i ∈ [Instr.trbAbs o16, .trbDp o8], ∀ a, dataAddr s i = some a → Ready s i →
    (∃ m, exec i s = .next { s with memory := m, zero := decide (rdAcc s &&& datumAt s a = 0) } ∧
      StoredAt s m a (rdAcc s &&& (~~~datumAt s a &&& mask (accW s)))) ∧
    (rdAcc s &&& (~~~datumAt s a &&& mask (accW s))).toNat < 2 ^ (8 * (accW s).nbytes)

/-- Where the data bytes exist, TSB abs and TSB dp complete: the bytes at the effective address become RdAcc | datum,
every other byte of memory is unchanged, zero is whether RdAcc & datum is 0, and no other flag or register changes.
With acc = 0x55 and datum 0xAA at 8 bits the byte 0xFF is stored and zero is true. (R243.) -/
def Obligations.TsbStoresTheAccumulatorOrTheDatum : Prop :=
  ∀ (s : State) (o16 : Word) (o8 : Byte), ∀ i ∈ [Instr.tsbAbs o16, .tsbDp o8], ∀ a, dataAddr s i = some a → Ready s i →
    ∃ m, exec i s = .next { s with memory := m, zero := decide (rdAcc s &&& datumAt s a = 0) } ∧
      StoredAt s m a (rdAcc s ||| datumAt s a) ∧
      (accW s = .bit8 → rdAcc s = 0x55 → s.memory.read a = 0xAA →
        m.read a = 0xFF ∧ decide (rdAcc s &&& datumAt s a = 0) = true)

/-- At the accumulator's width and for the accumulator or, where its bytes exist, the memory datum: ASL and ROL give 2v
mod 2^width (ROL plus the old carry), LSR and ROR v / 2 (ROR with the old carry as its top bit); the result is
stored where the value came from, neg and zero are from it, carry is the bit shifted out, and nothing else changes,
not the stored high byte of acc save as NARROW_WRITE says. neg is false after LSR (the spec marks this derived) and
the old carry after ROR. (R261.) -/
def Obligations.ShiftResultInEveryMode : Prop :=
  ∀ (s : State) (o16 : Word) (o8 : Byte),
    (∀ p ∈ [(ShiftOp.asl, Instr.aslA), (.rol, .rolA), (.lsr, .lsrA), (.ror, .rorA)],
      exec p.2 s = .next { s with
        acc := narrowWrite s.config (accW s) s.acc (shifted p.1 (accW s) (rdAcc s) s.carry)
        neg := topBit (accW s) (shifted p.1 (accW s) (rdAcc s) s.carry)
        zero := decide (shifted p.1 (accW s) (rdAcc s) s.carry = 0)
        carry := shiftedOut p.1 (accW s) (rdAcc s) }) ∧
    (∀ p ∈ [(ShiftOp.asl, Instr.aslDp o8), (.asl, .aslAbs o16), (.asl, .aslDpX o8), (.asl, .aslAbsX o16),
      (.rol, .rolDp o8), (.rol, .rolAbs o16), (.rol, .rolDpX o8), (.rol, .rolAbsX o16),
      (.lsr, .lsrDp o8), (.lsr, .lsrAbs o16), (.lsr, .lsrDpX o8), (.lsr, .lsrAbsX o16),
      (.ror, .rorDp o8), (.ror, .rorAbs o16), (.ror, .rorDpX o8), (.ror, .rorAbsX o16)],
      ∀ a, dataAddr s p.2 = some a → Ready s p.2 →
        ∃ m, exec p.2 s = .next { s with
          memory := m
          neg := topBit (accW s) (shifted p.1 (accW s) (datumAt s a) s.carry)
          zero := decide (shifted p.1 (accW s) (datumAt s a) s.carry = 0)
          carry := shiftedOut p.1 (accW s) (datumAt s a) } ∧
        StoredAt s m a (shifted p.1 (accW s) (datumAt s a) s.carry)) ∧
    (∀ v : Word, v.toNat < rangeOf (accW s) →
      topBit (accW s) (shifted .lsr (accW s) v s.carry) = false ∧
      topBit (accW s) (shifted .ror (accW s) v s.carry) = s.carry)

/-- INC A and, where its bytes exist, the memory datum at AccW, INX and INY at IdxW: the new value is (value + 1) mod
2^width, stored where it came from; neg and zero are from it; carry, overflow, irq_disable, decimal_mode and
everything else are unchanged. All-ones goes to 0 with zero; sign_bit - 1 goes to sign_bit with neg. (R291.) -/
def Obligations.IncResultInEveryMode : Prop :=
  ∀ (s : State) (o16 : Word) (o8 : Byte),
    let new (w : Width) (v : Word) : Word := BitVec.ofNat 16 ((v.toNat + 1) % rangeOf w)
    exec .incA s = .next { s with
      acc := narrowWrite s.config (accW s) s.acc (new (accW s) (rdAcc s))
      neg := topBit (accW s) (new (accW s) (rdAcc s))
      zero := decide (new (accW s) (rdAcc s) = 0) } ∧
    exec .inx s = .next { s with
      x := narrowWrite s.config (idxW s) s.x (new (idxW s) (rdX s))
      neg := topBit (idxW s) (new (idxW s) (rdX s))
      zero := decide (new (idxW s) (rdX s) = 0) } ∧
    exec .iny s = .next { s with
      y := narrowWrite s.config (idxW s) s.y (new (idxW s) (rdY s))
      neg := topBit (idxW s) (new (idxW s) (rdY s))
      zero := decide (new (idxW s) (rdY s) = 0) } ∧
    (∀ i ∈ [Instr.incAbs o16, .incDp o8, .incAbsX o16, .incDpX o8],
      ∀ a, dataAddr s i = some a → Ready s i →
        ∃ m, exec i s = .next { s with
          memory := m
          neg := topBit (accW s) (new (accW s) (datumAt s a))
          zero := decide (new (accW s) (datumAt s a) = 0) } ∧
        StoredAt s m a (new (accW s) (datumAt s a))) ∧
    ∀ w, new w (mask w) = 0 ∧ topBit w 0 = false ∧ new w (signBit w - 1) = signBit w ∧ topBit w (signBit w) = true

/-- DEC A and, where its bytes exist, the memory datum at AccW, DEX and DEY at IdxW: the new value is all-ones if the
value is 0, else value - 1, which is (value - 1) mod 2^width; neg and zero are from it; everything else is
unchanged. 0 goes to all-ones with neg, 1 to 0, sign_bit to sign_bit - 1 without neg. (R292.) -/
def Obligations.DecResultInEveryMode : Prop :=
  ∀ (s : State) (o16 : Word) (o8 : Byte),
    let new (w : Width) (v : Word) : Word := if v = 0 then mask w else BitVec.ofNat 16 (v.toNat - 1)
    exec .decA s = .next { s with
      acc := narrowWrite s.config (accW s) s.acc (new (accW s) (rdAcc s))
      neg := topBit (accW s) (new (accW s) (rdAcc s))
      zero := decide (new (accW s) (rdAcc s) = 0) } ∧
    exec .dex s = .next { s with
      x := narrowWrite s.config (idxW s) s.x (new (idxW s) (rdX s))
      neg := topBit (idxW s) (new (idxW s) (rdX s))
      zero := decide (new (idxW s) (rdX s) = 0) } ∧
    exec .dey s = .next { s with
      y := narrowWrite s.config (idxW s) s.y (new (idxW s) (rdY s))
      neg := topBit (idxW s) (new (idxW s) (rdY s))
      zero := decide (new (idxW s) (rdY s) = 0) } ∧
    (∀ i ∈ [Instr.decAbs o16, .decDp o8, .decAbsX o16, .decDpX o8],
      ∀ a, dataAddr s i = some a → Ready s i →
        ∃ m, exec i s = .next { s with
          memory := m
          neg := topBit (accW s) (new (accW s) (datumAt s a))
          zero := decide (new (accW s) (datumAt s a) = 0) } ∧
        StoredAt s m a (new (accW s) (datumAt s a))) ∧
    (∀ w (v : Word), v.toNat < rangeOf w → (new w v).toNat = (v.toNat + (rangeOf w - 1)) % rangeOf w) ∧
    ∀ w, new w 0 = mask w ∧ topBit w (mask w) = true ∧ new w 1 = 0 ∧ new w (signBit w) = signBit w - 1 ∧
      topBit w (signBit w - 1) = false

/-- Each of the seven completes in every state with its one flag set or cleared and all else as it was; NOP gives back
the state it was given. (47_status_ops.md sections 2 and 3.) -/
def Obligations.FlagInstructionsWriteOneFlag : Prop :=
  ∀ s : State,
    exec .clc s = .next { s with carry := false } ∧ exec .sec s = .next { s with carry := true } ∧
    exec .cld s = .next { s with decimalMode := false } ∧ exec .sed s = .next { s with decimalMode := true } ∧
    exec .sei s = .next { s with irqDisable := true } ∧ exec .cli s = .next { s with irqDisable := false } ∧
    exec .clv s = .next { s with overflow := false } ∧ exec .nop s = .next s

/-- Bits 7, 6, 3, 2, 1, 0 select neg, overflow, decimal_mode, irq_disable, zero, carry, cleared by REP and set by SEP in
both modes; bits 5 and 4 select acc_size and index_size in native mode only, bit16 for REP and bit8 for SEP; what is
not selected, and all else, keeps its value. Both complete in every state. The mask byte fetched is the byte at
EffPC + 1. That the six flag bits act in both modes is an inference the spec marks as its own. (47_status_ops.md
section 1 (the mask byte); 47_status_ops.md section 4 (REP and SEP; in R333 the six flag bits acting in both modes
is the spec's own inference, 91_not_in_source.md N15).) -/
def Obligations.RepAndSepFollowTheMaskByte : Prop :=
  ∀ (s : State) (m : Byte),
    exec (.rep m) s = .next { s with
      neg := if m.getLsbD 7 then false else s.neg
      overflow := if m.getLsbD 6 then false else s.overflow
      accSize := if s.emuMode = .native ∧ m.getLsbD 5 then .bit16 else s.accSize
      indexSize := if s.emuMode = .native ∧ m.getLsbD 4 then .bit16 else s.indexSize
      decimalMode := if m.getLsbD 3 then false else s.decimalMode
      irqDisable := if m.getLsbD 2 then false else s.irqDisable
      zero := if m.getLsbD 1 then false else s.zero
      carry := if m.getLsbD 0 then false else s.carry } ∧
    exec (.sep m) s = .next { s with
      neg := if m.getLsbD 7 then true else s.neg
      overflow := if m.getLsbD 6 then true else s.overflow
      accSize := if s.emuMode = .native ∧ m.getLsbD 5 then .bit8 else s.accSize
      indexSize := if s.emuMode = .native ∧ m.getLsbD 4 then .bit8 else s.indexSize
      decimalMode := if m.getLsbD 3 then true else s.decimalMode
      irqDisable := if m.getLsbD 2 then true else s.irqDisable
      zero := if m.getLsbD 1 then true else s.zero
      carry := if m.getLsbD 0 then true else s.carry } ∧
    (fetchInstr s = .next (.rep m) ∨ fetchInstr s = .next (.sep m) → s.memory.read ((effPC s).toNat + 1) = m)

/-- XBA completes in every state: the new low byte is the old high byte and the other way round, whatever the width,
mode and NARROW_WRITE; neg is bit 15 of the result and zero whether all 16 bits are 0; nothing else changes; a
second XBA restores acc. (47_status_ops.md section 3 (XBA); 10_state.md sections 2 and 7.) -/
def Obligations.XbaSwapsTheAccumulatorHalves : Prop :=
  ∀ s : State,
    exec .xba s = .next { s with
      acc := (a8 s : Byte) ++ (b8 s : Byte)
      neg := s.acc.getLsbD 7
      zero := decide (s.acc = 0) } ∧
    ∀ t u, exec .xba s = .next t → exec .xba t = .next u → u.acc = s.acc

/-- XCE completes in every state: with e = 1 in emulation mode and 0 in native mode, carry and e are exchanged; acc_size
and index_size become bit8 exactly when emulation turns to native and are left alone otherwise; nothing else
changes, stack_ptr and the hidden high bytes included; two XCE restore the pair (carry, emu_mode). (47_status_ops.md
section 3 (XCE); 10_state.md section 7.) -/
def Obligations.XceExchangesCarryAndMode : Prop :=
  ∀ s : State,
    exec .xce s = .next { s with
      carry := decide (s.emuMode = .emulation)
      emuMode := if s.carry then .emulation else .native
      accSize := if s.emuMode = .emulation ∧ s.carry = false then .bit8 else s.accSize
      indexSize := if s.emuMode = .emulation ∧ s.carry = false then .bit8 else s.indexSize } ∧
    ∀ t u, exec .xce s = .next t → exec .xce t = .next u → u.carry = s.carry ∧ u.emuMode = s.emuMode

/-- REP and SEP are 2 bytes, the others 1; CLC, SEC, CLD, SED, SEI, CLI, CLV, NOP and XCE cost 2 cycles, REP, SEP and
XBA 3, in every state; the text is the mnemonic alone, or for REP and SEP the mnemonic, a space, #$ and the mask
byte as two upper-case hex digits. (R321.) -/
def Obligations.StatusSizesCyclesAndText : Prop :=
  ∀ (s : State) (m : Byte),
    (∀ i ∈ [Instr.clc, .sec, .cld, .sed, .sei, .cli, .clv, .nop, .xba, .xce], byteSize i s = 1) ∧
    (∀ i ∈ [Instr.rep m, .sep m], byteSize i s = 2) ∧
    (∀ i ∈ [Instr.clc, .sec, .cld, .sed, .sei, .cli, .clv, .nop, .xce], totalCycles i s = 2) ∧
    (∀ i ∈ [Instr.rep m, .sep m, .xba], totalCycles i s = 3) ∧
    disasm .clc s = "CLC" ∧ disasm .sec s = "SEC" ∧ disasm .cld s = "CLD" ∧ disasm .sed s = "SED" ∧
    disasm .sei s = "SEI" ∧ disasm .cli s = "CLI" ∧ disasm .clv s = "CLV" ∧ disasm .nop s = "NOP" ∧ disasm .xba s = "XBA" ∧ disasm .xce s = "XCE" ∧
    disasm (.rep m) s = "REP #$" ++ String.ofList [hexDigit (m.toNat / 16), hexDigit (m.toNat % 16)] ∧
    disasm (.sep m) s = "SEP #$" ++ String.ofList [hexDigit (m.toNat / 16), hexDigit (m.toNat % 16)] ∧
    (List.range 16).map hexDigit = "0123456789ABCDEF".toList

/-- In every mode and at both widths, where the bytes exist: ROL and then the ROR of the same form both complete, and
afterwards the observed accumulator, every byte of memory and the carry are as before, and so is every field but
neg, zero and the hidden high byte of acc. (45_shift_rotate.md section 1 (execute); 40_alu_helpers.md section 3.) -/
def Obligations.RolThenRorRestores : Prop :=
  ∀ (s : State) (o16 : Word) (o8 : Byte), ∀ p ∈ [(Instr.rolA, Instr.rorA), (.rolDp o8, .rorDp o8), (.rolAbs o16, .rorAbs o16), (.rolDpX o8, .rorDpX o8),
      (.rolAbsX o16, .rorAbsX o16)], Ready s p.1 →
    ∃ t u, exec p.1 s = .next t ∧ exec p.2 t = .next u ∧
      u.carry = s.carry ∧ rdAcc u = rdAcc s ∧ (∀ b, u.memory.read b = s.memory.read b) ∧
      u = { s with acc := u.acc, memory := u.memory, neg := u.neg, zero := u.zero }

/-- For every instruction and state: if the pointer and data bytes are all below MEM_SIZE, exec answers a next state; if
a pointer byte is not, it is the fault MemoryBounds of the lowest missing pointer byte; if the pointer is there and
a datum byte is not, MemoryBounds of the lowest missing datum byte. It answers nothing else. (60_exceptions.md
section 1 (outcomes; decisions D6, D7); 20_memory.md section 3; 41_addressing_modes.md section 5.) -/
def Obligations.ExecuteCompletesExactlyWhenItsBytesExist : Prop :=
  ∀ (i : Instr) (s : State),
    (Ready s i → ∃ t, exec i s = .next t) ∧
    (∀ p ∈ pointerOf s i, ¬Present s p.1 p.2 → exec i s = .fault (.memoryBounds (max p.1 s.config.memSize))) ∧
    ((∀ p ∈ pointerOf s i, Present s p.1 p.2) → ∀ a ∈ dataAddr s i, ¬Present s a (accW s).nbytes →
      exec i s = .fault (.memoryBounds (max a s.config.memSize)))

/-- When any of the 85 instructions completes, pc, program_bank, data_bank, direct_page, stack_ptr and the parameters
MEM_SIZE and NARROW_WRITE are as before. (48_opcode_protocol.md section 1 (Execute); 10_state.md sections 2 and 3;
log 1.) -/
def Obligations.ExecuteNeverWritesPcBanksDirectPageOrStack : Prop :=
  ∀ (i : Instr) (s t : State), exec i s = .next t →
    t.pc = s.pc ∧ t.programBank = s.programBank ∧ t.dataBank = s.dataBank ∧ t.directPage = s.directPage ∧
      t.stackPtr = s.stackPtr ∧ t.config = s.config

/-- When an instruction completes and a flag differs from before, the instruction is one the writer table names for that
flag; REP and SEP count only if their mask selects it. (10_state.md section 6 (the writer table).) -/
def Obligations.OnlyTheListedInstructionsWriteEachFlag : Prop :=
  ∀ (i : Instr) (s t : State), exec i s = .next t →
    (t.neg ≠ s.neg → mnemonicOf i ∈ ["ORA", "AND", "ASL", "ROL", "LSR", "ROR", "INC", "INX", "INY", "DEC", "DEX", "DEY", "BIT",
      "XBA"] ∨ (∃ m : Byte, m.getLsbD 7 = true ∧ (i = .rep m ∨ i = .sep m))) ∧
    (t.overflow ≠ s.overflow → mnemonicOf i ∈ ["BIT", "CLV"] ∨ (∃ m : Byte, m.getLsbD 6 = true ∧ (i = .rep m ∨ i = .sep m))) ∧
    (t.zero ≠ s.zero → mnemonicOf i ∈ ["ORA", "AND", "ASL", "ROL", "LSR", "ROR", "INC", "INX", "INY", "DEC", "DEX", "DEY", "BIT",
      "TRB", "TSB", "XBA"] ∨ (∃ m : Byte, m.getLsbD 1 = true ∧ (i = .rep m ∨ i = .sep m))) ∧
    (t.carry ≠ s.carry → mnemonicOf i ∈ ["ASL", "ROL", "LSR", "ROR", "CLC", "SEC", "XCE"] ∨ (∃ m : Byte, m.getLsbD 0 = true ∧ (i = .rep m ∨ i = .sep m))) ∧
    (t.irqDisable ≠ s.irqDisable → mnemonicOf i ∈ ["SEI", "CLI"] ∨ (∃ m : Byte, m.getLsbD 2 = true ∧ (i = .rep m ∨ i = .sep m))) ∧
    (t.decimalMode ≠ s.decimalMode → mnemonicOf i ∈ ["SED", "CLD"] ∨ (∃ m : Byte, m.getLsbD 3 = true ∧ (i = .rep m ∨ i = .sep m)))

/-- acc changes only under ORA, AND, XBA and the accumulator forms of ASL, ROL, LSR, ROR, INC, DEC; x only under INX and
DEX; y only under INY and DEY. (10_state.md section 2 (general registers).) -/
def Obligations.OnlyTheListedInstructionsWriteAccXY : Prop :=
  ∀ (i : Instr) (s t : State), exec i s = .next t →
    (t.acc ≠ s.acc → mnemonicOf i ∈ ["ORA", "AND", "XBA"] ∨ i ∈ [.aslA, .rolA, .lsrA, .rorA, .incA, .decA]) ∧
    (t.x ≠ s.x → i ∈ [.inx, .dex]) ∧
    (t.y ≠ s.y → i ∈ [.iny, .dey])

/-- emu_mode changes only under XCE with carry and emulation bit different. acc_size changes only under REP or SEP with
mask bit 0x20 in native mode, or under XCE from emulation to native, which makes it bit8; index_size likewise with
bit 0x10. (10_state.md section 4; 60_exceptions.md section 3.) -/
def Obligations.OnlyXceRepSepChangeModeAndWidths : Prop :=
  ∀ (i : Instr) (s t : State), exec i s = .next t →
    (t.emuMode ≠ s.emuMode → i = .xce ∧ (s.carry = true ↔ s.emuMode = .native)) ∧
    (t.accSize ≠ s.accSize →
      (∃ m : Byte, m.getLsbD 5 = true ∧ s.emuMode = .native ∧
        (i = .rep m ∧ t.accSize = .bit16 ∨ i = .sep m ∧ t.accSize = .bit8)) ∨
      i = .xce ∧ s.emuMode = .emulation ∧ t.emuMode = .native ∧ t.accSize = .bit8) ∧
    (t.indexSize ≠ s.indexSize →
      (∃ m : Byte, m.getLsbD 4 = true ∧ s.emuMode = .native ∧
        (i = .rep m ∧ t.indexSize = .bit16 ∨ i = .sep m ∧ t.indexSize = .bit8)) ∨
      i = .xce ∧ s.emuMode = .emulation ∧ t.emuMode = .native ∧ t.indexSize = .bit8)

/-- When an instruction completes and a byte of memory reads differently, the instruction is one of those the rule
lists, it has a memory operand at the effective address a, and the byte is one of the accumulator-width bytes from
a; a write replaces just the targeted bytes and yields a new memory, nothing else of memory. (R39.) -/
def Obligations.MemoryChangesOnlyAtTheDataAddress : Prop :=
  ∀ (i : Instr) (s t : State), exec i s = .next t →
    (∀ b, t.memory.read b ≠ s.memory.read b →
      mnemonicOf i ∈ ["TRB", "TSB", "ASL", "ROL", "LSR", "ROR", "INC", "DEC"] ∧
      ∃ a, dataAddr s i = some a ∧ a ≤ b ∧ b < a + (accW s).nbytes) ∧
    (mnemonicOf i ∉ ["TRB", "TSB", "ASL", "ROL", "LSR", "ROR", "INC", "DEC"] ∨ dataAddr s i = none →
      t.memory = s.memory)

/-- Take two states that agree in everything but the stored high bytes of registers observed at 8 bits. Under every
instruction but XBA and REP both stop with the same fault, or both complete in states that again agree in everything
but hidden high bytes. (10_state.md section 7 (state observable only indirectly); 10_state.md section 5.) -/
def Obligations.HiddenHighBytesDoNotLeak : Prop :=
  ∀ (i : Instr) (s s' : State), SameVisible s s' → mnemonicOf i ∉ ["XBA", "REP"] →
    (∃ f, exec i s = .fault f ∧ exec i s' = .fault f) ∨
    ∃ t t', exec i s = .next t ∧ exec i s' = .next t' ∧ SameVisible t t'

/-- Change those five flags in any way before an instruction: it still completes or stops as before, with the same
fault, and every field of the next state but those five flags is the same. (10_state.md section 6 (the reader
column); 60_exceptions.md section 2 (irq_disable; decision D9); 92_eei_decisions.md D16.) -/
def Obligations.FlagsThatNothingReads : Prop :=
  ∀ (i : Instr) (s : State) (n v z q d : Bool),
    let s' : State := { s with neg := n, overflow := v, zero := z, irqDisable := q, decimalMode := d }
    (∃ f, exec i s = .fault f ∧ exec i s' = .fault f) ∨
    ∃ t t', exec i s = .next t ∧ exec i s' = .next t' ∧
      t' = { t with
        neg := t'.neg, overflow := t'.overflow, zero := t'.zero, irqDisable := t'.irqDisable
        decimalMode := t'.decimalMode }

/-- No instruction writes stack_ptr, XCE included, in either mode; an instruction without a stack-relative mode does the
same whatever stack_ptr holds; the stack-relative address is (stack_ptr + operand) mod 2^16. (R26.) -/
def Obligations.StackPointerIsReadOnlyByStackModes : Prop :=
  (∀ (i : Instr) (s t : State), exec i s = .next t → t.stackPtr = s.stackPtr) ∧
    (∀ (i : Instr) (s : State) (v : Word),
      (∀ o8, i ≠ .oraSr o8 ∧ i ≠ .oraSrIndY o8 ∧ i ≠ .andSr o8 ∧ i ≠ .andSrIndY o8) →
        exec i { s with stackPtr := v } =
          match exec i s with
          | .next t => .next { t with stackPtr := v }
          | .fault f => .fault f
          | .refused r => .refused r) ∧
    ∀ (s : State) (o8 : Byte), ∃ e, AddrMode.stack.address (zext 24 o8) s = .ok e ∧
      e.toNat = (s.stackPtr.toNat + o8.toNat) % 0x10000

/-- If the four bytes of memory from EffPC decode at the observed width to instruction i, and i's bytes are in range and
end inside the program bank, then step is exec of i on that very state, followed, where it completes, by pc moving
by ByteSize taken before the execution; a stop of exec is the stop of step. (48_opcode_protocol.md section 3 (the
reference step is decision D4); 30_encoding.md sections 1 and 2.) -/
def Obligations.StepRunsTheDecodedInstruction : Prop :=
  ∀ (s : State) (i : Instr) (rest : List Byte),
    decode (accW s) (s.memory.bytes (effPC s).toNat 4) = .ok (i, rest) → Fetchable s i →
    step s =
      match exec i s with
      | .next t => .next { t with pc := s.pc + BitVec.ofNat 16 (byteSize i s) }
      | .fault f => .fault f
      | .refused r => .refused r

/-- If the opcode byte is past MEM_SIZE, step is MemoryBounds of EffPC; else if no family claims it, UnimplementedOpcode
of it; else if pc + ByteSize > 0x10000, InstructionStraddlesBank, wherever memory ends; else if an operand byte is
past MEM_SIZE, MemoryBounds of the lowest such byte. (60_exceptions.md section 1 (order of the checks; decision
D14); 48_opcode_protocol.md section 3.) -/
def Obligations.StepStopsInTheOrderOfItsChecks : Prop :=
  ∀ s : State,
    (¬Present s (effPC s).toNat 1 → step s = .fault (.memoryBounds (effPC s).toNat)) ∧
    (Present s (effPC s).toNat 1 →
      (decodeOpcode (s.memory.read (effPC s).toNat) = none →
        step s = .refused (.unimplementedOpcode (s.memory.read (effPC s).toNat))) ∧
      ∀ f, decodeOpcode (s.memory.read (effPC s).toNat) = some f →
        (0x10000 < s.pc.toNat + (1 + f.operandBytes (accW s)) → step s = .refused .instructionStraddlesBank) ∧
        (s.pc.toNat + (1 + f.operandBytes (accW s)) ≤ 0x10000 →
          ¬Present s ((effPC s).toNat + 1) (f.operandBytes (accW s)) →
            step s = .fault (.memoryBounds (max ((effPC s).toNat + 1) s.config.memSize))))

/-- If a step completes, the bytes at EffPC began with the encoding of some instruction, pc moved by its length modulo
2^16, program_bank did not move, and apart from pc the next state is that instruction's own. (48_opcode_protocol.md
section 3; 10_state.md section 3.) -/
def Obligations.StepAdvancesPcInsideItsBank : Prop :=
  ∀ s t : State, step s = .next t →
    ∃ i, s.memory.bytes (effPC s).toNat (encode (accW s) i).length = encode (accW s) i ∧
      t.pc.toNat = (s.pc.toNat + (encode (accW s) i).length) % 0x10000 ∧ t.programBank = s.programBank ∧
      exec i s = .next { t with pc := s.pc }

/-- For every state in which memory is in canonical form, lists no address at or past MEM_SIZE, and 1 <= MEM_SIZE <=
0x1000000, the state after any completed step is such a state. (20_memory.md sections 1, 3 and 4; 00_scope.md
section 3; log 5.) -/
def Obligations.StepKeepsTheInvariant : Prop :=
  ∀ s t : State, s.Inv → step s = .next t → t.Inv

/-- Reset with legal parameters and a canonical image inside MEM_SIZE gives a state of the invariant, whatever the
vectors and the unspecified registers; so does the model's own State.reset, whose values for what the spec leaves
open are the choices of log 1 to 5. (70_reset_and_hazards.md section 1; log 1; log 3; log 4; log 5.) -/
def Obligations.ResetMeetsTheInvariant : Prop :=
  (∀ (c : Config) (image : Memory) (v : Vectors) (u : Unspecified), c.Wf → image.Wf → image.Below c.memSize →
      (State.resetFrom c image v u).Inv) ∧
    State.reset.Inv

/-- If MEM_SIZE is 0x1000000, whatever fault a step answers is MemoryBounds(0x1000000): a multi-byte access that starts
at 0xFFFFFE or 0xFFFFFF. No instruction fetch faults. It rests on the spec's decisions D7 (an out-of-range access is
the checked fault) and D5 (an instruction that straddles its bank is refused before its operand is read).
(60_exceptions.md section 1 (MemoryBounds; decisions D5, D7); 20_memory.md section 3; 48_opcode_protocol.md section
3.) -/
def Obligations.FullMemoryFaultsOnlyAtItsTop : Prop :=
  ∀ s : State, s.config.memSize = 0x1000000 →
    (∀ f, step s = .fault f → f = .memoryBounds 0x1000000) ∧
    ∀ f, fetchInstr s ≠ .fault f

/-- If a step is refused, the reason is UnimplementedOpcode of the byte at EffPC, which no family claims, or
InstructionStraddlesBank; no instruction itself ever answers a refusal. (60_exceptions.md section 1 (decisions D5,
D6).) -/
def Obligations.StepRefusesOnlyTheTwoNamedCases : Prop :=
  (∀ (s : State) (r : Refusal), step s = .refused r →
      r = .unimplementedOpcode (s.memory.read (effPC s).toNat) ∧ decodeOpcode (s.memory.read (effPC s).toNat) = none ∨
      r = .instructionStraddlesBank) ∧
    ∀ (i : Instr) (s : State) (r : Refusal), exec i s ≠ .refused r

/-- If instruction i's encoding stands at EffPC, i is well-formed at the observed width, its bytes are in range and end
inside the bank, and its pointer and data bytes exist, then the step completes, in both modes. (60_exceptions.md
section 1 (outcomes); 48_opcode_protocol.md section 3.) -/
def Obligations.StepCompletesOnEveryClaimedInstruction : Prop :=
  ∀ (s : State) (i : Instr), i.wellFormed (accW s) = true →
    s.memory.bytes (effPC s).toNat (encode (accW s) i).length = encode (accW s) i → Fetchable s i → Ready s i →
    ∃ t, step s = .next t

/-- For every parameters, image, vectors and unspecified values: the fields the spec gives a value have it, memory is
the image, and acc, x, y, stack_ptr, neg, overflow, zero, carry are whatever they were handed (any value).
(70_reset_and_hazards.md section 1 (the reset state is decision D8).) -/
def Obligations.ResetLeavesTheSpecifiedValues : Prop :=
  ∀ (c : Config) (image : Memory) (v : Vectors) (u : Unspecified),
    let s := State.resetFrom c image v u
    s.emuMode = .emulation ∧ s.accSize = .bit8 ∧ s.indexSize = .bit8 ∧ s.programBank = 0x00 ∧ s.pc = v.reset ∧
      s.dataBank = 0x00 ∧ s.directPage = 0x0000 ∧ s.irqDisable = true ∧ s.decimalMode = false ∧ s.memory = image ∧
      s.config = c ∧ s.acc = u.acc ∧ s.x = u.x ∧ s.y = u.y ∧ s.stackPtr = u.stackPtr ∧ s.neg = u.neg ∧
      s.overflow = u.overflow ∧ s.zero = u.zero ∧ s.carry = u.carry ∧ breakFlag s = some true

/-- m16 is 1 when the observed accumulator is 16-bit, dl when the low byte of D is not 0, px and py when adding x or y
to the un-indexed absolute address changes the page or bank; every row of the table, for all 85 instructions and
every state. The counts lie between 2 and 9. (42_cycle_calculator.md section 3 (the collected table);
48_opcode_protocol.md section 1.) -/
def Obligations.CycleFormulaOfEveryInstruction : Prop :=
  ∀ (s : State) (imm o16 : Word) (o8 : Byte) (o24 : Addr),
    let m16 : Nat := match accW s with | .bit8 => 0 | .bit16 => 1
    let dl : Nat := if s.directPage.toNat % 0x100 = 0 then 0 else 1
    let px (o : Word) : Nat :=
      if inBank s.dataBank o.toNat / 0x100 = plusX s (inBank s.dataBank o.toNat) / 0x100 then 0 else 1
    let py (o : Word) : Nat :=
      if inBank s.dataBank o.toNat / 0x100 = plusY s (inBank s.dataBank o.toNat) / 0x100 then 0 else 1
    (∀ i ∈ [Instr.oraImm imm, .andImm imm], totalCycles i s = 2 + m16) ∧
    (∀ i ∈ [Instr.oraAbs o16, .andAbs o16], totalCycles i s = 4 + m16) ∧
    (∀ i ∈ [Instr.oraLong o24, .andLong o24], totalCycles i s = 5 + m16) ∧
    (∀ i ∈ [Instr.oraDp o8, .andDp o8], totalCycles i s = 3 + m16 + dl) ∧
    (∀ i ∈ [Instr.oraDpInd o8, .andDpInd o8], totalCycles i s = 5 + m16 + dl) ∧
    (∀ i ∈ [Instr.oraDpIndLong o8, .andDpIndLong o8], totalCycles i s = 6 + m16 + dl) ∧
    (∀ i ∈ [Instr.oraAbsX o16, .andAbsX o16], totalCycles i s = 4 + m16 + px o16) ∧
    (∀ i ∈ [Instr.oraLongX o24, .andLongX o24], totalCycles i s = 5 + m16) ∧
    (∀ i ∈ [Instr.oraAbsY o16, .andAbsY o16], totalCycles i s = 4 + m16 + py o16) ∧
    (∀ i ∈ [Instr.oraDpX o8, .andDpX o8], totalCycles i s = 4 + m16 + dl) ∧
    (∀ i ∈ [Instr.oraDpXInd o8, .andDpXInd o8], totalCycles i s = 6 + m16 + dl) ∧
    (∀ i ∈ [Instr.oraDpIndY o8, .andDpIndY o8], totalCycles i s = 5 + m16 + dl) ∧
    (∀ i ∈ [Instr.oraDpIndLongY o8, .andDpIndLongY o8], totalCycles i s = 6 + m16 + dl) ∧
    (∀ i ∈ [Instr.oraSr o8, .andSr o8], totalCycles i s = 4 + m16) ∧
    (∀ i ∈ [Instr.oraSrIndY o8, .andSrIndY o8], totalCycles i s = 7 + m16) ∧
    (∀ i ∈ [Instr.bitImm imm], totalCycles i s = 2 + m16) ∧
    (∀ i ∈ [Instr.bitAbs o16], totalCycles i s = 4 + m16) ∧
    (∀ i ∈ [Instr.bitDp o8], totalCycles i s = 3 + m16 + dl) ∧
    (∀ i ∈ [Instr.bitAbsX o16], totalCycles i s = 4 + m16 + px o16) ∧
    (∀ i ∈ [Instr.bitDpX o8], totalCycles i s = 4 + m16 + dl) ∧
    (∀ i ∈ [Instr.trbAbs o16, .tsbAbs o16], totalCycles i s = 6 + 2 * m16) ∧
    (∀ i ∈ [Instr.trbDp o8, .tsbDp o8], totalCycles i s = 5 + 2 * m16 + dl) ∧
    (∀ i ∈ [Instr.aslA, .rolA, .lsrA, .rorA], totalCycles i s = 2) ∧
    (∀ i ∈ [Instr.aslDp o8, .rolDp o8, .lsrDp o8, .rorDp o8], totalCycles i s = 5 + m16 + dl) ∧
    (∀ i ∈ [Instr.aslAbs o16, .rolAbs o16, .lsrAbs o16, .rorAbs o16], totalCycles i s = 6 + 2 * m16) ∧
    (∀ i ∈ [Instr.aslDpX o8, .rolDpX o8, .lsrDpX o8, .rorDpX o8], totalCycles i s = 6 + m16 + dl) ∧
    (∀ i ∈ [Instr.aslAbsX o16, .rolAbsX o16, .lsrAbsX o16, .rorAbsX o16], totalCycles i s = 7 + 2 * m16) ∧
    (∀ i ∈ [Instr.incA, .decA], totalCycles i s = 2) ∧
    (∀ i ∈ [Instr.incAbs o16, .decAbs o16], totalCycles i s = 6 + 2 * m16) ∧
    (∀ i ∈ [Instr.incDp o8, .decDp o8], totalCycles i s = 5 + 2 * m16 + dl) ∧
    (∀ i ∈ [Instr.incAbsX o16, .decAbsX o16], totalCycles i s = 7 + 2 * m16) ∧
    (∀ i ∈ [Instr.incDpX o8, .decDpX o8], totalCycles i s = 6 + 2 * m16 + dl) ∧
    (∀ i ∈ [Instr.inx, .iny, .dex, .dey, .clc, .sec, .cld, .sed, .sei, .cli, .clv, .nop, .xce], totalCycles i s = 2) ∧
    (∀ i ∈ [Instr.rep o8, .sep o8, .xba], totalCycles i s = 3) ∧
    ∀ i, 2 ≤ totalCycles i s ∧ totalCycles i s ≤ 9

/-- The predicate compares the page-and-bank part of the initial address and of the address plus the width-masked x or y
modulo 2^24; a carry into the next bank counts; it reads nothing else, so two states that observe the same index
agree. (R187.) -/
def Obligations.PageCrossingComparesPageAndBank : Prop :=
  ∀ (n : Int32) (initial : Addr) (s : State),
    ((CycleMod.checkPageBoundary n initial .x).holds s = true ↔
      initial.toNat / 0x100 ≠ (initial.toNat + (rdX s).toNat) % 0x1000000 / 0x100) ∧
    ((CycleMod.checkPageBoundary n initial .y).holds s = true ↔
      initial.toNat / 0x100 ≠ (initial.toNat + (rdY s).toNat) % 0x1000000 / 0x100)

/-- stepReport, the seven lines of Step in which ByteSize, TotalCycles and Execute each read the operand from memory,
answers next (t, k) exactly when step answers next t and k is TotalCycles of the instruction fetched, on the state
before; its faults and refusals are those of step, with no count. A run of m + n steps is the run of m and then,
unless an outcome ended it, the run of n from its final state, the counts in a row and the totals added.
(48_opcode_protocol.md section 3 (decisions D4, D14); 42_cycle_calculator.md section 3; log 7.) -/
def Obligations.ReportedStepsAreStepsWithTheirCycles : Prop :=
  (∀ (s t : State) (k : Nat), stepReport s = .next (t, k) ↔
      step s = .next t ∧ ∃ i, fetchInstr s = .next i ∧ k = totalCycles i s) ∧
    (∀ (s : State) (f : Fault), stepReport s = .fault f ↔ step s = .fault f) ∧
    (∀ (s : State) (r : Refusal), stepReport s = .refused r ↔ step s = .refused r) ∧
    ∀ (m n : Nat) (s : State),
      ((runReport m s).ending = .caller →
        runReport (m + n) s = { runReport n (runReport m s).state with
          counts := (runReport m s).counts ++ (runReport n (runReport m s).state).counts } ∧
        (runReport (m + n) s).total = (runReport m s).total + (runReport n (runReport m s).state).total) ∧
      ((runReport m s).ending ≠ .caller → runReport (m + n) s = runReport m s)

/-- If a fetched instruction completes, every byte access of its trace is below MEM_SIZE, and every byte of memory that
changed has a write access in the trace. (20_memory.md section 8 (order of accesses; decision D13); 20_memory.md
section 5.) -/
def Obligations.AccessTraceAccountsForMemory : Prop :=
  ∀ (i : Instr) (s t : State), fetchInstr s = .next i → exec i s = .next t →
    (∀ a ∈ accesses i s, a.addr < s.config.memSize) ∧
    ∀ b, t.memory.read b ≠ s.memory.read b → ⟨.write, b⟩ ∈ accesses i s

/-- For a run of at most n steps: the caller ended it exactly when n steps completed; otherwise the final state is the
one whose step raises the reported fault or refusal, which adds no count. The completed steps alone give the same
state and counts, each count lies in 2..9, and program_bank, data_bank, direct_page, stack_ptr, the parameters and
the invariant are those of the start. (48_opcode_protocol.md section 3 (runs; decisions D14, D15);
70_reset_and_hazards.md section 1 (registers no instruction can change).) -/
def Obligations.RunsReportStateCountsAndOutcome : Prop :=
  ∀ (n : Nat) (s : State),
    let r := runReport n s
    (r.ending = .caller ↔ r.counts.length = n) ∧ r.counts.length ≤ n ∧
      (∀ f, r.ending = .fault f → step r.state = .fault f) ∧
      (∀ q, r.ending = .refused q → step r.state = .refused q) ∧
      runReport r.counts.length s = { r with ending := .caller } ∧
      (∀ k ∈ r.counts, 2 ≤ k ∧ k ≤ 9) ∧
      r.state.programBank = s.programBank ∧ r.state.dataBank = s.dataBank ∧ r.state.directPage = s.directPage ∧
      r.state.stackPtr = s.stackPtr ∧ r.state.config = s.config ∧ (s.Inv → r.state.Inv)

/-- For the row f of an opcode byte b with n operand bytes: if all n exist, the three calls answer what the model
computes for the instruction i whose encoding those bytes are; if n is not 0 and one is missing, Execute and Disasm
are MemoryBounds of the lowest missing one, and so is TotalCycles for the five opcodes 0x1D, 0x3D, 0x3C, 0x19, 0x39.
For every other opcode TotalCycles never stops, wherever memory ends, and its count is that of the instruction with
any operand v. ByteSize is 1 + n in every case. (48_opcode_protocol.md section 1 (the operations); 60_exceptions.md
section 1 (MemoryBounds; decision D7); 30_encoding.md section 2 (operand bytes; decision D3); log 7.) -/
def Obligations.InterfaceCallsReadTheirOperands : Prop :=
  ∀ (s : State) (b : Byte) (f : Form), decodeOpcode b = some f →
    let n := f.operandBytes (accW s)
    let a := (effPC s).toNat + 1
    let stop : Fault := .memoryBounds (max a s.config.memSize)
    byteSizeOf f s = 1 + n ∧
    (n = 0 ∨ Present s a n → ∃ i, encode (accW s) i = b :: s.memory.bytes a n ∧ totalCyclesOf f s = .ok (totalCycles i s) ∧
      executeOf f s = exec i s ∧ disasmOf f s = .ok (disasm i s)) ∧
    (n ≠ 0 → ¬Present s a n → executeOf f s = .fault stop ∧ disasmOf f s = .error stop ∧
      (b ∈ [0x1D, 0x3D, 0x3C, 0x19, 0x39] → totalCyclesOf f s = .error stop)) ∧
    (b ∉ [0x1D, 0x3D, 0x3C, 0x19, 0x39] → ∀ v, totalCyclesOf f s = .ok (totalCycles (f.build v) s))

/-- For every instruction the reads that TotalCycles repeats and those that Disasm repeats are the opcode byte, the
operand bytes and the pointer bytes, each ascending, and no write. Where its bytes exist, its accesses are these,
then the data bytes read, then, for TRB, TSB and the memory forms of ASL, ROL, LSR, ROR, INC and DEC, the data bytes
written. The history of a step is the opcode byte, the repeats of TotalCycles, and the accesses of Execute from the
operand bytes on; where the instruction is fetched and completes, every access in it is below MEM_SIZE. The bytes
that the cycle count is computed from are among the repeats: the two bytes after the opcode byte for the five
absolute indexed forms of ORA, AND and BIT, none for any other. (20_memory.md section 8 (order of accesses; decision
D13); 48_opcode_protocol.md sections 1 and 3; log 11.) -/
def Obligations.StepHistoryRepeatsOnlyLeadingReads : Prop :=
  ∀ (i : Instr) (s : State),
    let lead := accessRun .read (effPC s).toNat (byteSize i s) ++
      (pointerOf s i).elim [] fun p => accessRun .read p.1 p.2
    cyclesReads i s = lead ∧ disasmReads i s = lead ∧ (∀ a ∈ lead, a.kind = .read) ∧
    (Ready s i → accesses i s = lead ++ (dataAddr s i).elim [] fun a => accessRun .read a (accW s).nbytes ++
      if mnemonicOf i ∈ ["TRB", "TSB", "ASL", "ROL", "LSR", "ROR", "INC", "DEC"] then accessRun .write a (accW s).nbytes
      else []) ∧
    stepHistory i s = ⟨.read, (effPC s).toNat⟩ :: lead ++ (accesses i s).drop 1 ∧
    (∀ t, fetchInstr s = .next i → exec i s = .next t → ∀ a ∈ stepHistory i s, a.addr < s.config.memSize) ∧
    (∀ o16, i = .oraAbsX o16 ∨ i = .andAbsX o16 ∨ i = .bitAbsX o16 ∨ i = .oraAbsY o16 ∨ i = .andAbsY o16 →
      cyclesOperandReads i s = [⟨.read, (effPC s).toNat + 1⟩, ⟨.read, (effPC s).toNat + 2⟩]) ∧
    ((∀ o16, i ≠ .oraAbsX o16 ∧ i ≠ .andAbsX o16 ∧ i ≠ .bitAbsX o16 ∧ i ≠ .oraAbsY o16 ∧ i ≠ .andAbsY o16) →
      cyclesOperandReads i s = []) ∧
    (cyclesOperandReads i s).Sublist (cyclesReads i s)
end

