-- ==== Sys2Proof/Laws/State.lean ====
section
/-! SUPPORT. One lemma per field per update of State, each true by rfl. -/

namespace Sys2Proof.Machine

section
variable (s : State)

@[simp] theorem State.setAcc_config (v : Word) : (s.setAcc v).config = s.config := rfl
@[simp] theorem State.setAcc_acc (v : Word) : (s.setAcc v).acc = v := rfl
@[simp] theorem State.setAcc_accSize (v : Word) : (s.setAcc v).accSize = s.accSize := rfl
@[simp] theorem State.setAcc_x (v : Word) : (s.setAcc v).x = s.x := rfl
@[simp] theorem State.setAcc_y (v : Word) : (s.setAcc v).y = s.y := rfl
@[simp] theorem State.setAcc_indexSize (v : Word) : (s.setAcc v).indexSize = s.indexSize := rfl
@[simp] theorem State.setAcc_dataBank (v : Word) : (s.setAcc v).dataBank = s.dataBank := rfl
@[simp] theorem State.setAcc_directPage (v : Word) : (s.setAcc v).directPage = s.directPage := rfl
@[simp] theorem State.setAcc_programBank (v : Word) : (s.setAcc v).programBank = s.programBank := rfl
@[simp] theorem State.setAcc_stackPtr (v : Word) : (s.setAcc v).stackPtr = s.stackPtr := rfl
@[simp] theorem State.setAcc_pc (v : Word) : (s.setAcc v).pc = s.pc := rfl
@[simp] theorem State.setAcc_emuMode (v : Word) : (s.setAcc v).emuMode = s.emuMode := rfl
@[simp] theorem State.setAcc_neg (v : Word) : (s.setAcc v).neg = s.neg := rfl
@[simp] theorem State.setAcc_overflow (v : Word) : (s.setAcc v).overflow = s.overflow := rfl
@[simp] theorem State.setAcc_carry (v : Word) : (s.setAcc v).carry = s.carry := rfl
@[simp] theorem State.setAcc_zero (v : Word) : (s.setAcc v).zero = s.zero := rfl
@[simp] theorem State.setAcc_irqDisable (v : Word) : (s.setAcc v).irqDisable = s.irqDisable := rfl
@[simp] theorem State.setAcc_decimalMode (v : Word) : (s.setAcc v).decimalMode = s.decimalMode := rfl
@[simp] theorem State.setAcc_memory (v : Word) : (s.setAcc v).memory = s.memory := rfl

@[simp] theorem State.setX_config (v : Word) : (s.setX v).config = s.config := rfl
@[simp] theorem State.setX_acc (v : Word) : (s.setX v).acc = s.acc := rfl
@[simp] theorem State.setX_accSize (v : Word) : (s.setX v).accSize = s.accSize := rfl
@[simp] theorem State.setX_x (v : Word) : (s.setX v).x = v := rfl
@[simp] theorem State.setX_y (v : Word) : (s.setX v).y = s.y := rfl
@[simp] theorem State.setX_indexSize (v : Word) : (s.setX v).indexSize = s.indexSize := rfl
@[simp] theorem State.setX_dataBank (v : Word) : (s.setX v).dataBank = s.dataBank := rfl
@[simp] theorem State.setX_directPage (v : Word) : (s.setX v).directPage = s.directPage := rfl
@[simp] theorem State.setX_programBank (v : Word) : (s.setX v).programBank = s.programBank := rfl
@[simp] theorem State.setX_stackPtr (v : Word) : (s.setX v).stackPtr = s.stackPtr := rfl
@[simp] theorem State.setX_pc (v : Word) : (s.setX v).pc = s.pc := rfl
@[simp] theorem State.setX_emuMode (v : Word) : (s.setX v).emuMode = s.emuMode := rfl
@[simp] theorem State.setX_neg (v : Word) : (s.setX v).neg = s.neg := rfl
@[simp] theorem State.setX_overflow (v : Word) : (s.setX v).overflow = s.overflow := rfl
@[simp] theorem State.setX_carry (v : Word) : (s.setX v).carry = s.carry := rfl
@[simp] theorem State.setX_zero (v : Word) : (s.setX v).zero = s.zero := rfl
@[simp] theorem State.setX_irqDisable (v : Word) : (s.setX v).irqDisable = s.irqDisable := rfl
@[simp] theorem State.setX_decimalMode (v : Word) : (s.setX v).decimalMode = s.decimalMode := rfl
@[simp] theorem State.setX_memory (v : Word) : (s.setX v).memory = s.memory := rfl

@[simp] theorem State.setY_config (v : Word) : (s.setY v).config = s.config := rfl
@[simp] theorem State.setY_acc (v : Word) : (s.setY v).acc = s.acc := rfl
@[simp] theorem State.setY_accSize (v : Word) : (s.setY v).accSize = s.accSize := rfl
@[simp] theorem State.setY_x (v : Word) : (s.setY v).x = s.x := rfl
@[simp] theorem State.setY_y (v : Word) : (s.setY v).y = v := rfl
@[simp] theorem State.setY_indexSize (v : Word) : (s.setY v).indexSize = s.indexSize := rfl
@[simp] theorem State.setY_dataBank (v : Word) : (s.setY v).dataBank = s.dataBank := rfl
@[simp] theorem State.setY_directPage (v : Word) : (s.setY v).directPage = s.directPage := rfl
@[simp] theorem State.setY_programBank (v : Word) : (s.setY v).programBank = s.programBank := rfl
@[simp] theorem State.setY_stackPtr (v : Word) : (s.setY v).stackPtr = s.stackPtr := rfl
@[simp] theorem State.setY_pc (v : Word) : (s.setY v).pc = s.pc := rfl
@[simp] theorem State.setY_emuMode (v : Word) : (s.setY v).emuMode = s.emuMode := rfl
@[simp] theorem State.setY_neg (v : Word) : (s.setY v).neg = s.neg := rfl
@[simp] theorem State.setY_overflow (v : Word) : (s.setY v).overflow = s.overflow := rfl
@[simp] theorem State.setY_carry (v : Word) : (s.setY v).carry = s.carry := rfl
@[simp] theorem State.setY_zero (v : Word) : (s.setY v).zero = s.zero := rfl
@[simp] theorem State.setY_irqDisable (v : Word) : (s.setY v).irqDisable = s.irqDisable := rfl
@[simp] theorem State.setY_decimalMode (v : Word) : (s.setY v).decimalMode = s.decimalMode := rfl
@[simp] theorem State.setY_memory (v : Word) : (s.setY v).memory = s.memory := rfl

@[simp] theorem State.setPc_config (v : Word) : (s.setPc v).config = s.config := rfl
@[simp] theorem State.setPc_acc (v : Word) : (s.setPc v).acc = s.acc := rfl
@[simp] theorem State.setPc_accSize (v : Word) : (s.setPc v).accSize = s.accSize := rfl
@[simp] theorem State.setPc_x (v : Word) : (s.setPc v).x = s.x := rfl
@[simp] theorem State.setPc_y (v : Word) : (s.setPc v).y = s.y := rfl
@[simp] theorem State.setPc_indexSize (v : Word) : (s.setPc v).indexSize = s.indexSize := rfl
@[simp] theorem State.setPc_dataBank (v : Word) : (s.setPc v).dataBank = s.dataBank := rfl
@[simp] theorem State.setPc_directPage (v : Word) : (s.setPc v).directPage = s.directPage := rfl
@[simp] theorem State.setPc_programBank (v : Word) : (s.setPc v).programBank = s.programBank := rfl
@[simp] theorem State.setPc_stackPtr (v : Word) : (s.setPc v).stackPtr = s.stackPtr := rfl
@[simp] theorem State.setPc_pc (v : Word) : (s.setPc v).pc = v := rfl
@[simp] theorem State.setPc_emuMode (v : Word) : (s.setPc v).emuMode = s.emuMode := rfl
@[simp] theorem State.setPc_neg (v : Word) : (s.setPc v).neg = s.neg := rfl
@[simp] theorem State.setPc_overflow (v : Word) : (s.setPc v).overflow = s.overflow := rfl
@[simp] theorem State.setPc_carry (v : Word) : (s.setPc v).carry = s.carry := rfl
@[simp] theorem State.setPc_zero (v : Word) : (s.setPc v).zero = s.zero := rfl
@[simp] theorem State.setPc_irqDisable (v : Word) : (s.setPc v).irqDisable = s.irqDisable := rfl
@[simp] theorem State.setPc_decimalMode (v : Word) : (s.setPc v).decimalMode = s.decimalMode := rfl
@[simp] theorem State.setPc_memory (v : Word) : (s.setPc v).memory = s.memory := rfl

@[simp] theorem State.setAccSize_config (v : Width) : (s.setAccSize v).config = s.config := rfl
@[simp] theorem State.setAccSize_acc (v : Width) : (s.setAccSize v).acc = s.acc := rfl
@[simp] theorem State.setAccSize_accSize (v : Width) : (s.setAccSize v).accSize = v := rfl
@[simp] theorem State.setAccSize_x (v : Width) : (s.setAccSize v).x = s.x := rfl
@[simp] theorem State.setAccSize_y (v : Width) : (s.setAccSize v).y = s.y := rfl
@[simp] theorem State.setAccSize_indexSize (v : Width) : (s.setAccSize v).indexSize = s.indexSize := rfl
@[simp] theorem State.setAccSize_dataBank (v : Width) : (s.setAccSize v).dataBank = s.dataBank := rfl
@[simp] theorem State.setAccSize_directPage (v : Width) : (s.setAccSize v).directPage = s.directPage := rfl
@[simp] theorem State.setAccSize_programBank (v : Width) : (s.setAccSize v).programBank = s.programBank := rfl
@[simp] theorem State.setAccSize_stackPtr (v : Width) : (s.setAccSize v).stackPtr = s.stackPtr := rfl
@[simp] theorem State.setAccSize_pc (v : Width) : (s.setAccSize v).pc = s.pc := rfl
@[simp] theorem State.setAccSize_emuMode (v : Width) : (s.setAccSize v).emuMode = s.emuMode := rfl
@[simp] theorem State.setAccSize_neg (v : Width) : (s.setAccSize v).neg = s.neg := rfl
@[simp] theorem State.setAccSize_overflow (v : Width) : (s.setAccSize v).overflow = s.overflow := rfl
@[simp] theorem State.setAccSize_carry (v : Width) : (s.setAccSize v).carry = s.carry := rfl
@[simp] theorem State.setAccSize_zero (v : Width) : (s.setAccSize v).zero = s.zero := rfl
@[simp] theorem State.setAccSize_irqDisable (v : Width) : (s.setAccSize v).irqDisable = s.irqDisable := rfl
@[simp] theorem State.setAccSize_decimalMode (v : Width) : (s.setAccSize v).decimalMode = s.decimalMode := rfl
@[simp] theorem State.setAccSize_memory (v : Width) : (s.setAccSize v).memory = s.memory := rfl

@[simp] theorem State.setIndexSize_config (v : Width) : (s.setIndexSize v).config = s.config := rfl
@[simp] theorem State.setIndexSize_acc (v : Width) : (s.setIndexSize v).acc = s.acc := rfl
@[simp] theorem State.setIndexSize_accSize (v : Width) : (s.setIndexSize v).accSize = s.accSize := rfl
@[simp] theorem State.setIndexSize_x (v : Width) : (s.setIndexSize v).x = s.x := rfl
@[simp] theorem State.setIndexSize_y (v : Width) : (s.setIndexSize v).y = s.y := rfl
@[simp] theorem State.setIndexSize_indexSize (v : Width) : (s.setIndexSize v).indexSize = v := rfl
@[simp] theorem State.setIndexSize_dataBank (v : Width) : (s.setIndexSize v).dataBank = s.dataBank := rfl
@[simp] theorem State.setIndexSize_directPage (v : Width) : (s.setIndexSize v).directPage = s.directPage := rfl
@[simp] theorem State.setIndexSize_programBank (v : Width) : (s.setIndexSize v).programBank = s.programBank := rfl
@[simp] theorem State.setIndexSize_stackPtr (v : Width) : (s.setIndexSize v).stackPtr = s.stackPtr := rfl
@[simp] theorem State.setIndexSize_pc (v : Width) : (s.setIndexSize v).pc = s.pc := rfl
@[simp] theorem State.setIndexSize_emuMode (v : Width) : (s.setIndexSize v).emuMode = s.emuMode := rfl
@[simp] theorem State.setIndexSize_neg (v : Width) : (s.setIndexSize v).neg = s.neg := rfl
@[simp] theorem State.setIndexSize_overflow (v : Width) : (s.setIndexSize v).overflow = s.overflow := rfl
@[simp] theorem State.setIndexSize_carry (v : Width) : (s.setIndexSize v).carry = s.carry := rfl
@[simp] theorem State.setIndexSize_zero (v : Width) : (s.setIndexSize v).zero = s.zero := rfl
@[simp] theorem State.setIndexSize_irqDisable (v : Width) : (s.setIndexSize v).irqDisable = s.irqDisable := rfl
@[simp] theorem State.setIndexSize_decimalMode (v : Width) : (s.setIndexSize v).decimalMode = s.decimalMode := rfl
@[simp] theorem State.setIndexSize_memory (v : Width) : (s.setIndexSize v).memory = s.memory := rfl

@[simp] theorem State.setEmuMode_config (v : OpMode) : (s.setEmuMode v).config = s.config := rfl
@[simp] theorem State.setEmuMode_acc (v : OpMode) : (s.setEmuMode v).acc = s.acc := rfl
@[simp] theorem State.setEmuMode_accSize (v : OpMode) : (s.setEmuMode v).accSize = s.accSize := rfl
@[simp] theorem State.setEmuMode_x (v : OpMode) : (s.setEmuMode v).x = s.x := rfl
@[simp] theorem State.setEmuMode_y (v : OpMode) : (s.setEmuMode v).y = s.y := rfl
@[simp] theorem State.setEmuMode_indexSize (v : OpMode) : (s.setEmuMode v).indexSize = s.indexSize := rfl
@[simp] theorem State.setEmuMode_dataBank (v : OpMode) : (s.setEmuMode v).dataBank = s.dataBank := rfl
@[simp] theorem State.setEmuMode_directPage (v : OpMode) : (s.setEmuMode v).directPage = s.directPage := rfl
@[simp] theorem State.setEmuMode_programBank (v : OpMode) : (s.setEmuMode v).programBank = s.programBank := rfl
@[simp] theorem State.setEmuMode_stackPtr (v : OpMode) : (s.setEmuMode v).stackPtr = s.stackPtr := rfl
@[simp] theorem State.setEmuMode_pc (v : OpMode) : (s.setEmuMode v).pc = s.pc := rfl
@[simp] theorem State.setEmuMode_emuMode (v : OpMode) : (s.setEmuMode v).emuMode = v := rfl
@[simp] theorem State.setEmuMode_neg (v : OpMode) : (s.setEmuMode v).neg = s.neg := rfl
@[simp] theorem State.setEmuMode_overflow (v : OpMode) : (s.setEmuMode v).overflow = s.overflow := rfl
@[simp] theorem State.setEmuMode_carry (v : OpMode) : (s.setEmuMode v).carry = s.carry := rfl
@[simp] theorem State.setEmuMode_zero (v : OpMode) : (s.setEmuMode v).zero = s.zero := rfl
@[simp] theorem State.setEmuMode_irqDisable (v : OpMode) : (s.setEmuMode v).irqDisable = s.irqDisable := rfl
@[simp] theorem State.setEmuMode_decimalMode (v : OpMode) : (s.setEmuMode v).decimalMode = s.decimalMode := rfl
@[simp] theorem State.setEmuMode_memory (v : OpMode) : (s.setEmuMode v).memory = s.memory := rfl

@[simp] theorem State.setNeg_config (v : Bool) : (s.setNeg v).config = s.config := rfl
@[simp] theorem State.setNeg_acc (v : Bool) : (s.setNeg v).acc = s.acc := rfl
@[simp] theorem State.setNeg_accSize (v : Bool) : (s.setNeg v).accSize = s.accSize := rfl
@[simp] theorem State.setNeg_x (v : Bool) : (s.setNeg v).x = s.x := rfl
@[simp] theorem State.setNeg_y (v : Bool) : (s.setNeg v).y = s.y := rfl
@[simp] theorem State.setNeg_indexSize (v : Bool) : (s.setNeg v).indexSize = s.indexSize := rfl
@[simp] theorem State.setNeg_dataBank (v : Bool) : (s.setNeg v).dataBank = s.dataBank := rfl
@[simp] theorem State.setNeg_directPage (v : Bool) : (s.setNeg v).directPage = s.directPage := rfl
@[simp] theorem State.setNeg_programBank (v : Bool) : (s.setNeg v).programBank = s.programBank := rfl
@[simp] theorem State.setNeg_stackPtr (v : Bool) : (s.setNeg v).stackPtr = s.stackPtr := rfl
@[simp] theorem State.setNeg_pc (v : Bool) : (s.setNeg v).pc = s.pc := rfl
@[simp] theorem State.setNeg_emuMode (v : Bool) : (s.setNeg v).emuMode = s.emuMode := rfl
@[simp] theorem State.setNeg_neg (v : Bool) : (s.setNeg v).neg = v := rfl
@[simp] theorem State.setNeg_overflow (v : Bool) : (s.setNeg v).overflow = s.overflow := rfl
@[simp] theorem State.setNeg_carry (v : Bool) : (s.setNeg v).carry = s.carry := rfl
@[simp] theorem State.setNeg_zero (v : Bool) : (s.setNeg v).zero = s.zero := rfl
@[simp] theorem State.setNeg_irqDisable (v : Bool) : (s.setNeg v).irqDisable = s.irqDisable := rfl
@[simp] theorem State.setNeg_decimalMode (v : Bool) : (s.setNeg v).decimalMode = s.decimalMode := rfl
@[simp] theorem State.setNeg_memory (v : Bool) : (s.setNeg v).memory = s.memory := rfl

@[simp] theorem State.setOverflow_config (v : Bool) : (s.setOverflow v).config = s.config := rfl
@[simp] theorem State.setOverflow_acc (v : Bool) : (s.setOverflow v).acc = s.acc := rfl
@[simp] theorem State.setOverflow_accSize (v : Bool) : (s.setOverflow v).accSize = s.accSize := rfl
@[simp] theorem State.setOverflow_x (v : Bool) : (s.setOverflow v).x = s.x := rfl
@[simp] theorem State.setOverflow_y (v : Bool) : (s.setOverflow v).y = s.y := rfl
@[simp] theorem State.setOverflow_indexSize (v : Bool) : (s.setOverflow v).indexSize = s.indexSize := rfl
@[simp] theorem State.setOverflow_dataBank (v : Bool) : (s.setOverflow v).dataBank = s.dataBank := rfl
@[simp] theorem State.setOverflow_directPage (v : Bool) : (s.setOverflow v).directPage = s.directPage := rfl
@[simp] theorem State.setOverflow_programBank (v : Bool) : (s.setOverflow v).programBank = s.programBank := rfl
@[simp] theorem State.setOverflow_stackPtr (v : Bool) : (s.setOverflow v).stackPtr = s.stackPtr := rfl
@[simp] theorem State.setOverflow_pc (v : Bool) : (s.setOverflow v).pc = s.pc := rfl
@[simp] theorem State.setOverflow_emuMode (v : Bool) : (s.setOverflow v).emuMode = s.emuMode := rfl
@[simp] theorem State.setOverflow_neg (v : Bool) : (s.setOverflow v).neg = s.neg := rfl
@[simp] theorem State.setOverflow_overflow (v : Bool) : (s.setOverflow v).overflow = v := rfl
@[simp] theorem State.setOverflow_carry (v : Bool) : (s.setOverflow v).carry = s.carry := rfl
@[simp] theorem State.setOverflow_zero (v : Bool) : (s.setOverflow v).zero = s.zero := rfl
@[simp] theorem State.setOverflow_irqDisable (v : Bool) : (s.setOverflow v).irqDisable = s.irqDisable := rfl
@[simp] theorem State.setOverflow_decimalMode (v : Bool) : (s.setOverflow v).decimalMode = s.decimalMode := rfl
@[simp] theorem State.setOverflow_memory (v : Bool) : (s.setOverflow v).memory = s.memory := rfl

@[simp] theorem State.setCarry_config (v : Bool) : (s.setCarry v).config = s.config := rfl
@[simp] theorem State.setCarry_acc (v : Bool) : (s.setCarry v).acc = s.acc := rfl
@[simp] theorem State.setCarry_accSize (v : Bool) : (s.setCarry v).accSize = s.accSize := rfl
@[simp] theorem State.setCarry_x (v : Bool) : (s.setCarry v).x = s.x := rfl
@[simp] theorem State.setCarry_y (v : Bool) : (s.setCarry v).y = s.y := rfl
@[simp] theorem State.setCarry_indexSize (v : Bool) : (s.setCarry v).indexSize = s.indexSize := rfl
@[simp] theorem State.setCarry_dataBank (v : Bool) : (s.setCarry v).dataBank = s.dataBank := rfl
@[simp] theorem State.setCarry_directPage (v : Bool) : (s.setCarry v).directPage = s.directPage := rfl
@[simp] theorem State.setCarry_programBank (v : Bool) : (s.setCarry v).programBank = s.programBank := rfl
@[simp] theorem State.setCarry_stackPtr (v : Bool) : (s.setCarry v).stackPtr = s.stackPtr := rfl
@[simp] theorem State.setCarry_pc (v : Bool) : (s.setCarry v).pc = s.pc := rfl
@[simp] theorem State.setCarry_emuMode (v : Bool) : (s.setCarry v).emuMode = s.emuMode := rfl
@[simp] theorem State.setCarry_neg (v : Bool) : (s.setCarry v).neg = s.neg := rfl
@[simp] theorem State.setCarry_overflow (v : Bool) : (s.setCarry v).overflow = s.overflow := rfl
@[simp] theorem State.setCarry_carry (v : Bool) : (s.setCarry v).carry = v := rfl
@[simp] theorem State.setCarry_zero (v : Bool) : (s.setCarry v).zero = s.zero := rfl
@[simp] theorem State.setCarry_irqDisable (v : Bool) : (s.setCarry v).irqDisable = s.irqDisable := rfl
@[simp] theorem State.setCarry_decimalMode (v : Bool) : (s.setCarry v).decimalMode = s.decimalMode := rfl
@[simp] theorem State.setCarry_memory (v : Bool) : (s.setCarry v).memory = s.memory := rfl

@[simp] theorem State.setZero_config (v : Bool) : (s.setZero v).config = s.config := rfl
@[simp] theorem State.setZero_acc (v : Bool) : (s.setZero v).acc = s.acc := rfl
@[simp] theorem State.setZero_accSize (v : Bool) : (s.setZero v).accSize = s.accSize := rfl
@[simp] theorem State.setZero_x (v : Bool) : (s.setZero v).x = s.x := rfl
@[simp] theorem State.setZero_y (v : Bool) : (s.setZero v).y = s.y := rfl
@[simp] theorem State.setZero_indexSize (v : Bool) : (s.setZero v).indexSize = s.indexSize := rfl
@[simp] theorem State.setZero_dataBank (v : Bool) : (s.setZero v).dataBank = s.dataBank := rfl
@[simp] theorem State.setZero_directPage (v : Bool) : (s.setZero v).directPage = s.directPage := rfl
@[simp] theorem State.setZero_programBank (v : Bool) : (s.setZero v).programBank = s.programBank := rfl
@[simp] theorem State.setZero_stackPtr (v : Bool) : (s.setZero v).stackPtr = s.stackPtr := rfl
@[simp] theorem State.setZero_pc (v : Bool) : (s.setZero v).pc = s.pc := rfl
@[simp] theorem State.setZero_emuMode (v : Bool) : (s.setZero v).emuMode = s.emuMode := rfl
@[simp] theorem State.setZero_neg (v : Bool) : (s.setZero v).neg = s.neg := rfl
@[simp] theorem State.setZero_overflow (v : Bool) : (s.setZero v).overflow = s.overflow := rfl
@[simp] theorem State.setZero_carry (v : Bool) : (s.setZero v).carry = s.carry := rfl
@[simp] theorem State.setZero_zero (v : Bool) : (s.setZero v).zero = v := rfl
@[simp] theorem State.setZero_irqDisable (v : Bool) : (s.setZero v).irqDisable = s.irqDisable := rfl
@[simp] theorem State.setZero_decimalMode (v : Bool) : (s.setZero v).decimalMode = s.decimalMode := rfl
@[simp] theorem State.setZero_memory (v : Bool) : (s.setZero v).memory = s.memory := rfl

@[simp] theorem State.setIrqDisable_config (v : Bool) : (s.setIrqDisable v).config = s.config := rfl
@[simp] theorem State.setIrqDisable_acc (v : Bool) : (s.setIrqDisable v).acc = s.acc := rfl
@[simp] theorem State.setIrqDisable_accSize (v : Bool) : (s.setIrqDisable v).accSize = s.accSize := rfl
@[simp] theorem State.setIrqDisable_x (v : Bool) : (s.setIrqDisable v).x = s.x := rfl
@[simp] theorem State.setIrqDisable_y (v : Bool) : (s.setIrqDisable v).y = s.y := rfl
@[simp] theorem State.setIrqDisable_indexSize (v : Bool) : (s.setIrqDisable v).indexSize = s.indexSize := rfl
@[simp] theorem State.setIrqDisable_dataBank (v : Bool) : (s.setIrqDisable v).dataBank = s.dataBank := rfl
@[simp] theorem State.setIrqDisable_directPage (v : Bool) : (s.setIrqDisable v).directPage = s.directPage := rfl
@[simp] theorem State.setIrqDisable_programBank (v : Bool) : (s.setIrqDisable v).programBank = s.programBank := rfl
@[simp] theorem State.setIrqDisable_stackPtr (v : Bool) : (s.setIrqDisable v).stackPtr = s.stackPtr := rfl
@[simp] theorem State.setIrqDisable_pc (v : Bool) : (s.setIrqDisable v).pc = s.pc := rfl
@[simp] theorem State.setIrqDisable_emuMode (v : Bool) : (s.setIrqDisable v).emuMode = s.emuMode := rfl
@[simp] theorem State.setIrqDisable_neg (v : Bool) : (s.setIrqDisable v).neg = s.neg := rfl
@[simp] theorem State.setIrqDisable_overflow (v : Bool) : (s.setIrqDisable v).overflow = s.overflow := rfl
@[simp] theorem State.setIrqDisable_carry (v : Bool) : (s.setIrqDisable v).carry = s.carry := rfl
@[simp] theorem State.setIrqDisable_zero (v : Bool) : (s.setIrqDisable v).zero = s.zero := rfl
@[simp] theorem State.setIrqDisable_irqDisable (v : Bool) : (s.setIrqDisable v).irqDisable = v := rfl
@[simp] theorem State.setIrqDisable_decimalMode (v : Bool) : (s.setIrqDisable v).decimalMode = s.decimalMode := rfl
@[simp] theorem State.setIrqDisable_memory (v : Bool) : (s.setIrqDisable v).memory = s.memory := rfl

@[simp] theorem State.setDecimalMode_config (v : Bool) : (s.setDecimalMode v).config = s.config := rfl
@[simp] theorem State.setDecimalMode_acc (v : Bool) : (s.setDecimalMode v).acc = s.acc := rfl
@[simp] theorem State.setDecimalMode_accSize (v : Bool) : (s.setDecimalMode v).accSize = s.accSize := rfl
@[simp] theorem State.setDecimalMode_x (v : Bool) : (s.setDecimalMode v).x = s.x := rfl
@[simp] theorem State.setDecimalMode_y (v : Bool) : (s.setDecimalMode v).y = s.y := rfl
@[simp] theorem State.setDecimalMode_indexSize (v : Bool) : (s.setDecimalMode v).indexSize = s.indexSize := rfl
@[simp] theorem State.setDecimalMode_dataBank (v : Bool) : (s.setDecimalMode v).dataBank = s.dataBank := rfl
@[simp] theorem State.setDecimalMode_directPage (v : Bool) : (s.setDecimalMode v).directPage = s.directPage := rfl
@[simp] theorem State.setDecimalMode_programBank (v : Bool) : (s.setDecimalMode v).programBank = s.programBank := rfl
@[simp] theorem State.setDecimalMode_stackPtr (v : Bool) : (s.setDecimalMode v).stackPtr = s.stackPtr := rfl
@[simp] theorem State.setDecimalMode_pc (v : Bool) : (s.setDecimalMode v).pc = s.pc := rfl
@[simp] theorem State.setDecimalMode_emuMode (v : Bool) : (s.setDecimalMode v).emuMode = s.emuMode := rfl
@[simp] theorem State.setDecimalMode_neg (v : Bool) : (s.setDecimalMode v).neg = s.neg := rfl
@[simp] theorem State.setDecimalMode_overflow (v : Bool) : (s.setDecimalMode v).overflow = s.overflow := rfl
@[simp] theorem State.setDecimalMode_carry (v : Bool) : (s.setDecimalMode v).carry = s.carry := rfl
@[simp] theorem State.setDecimalMode_zero (v : Bool) : (s.setDecimalMode v).zero = s.zero := rfl
@[simp] theorem State.setDecimalMode_irqDisable (v : Bool) : (s.setDecimalMode v).irqDisable = s.irqDisable := rfl
@[simp] theorem State.setDecimalMode_decimalMode (v : Bool) : (s.setDecimalMode v).decimalMode = v := rfl
@[simp] theorem State.setDecimalMode_memory (v : Bool) : (s.setDecimalMode v).memory = s.memory := rfl

@[simp] theorem State.setMemory_config (v : Memory) : (s.setMemory v).config = s.config := rfl
@[simp] theorem State.setMemory_acc (v : Memory) : (s.setMemory v).acc = s.acc := rfl
@[simp] theorem State.setMemory_accSize (v : Memory) : (s.setMemory v).accSize = s.accSize := rfl
@[simp] theorem State.setMemory_x (v : Memory) : (s.setMemory v).x = s.x := rfl
@[simp] theorem State.setMemory_y (v : Memory) : (s.setMemory v).y = s.y := rfl
@[simp] theorem State.setMemory_indexSize (v : Memory) : (s.setMemory v).indexSize = s.indexSize := rfl
@[simp] theorem State.setMemory_dataBank (v : Memory) : (s.setMemory v).dataBank = s.dataBank := rfl
@[simp] theorem State.setMemory_directPage (v : Memory) : (s.setMemory v).directPage = s.directPage := rfl
@[simp] theorem State.setMemory_programBank (v : Memory) : (s.setMemory v).programBank = s.programBank := rfl
@[simp] theorem State.setMemory_stackPtr (v : Memory) : (s.setMemory v).stackPtr = s.stackPtr := rfl
@[simp] theorem State.setMemory_pc (v : Memory) : (s.setMemory v).pc = s.pc := rfl
@[simp] theorem State.setMemory_emuMode (v : Memory) : (s.setMemory v).emuMode = s.emuMode := rfl
@[simp] theorem State.setMemory_neg (v : Memory) : (s.setMemory v).neg = s.neg := rfl
@[simp] theorem State.setMemory_overflow (v : Memory) : (s.setMemory v).overflow = s.overflow := rfl
@[simp] theorem State.setMemory_carry (v : Memory) : (s.setMemory v).carry = s.carry := rfl
@[simp] theorem State.setMemory_zero (v : Memory) : (s.setMemory v).zero = s.zero := rfl
@[simp] theorem State.setMemory_irqDisable (v : Memory) : (s.setMemory v).irqDisable = s.irqDisable := rfl
@[simp] theorem State.setMemory_decimalMode (v : Memory) : (s.setMemory v).decimalMode = s.decimalMode := rfl
@[simp] theorem State.setMemory_memory (v : Memory) : (s.setMemory v).memory = v := rfl

end

end Sys2Proof.Machine
end

