-- ==== Sys2Proof/Laws/Memory.lean ====
section
/-! SUPPORT. Laws of the byte order, of the byte store and of MemRead and MemWrite (20_memory.md R61 to R65). -/

namespace Sys2Proof

/-! ## Byte order -/

@[simp] theorem leBytes_length (n v : Nat) : (leBytes n v).length = n := by
  induction n generalizing v with
  | zero => rfl
  | succ n ih => simp [leBytes, ih]

theorem leValue_lt (bs : List Byte) : leValue bs < 2 ^ (8 * bs.length) := by
  induction bs with
  | nil => simp [leValue]
  | cons b bs ih =>
    have hb := b.isLt
    simp only [leValue, List.length_cons]
    rw [show 8 * (bs.length + 1) = 8 * bs.length + 8 by ring, pow_add]
    omega

theorem leValue_leBytes (n v : Nat) : leValue (leBytes n v) = v % 2 ^ (8 * n) := by
  induction n generalizing v with
  | zero => simp [leBytes, leValue, Nat.mod_one]
  | succ n ih =>
    simp only [leBytes, leValue, ih, BitVec.toNat_ofNat]
    rw [show 8 * (n + 1) = 8 + 8 * n by ring, pow_add, Nat.mod_mul]
    rfl

theorem leBytes_leValue (bs : List Byte) : leBytes bs.length (leValue bs) = bs := by
  induction bs with
  | nil => rfl
  | cons b bs ih =>
    have hb := b.isLt
    have h1 : (b.toNat + 0x100 * leValue bs) / 0x100 = leValue bs := by omega
    simp only [leValue, List.length_cons, leBytes, h1, ih, List.cons.injEq, and_true]
    apply BitVec.eq_of_toNat_eq
    simp only [BitVec.toNat_ofNat]
    omega

/-- Byte `k` of a value (20_memory.md R64). -/
theorem leBytes_getD (n v k : Nat) (h : k < n) : (leBytes n v).getD k 0 = BitVec.ofNat 8 (v / 2 ^ (8 * k)) := by
  induction n generalizing v k with
  | zero => omega
  | succ n ih =>
    cases k with
    | zero => simp [leBytes]
    | succ k =>
      simp only [leBytes, List.getD_cons_succ, ih (v / 0x100) k (by omega)]
      rw [Nat.div_div_eq_div_mul, show 8 * (k + 1) = 8 + 8 * k by ring, pow_add]
      norm_num

namespace Machine

/-! ## Reading and writing one byte -/

@[simp] theorem Memory.read_nil (a : Nat) : Memory.read [] a = 0 := rfl

theorem Memory.read_without (m : Memory) (a x : Nat) : (m.without a).read x = if x = a then 0 else m.read x := by
  induction m with
  | nil => simp [Memory.without]
  | cons c m ih =>
    have he : Memory.without (c :: m) a = if c.1 = a then Memory.without m a else c :: Memory.without m a := by
      by_cases hc : c.1 = a <;> simp [Memory.without, hc]
    rw [he]
    by_cases hc : c.1 = a
    · rw [if_pos hc, ih]
      by_cases hx : x = a
      · simp [hx]
      · simp [hx, Memory.read, hc, Ne.symm hx]
    · rw [if_neg hc]
      by_cases hx : x = a
      · subst hx; simpa [Memory.read, hc] using ih
      · simp [Memory.read, ih, hx]

theorem Memory.read_place (m : Memory) (a : Nat) (b : Byte) (x : Nat) (hm : ∀ c ∈ m, c.1 ≠ a) :
    (m.place a b).read x = if x = a then b else m.read x := by
  induction m with
  | nil => simp [Memory.place, Memory.read, eq_comm]
  | cons c m ih =>
    have hc : c.1 ≠ a := hm c (by simp)
    have ih := ih fun d hd => hm d (by simp [hd])
    unfold Memory.place
    split
    · by_cases hx : x = a
      · simp [Memory.read, hx]
      · simp [Memory.read, hx, Ne.symm hx]
    · simp only [Memory.read, ih]
      by_cases hx : x = a
      · simp [hx, hc]
      · simp [hx]

theorem Memory.not_mem_without (m : Memory) (a : Nat) : ∀ c ∈ m.without a, c.1 ≠ a := by
  simp [Memory.without]

/-- A write is seen at its address and nowhere else. -/
@[simp] theorem Memory.read_write (m : Memory) (a : Nat) (b : Byte) (x : Nat) :
    (m.write a b).read x = if x = a then b else m.read x := by
  unfold Memory.write
  split
  · simp [Memory.read_without, *]
  · rw [Memory.read_place _ _ _ _ (m.not_mem_without a), Memory.read_without]
    split <;> rfl

/-! ## The canonical form -/

@[simp] theorem Memory.wf_nil : Memory.Wf [] := by simp [Memory.Wf]

theorem Memory.wf_without {m : Memory} (h : m.Wf) (a : Nat) : (m.without a).Wf :=
  ⟨h.1.filter _, fun c hc => h.2 c (List.mem_filter.1 hc).1⟩

theorem Memory.mem_place {m : Memory} {a : Nat} {b : Byte} {c : Host.Cell} (h : c ∈ m.place a b) :
    c = (a, b) ∨ c ∈ m := by
  induction m with
  | nil => simpa [Memory.place] using h
  | cons d m ih =>
    unfold Memory.place at h
    split at h
    · simpa using h
    · rcases List.mem_cons.1 h with h | h
      · exact .inr (by simp [h])
      · exact (ih h).imp_right fun h => by simp [h]

theorem Memory.wf_place {m : Memory} (h : m.Wf) {a : Nat} {b : Byte} (hm : ∀ c ∈ m, c.1 ≠ a) (hb : b ≠ 0) :
    (m.place a b).Wf := by
  refine ⟨?_, fun c hc => (Memory.mem_place hc).elim (fun e => by rw [e]; exact hb) (h.2 c)⟩
  induction m with
  | nil => simp [Memory.place]
  | cons d m ih =>
    have hd : d.1 ≠ a := hm d (by simp)
    have hp := List.pairwise_cons.1 h.1
    unfold Memory.place
    split
    · rename_i hlt
      refine List.pairwise_cons.2 ⟨fun c hc => ?_, h.1⟩
      rcases List.mem_cons.1 hc with rfl | hc
      · exact hlt
      · exact lt_trans hlt (hp.1 c hc)
    · rename_i hge
      refine List.pairwise_cons.2 ⟨fun c hc => ?_, ih ⟨hp.2, fun c hc => h.2 c (by simp [hc])⟩
        fun c hc => hm c (by simp [hc])⟩
      rcases Memory.mem_place hc with rfl | hc
      · simp only; omega
      · exact hp.1 c hc

/-- A write keeps the canonical form. -/
theorem Memory.wf_write {m : Memory} (h : m.Wf) (a : Nat) (b : Byte) : (m.write a b).Wf := by
  unfold Memory.write
  split
  · exact Memory.wf_without h a
  · exact Memory.wf_place (Memory.wf_without h a) (m.not_mem_without a) ‹_›

theorem Memory.below_write {m : Memory} {size a : Nat} (h : m.Below size) (ha : a < size) (b : Byte) :
    (m.write a b).Below size := by
  have he : (m.without a).Below size := fun c hc => h c (List.mem_filter.1 hc).1
  unfold Memory.write
  split
  · exact he
  · exact fun c hc => (Memory.mem_place hc).elim (fun e => by simpa [e] using ha) (he c)

theorem Memory.read_eq_zero_of_lt {m : Memory} {a : Nat} (h : ∀ c ∈ m, a < c.1) : m.read a = 0 := by
  induction m with
  | nil => rfl
  | cons c m ih =>
    have : c.1 ≠ a := by have := h c (by simp); omega
    simp [Memory.read, this, ih fun d hd => h d (by simp [hd])]

/-- Equal memories are equal data: in canonical form the bytes determine the list. -/
theorem Memory.ext_of_read {m₁ m₂ : Memory} (h₁ : m₁.Wf) (h₂ : m₂.Wf) (h : ∀ a, m₁.read a = m₂.read a) : m₁ = m₂ := by
  induction m₁ generalizing m₂ with
  | nil =>
    cases m₂ with
    | nil => rfl
    | cons d m₂ => exact absurd (by simpa [Memory.read] using h d.1) (h₂.2 d (by simp)).symm
  | cons c m₁ ih =>
    have hc := List.pairwise_cons.1 h₁.1
    cases m₂ with
    | nil => exact absurd (by simpa [Memory.read] using h c.1) (h₁.2 c (by simp))
    | cons d m₂ =>
      have hd := List.pairwise_cons.1 h₂.1
      have hc0 := h₁.2 c (by simp)
      have hd0 := h₂.2 d (by simp)
      have e1 : c.1 = d.1 := by
        rcases lt_trichotomy c.1 d.1 with hlt | he | hgt
        · have h0 : Memory.read (d :: m₂) c.1 = 0 := Memory.read_eq_zero_of_lt fun e he => by
            rcases List.mem_cons.1 he with rfl | he
            · exact hlt
            · exact lt_trans hlt (hd.1 e he)
          exact absurd ((by simpa [Memory.read] using h c.1 : c.2 = _).trans h0) hc0
        · exact he
        · have h0 : Memory.read (c :: m₁) d.1 = 0 := Memory.read_eq_zero_of_lt fun e he => by
            rcases List.mem_cons.1 he with rfl | he
            · exact hgt
            · exact lt_trans hgt (hc.1 e he)
          exact absurd ((by simpa [Memory.read] using (h d.1).symm : d.2 = _).trans h0) hd0
      have e2 : c.2 = d.2 := by simpa [Memory.read, e1] using h c.1
      have hrest : ∀ a, Memory.read m₁ a = Memory.read m₂ a := fun a => by
        by_cases ha : c.1 = a
        · rw [Memory.read_eq_zero_of_lt fun e he => ha ▸ hc.1 e he,
            Memory.read_eq_zero_of_lt fun e he => ha ▸ e1 ▸ hd.1 e he]
        · simpa [Memory.read, ha, e1 ▸ ha] using h a
      rw [Prod.ext e1 e2, ih ⟨hc.2, fun e he => h₁.2 e (by simp [he])⟩ ⟨hd.2, fun e he => h₂.2 e (by simp [he])⟩ hrest]

/-! ## Several bytes -/

@[simp] theorem Memory.bytes_length (m : Memory) (a n : Nat) : (m.bytes a n).length = n := by
  induction n generalizing a with
  | zero => rfl
  | succ n ih => simp [Memory.bytes, ih]

/-- The `i`-th of some bytes is the byte at `a + i` (20_memory.md R63). -/
theorem Memory.bytes_getElem? (m : Memory) (a n i : Nat) (h : i < n) : (m.bytes a n)[i]? = some (m.read (a + i)) := by
  induction n generalizing a i with
  | zero => omega
  | succ n ih =>
    cases i with
    | zero => simp [Memory.bytes]
    | succ i =>
      simp only [Memory.bytes, List.getElem?_cons_succ]
      rw [ih (a + 1) i (by omega)]
      congr 2
      omega

/-- Two stores that agree on a range give the same bytes. -/
theorem Memory.bytes_congr {m₁ m₂ : Memory} {a n : Nat} (h : ∀ x, a ≤ x → x < a + n → m₁.read x = m₂.read x) :
    m₁.bytes a n = m₂.bytes a n := by
  induction n generalizing a with
  | zero => rfl
  | succ n ih =>
    simp only [Memory.bytes]
    rw [h a (by omega) (by omega), ih fun x h₁ h₂ => h x (by omega) (by omega)]

theorem Memory.read_writeBytes (m : Memory) (a : Nat) (bs : List Byte) (x : Nat) :
    (m.writeBytes a bs).read x = if a ≤ x ∧ x < a + bs.length then bs.getD (x - a) 0 else m.read x := by
  induction bs generalizing m a with
  | nil => simp [Memory.writeBytes]
  | cons b bs ih =>
    simp only [Memory.writeBytes, ih, Memory.read_write, List.length_cons]
    by_cases hx : x = a
    · subst hx; simp
    · by_cases h : a ≤ x ∧ x < a + (bs.length + 1)
      · have h' : a + 1 ≤ x ∧ x < a + 1 + bs.length := by omega
        rw [if_pos h', if_pos h, show x - a = (x - (a + 1)) + 1 by omega]
        simp
      · have h' : ¬(a + 1 ≤ x ∧ x < a + 1 + bs.length) := by omega
        rw [if_neg h', if_neg h, if_neg hx]

/-- Outside the bytes written, every byte reads as before. -/
theorem Memory.read_writeBytes_of_outside (m : Memory) (a : Nat) (bs : List Byte) (x : Nat)
    (h : x < a ∨ a + bs.length ≤ x) : (m.writeBytes a bs).read x = m.read x := by
  rw [Memory.read_writeBytes, if_neg (by omega)]

theorem Memory.wf_writeBytes {m : Memory} (h : m.Wf) (a : Nat) (bs : List Byte) : (m.writeBytes a bs).Wf := by
  induction bs generalizing m a with
  | nil => exact h
  | cons b bs ih => exact ih (Memory.wf_write h a b) (a + 1)

theorem Memory.below_writeBytes {m : Memory} {size a : Nat} {bs : List Byte} (h : m.Below size)
    (ha : a + bs.length ≤ size) : (m.writeBytes a bs).Below size := by
  induction bs generalizing m a with
  | nil => exact h
  | cons b bs ih =>
    simp only [List.length_cons] at ha
    exact ih (Memory.below_write h (by omega) b) (by omega)

/-- Reading back what was written gives the bytes written. -/
theorem Memory.bytes_writeBytes (m : Memory) (a : Nat) (bs : List Byte) : (m.writeBytes a bs).bytes a bs.length = bs := by
  apply List.ext_getElem?
  intro i
  by_cases hi : i < bs.length
  · rw [Memory.bytes_getElem? _ _ _ _ hi, Memory.read_writeBytes, if_pos (by omega)]
    simp [hi]
  · rw [List.getElem?_eq_none (by simpa using hi), List.getElem?_eq_none (by omega)]

/-- Writing back the bytes that stand there changes nothing. -/
theorem Memory.writeBytes_bytes {m : Memory} (h : m.Wf) (a n : Nat) : m.writeBytes a (m.bytes a n) = m := by
  apply Memory.ext_of_read (Memory.wf_writeBytes h _ _) h
  intro x
  rw [Memory.read_writeBytes]
  split
  · rename_i hx
    rw [Memory.bytes_length] at hx
    rw [List.getD_eq_getElem?_getD, Memory.bytes_getElem? _ _ _ _ (by omega)]
    simp only [Option.getD_some]
    rw [Nat.add_sub_cancel' hx.1]
  · rfl

/-! ## MemRead and MemWrite -/

/-- All that `memRead` can do. -/
theorem memRead_cases (s : State) (a n : Nat) :
    (a + n ≤ s.config.memSize ∧ memRead s a n = .ok (leValue (s.memory.bytes a n))) ∨
    (s.config.memSize < a + n ∧ memRead s a n = .error (.memoryBounds (max a s.config.memSize))) := by
  unfold memRead
  split
  · exact .inl ⟨‹_›, rfl⟩
  · exact .inr ⟨by omega, rfl⟩

theorem memRead_of_le {s : State} {a n : Nat} (h : a + n ≤ s.config.memSize) :
    memRead s a n = .ok (leValue (s.memory.bytes a n)) := if_pos h

theorem memRead_of_lt {s : State} {a n : Nat} (h : s.config.memSize < a + n) :
    memRead s a n = .error (.memoryBounds (max a s.config.memSize)) := if_neg (by omega)

theorem memRead_ok_iff {s : State} {a n v : Nat} :
    memRead s a n = .ok v ↔ a + n ≤ s.config.memSize ∧ v = leValue (s.memory.bytes a n) := by
  rcases memRead_cases s a n with ⟨h, e⟩ | ⟨h, e⟩ <;> rw [e]
  · simp [h, eq_comm]
  · simp; omega

/-- A value read is below `2^(8n)` (20_memory.md R63). -/
theorem memRead_lt {s : State} {a n v : Nat} (h : memRead s a n = .ok v) : v < 2 ^ (8 * n) := by
  have := leValue_lt (s.memory.bytes a n)
  rw [Memory.bytes_length] at this
  rwa [(memRead_ok_iff.1 h).2]

/-- All that `memWrite` can do. -/
theorem memWrite_cases (s : State) (a n v : Nat) :
    (a + n ≤ s.config.memSize ∧ memWrite s a n v = .ok (s.setMemory (s.memory.writeBytes a (leBytes n v)))) ∨
    (s.config.memSize < a + n ∧ memWrite s a n v = .error (.memoryBounds (max a s.config.memSize))) := by
  unfold memWrite
  split
  · exact .inl ⟨‹_›, rfl⟩
  · exact .inr ⟨by omega, rfl⟩

theorem memWrite_of_le {s : State} {a n v : Nat} (h : a + n ≤ s.config.memSize) :
    memWrite s a n v = .ok (s.setMemory (s.memory.writeBytes a (leBytes n v))) := if_pos h

theorem memWrite_ok_iff {s t : State} {a n v : Nat} :
    memWrite s a n v = .ok t ↔ a + n ≤ s.config.memSize ∧ t = s.setMemory (s.memory.writeBytes a (leBytes n v)) := by
  rcases memWrite_cases s a n v with ⟨h, e⟩ | ⟨h, e⟩ <;> rw [e]
  · simp [h, eq_comm]
  · simp; omega

end Machine

end Sys2Proof
end

