-- ==== Sys2Proof/Laws/Ops.lean ====
section
/-! SUPPORT. What the accessors and the ALU helpers do, in arithmetic: widths, masks, sign bits, one-place shifts, increment and
decrement. -/

namespace Sys2Proof.Machine

/-! ## Masks and ranges -/

theorem rangeOf_pos (w : Width) : 0 < rangeOf w := by cases w <;> decide

theorem rangeOf_le (w : Width) : rangeOf w ≤ 0x10000 := by cases w <;> decide

theorem and_mask_toNat (v : Word) (w : Width) : (v &&& mask w).toNat = v.toNat % rangeOf w := by
  cases w
  · exact Nat.and_two_pow_sub_one_eq_mod v.toNat 8
  · exact Nat.and_two_pow_sub_one_eq_mod v.toNat 16

/-- A masked value lies within the width. -/
theorem and_mask_lt (v : Word) (w : Width) : (v &&& mask w).toNat < rangeOf w := by
  rw [and_mask_toNat]
  exact Nat.mod_lt _ (rangeOf_pos w)

theorem and_mask_of_lt {v : Word} {w : Width} (h : v.toNat < rangeOf w) : v &&& mask w = v :=
  BitVec.eq_of_toNat_eq (by rw [and_mask_toNat, Nat.mod_eq_of_lt h])

/-- The mask of the 16-bit width changes nothing. -/
@[simp] theorem and_mask_bit16 (v : Word) : v &&& mask .bit16 = v := and_mask_of_lt v.isLt

theorem rdAcc_lt (s : State) : (rdAcc s).toNat < rangeOf (accW s) := and_mask_lt _ _

theorem rdX_lt (s : State) : (rdX s).toNat < rangeOf (idxW s) := and_mask_lt _ _

theorem rdY_lt (s : State) : (rdY s).toNat < rangeOf (idxW s) := and_mask_lt _ _

theorem or_lt_rangeOf {a b : Word} {w : Width} (ha : a.toNat < rangeOf w) (hb : b.toNat < rangeOf w) :
    (a ||| b).toNat < rangeOf w := by
  rw [BitVec.toNat_or]
  cases w
  · exact Nat.or_lt_two_pow (n := 8) ha hb
  · exact Nat.or_lt_two_pow (n := 16) ha hb

theorem and_lt_rangeOf {a b : Word} {w : Width} (ha : a.toNat < rangeOf w) : (a &&& b).toNat < rangeOf w := by
  rw [BitVec.toNat_and]
  exact lt_of_le_of_lt Nat.and_le_left ha

/-! ## Sign bits -/

theorem and_twoPow_ne_zero (v : Word) (i : Nat) (h : i < 16) : (v &&& BitVec.twoPow 16 i != 0) = v.getLsbD i := by
  rw [BitVec.and_twoPow]
  cases v.getLsbD i
  · rfl
  · have : BitVec.twoPow 16 i ≠ 0 := fun e => by
      have := congrArg BitVec.toNat e
      rw [BitVec.toNat_twoPow_of_lt h] at this
      exact absurd this (by simp)
    simpa using this

/-- The sign test reads bit 7 or bit 15 (40_alu_helpers.md R120). -/
theorem negativeOf_eq (v : Word) (w : Width) : negativeOf v w = topBit w v := by
  cases w
  · exact and_twoPow_ne_zero v 7 (by decide)
  · exact and_twoPow_ne_zero v 15 (by decide)

/-- The overflow test reads bit 6 or bit 14 (40_alu_helpers.md R121). -/
theorem overflow_eq (v : Word) (w : Width) : (v &&& overflowBit w != 0) = nextBit w v := by
  cases w
  · exact and_twoPow_ne_zero v 6 (by decide)
  · exact and_twoPow_ne_zero v 14 (by decide)

theorem signTest_eq (v : Word) (w : Width) : (v &&& signBit w != 0) = topBit w v := negativeOf_eq v w

@[simp] theorem checkFlags_negative (v : Word) (w : Width) : (checkFlagsForValue v w).negative = topBit w v :=
  negativeOf_eq v w

@[simp] theorem checkFlags_overflow (v : Word) (w : Width) : (checkFlagsForValue v w).overflow = nextBit w v :=
  overflow_eq v w

@[simp] theorem checkFlags_zero (v : Word) (w : Width) : (checkFlagsForValue v w).zero = decide (v = 0) := by
  simp [checkFlagsForValue, beq_eq_decide]

/-- `neg` and `zero` from a value, and nothing else. -/
theorem setNZ_eq (s : State) (v : Word) (w : Width) :
    setNZ s v w = { s with neg := topBit w v, zero := decide (v = 0) } := by
  simp [setNZ, State.setNeg, State.setZero]

/-! ## One-place shifts, increment, decrement -/

theorem topBit_iff {v : Word} {w : Width} (h : v.toNat < rangeOf w) : topBit w v = decide (rangeOf w / 2 ≤ v.toNat) := by
  cases w
  · show v.getLsbD 7 = decide (0x80 ≤ v.toNat)
    have h : v.toNat < 0x100 := h
    rw [BitVec.getLsbD, Nat.testBit_eq_decide_div_mod_eq]
    simp only [decide_eq_decide]
    omega
  · show v.getLsbD 15 = decide (0x8000 ≤ v.toNat)
    have h := v.isLt
    rw [BitVec.getLsbD, Nat.testBit_eq_decide_div_mod_eq]
    simp only [decide_eq_decide]
    omega

theorem rotate_left_toNat {v : Word} {w : Width} (h : v.toNat < rangeOf w) :
    (rotate v w .left).1.toNat = 2 * v.toNat % rangeOf w := by
  simp only [rotate, and_mask_toNat, BitVec.toNat_shiftLeft, Nat.shiftLeft_eq]
  cases w <;> simp only [rangeOf] at * <;> omega

theorem rotate_right_toNat (v : Word) (w : Width) : (rotate v w .right).1.toNat = v.toNat / 2 := by
  simp [rotate, Nat.shiftRight_eq_div_pow]

theorem rotate_left_snd (v : Word) (w : Width) : (rotate v w .left).2 = topBit w v := signTest_eq v w

theorem rotate_right_snd (v : Word) (w : Width) : (rotate v w .right).2 = v.getLsbD 0 :=
  and_twoPow_ne_zero v 0 (by decide)

theorem or_eq_add_of_lt {a b k : Nat} (ha : a < 2 ^ k) (b' : Bool) (hb : b = 2 ^ k * b'.toNat) : a ||| b = a + b := by
  rw [hb, Nat.or_comm, ← Nat.two_pow_add_eq_or_of_lt ha, Nat.add_comm]

theorem carryIn_toNat (op : ShiftOp) (w : Width) (c : Bool) :
    (carryIn w c op).toNat = match op with
      | .asl => 0
      | .lsr => 0
      | .rol => c.toNat
      | .ror => c.toNat * (rangeOf w / 2) := by
  cases op <;> cases w <;> cases c <;> rfl

/-- The shared shift in arithmetic, on a value within the width (45_shift_rotate.md R261). -/
theorem shiftValue_fst {v : Word} {w : Width} (h : v.toNat < rangeOf w) (op : ShiftOp) (c : Bool) :
    (shiftValue op v w c).1 = shifted op w v c := by
  have hr := rangeOf_le w
  apply BitVec.eq_of_toNat_eq
  simp only [shiftValue, BitVec.toNat_or, carryIn_toNat]
  cases op
  · simp only [shiftDirection, rotate_left_toNat h, shifted, BitVec.toNat_ofNat, Nat.or_zero]
    have := Nat.mod_lt (2 * v.toNat) (rangeOf_pos w)
    omega
  · simp only [shiftDirection, rotate_left_toNat h, shifted, BitVec.toNat_ofNat]
    have h1 := Nat.mod_lt (2 * v.toNat) (rangeOf_pos w)
    have hev : 2 * v.toNat % rangeOf w = 2 * (2 * v.toNat % rangeOf w / 2) := by cases w <;> simp only [rangeOf] <;> omega
    have hor : 2 * v.toNat % rangeOf w ||| c.toNat = 2 * v.toNat % rangeOf w + c.toNat := by
      rw [hev, show 2 * (2 * v.toNat % rangeOf w / 2) = 2 ^ 1 * (2 * v.toNat % rangeOf w / 2) by ring]
      exact (Nat.two_pow_add_eq_or_of_lt (by cases c <;> decide) _).symm
    rw [hor]
    have := c.toNat_lt
    cases w <;> simp only [rangeOf] at * <;> omega
  · simp only [shiftDirection, rotate_right_toNat, shifted, BitVec.toNat_ofNat, Nat.or_zero]
    omega
  · simp only [shiftDirection, rotate_right_toNat, shifted, BitVec.toNat_ofNat]
    cases w
    · have hor : v.toNat / 2 ||| c.toNat * 0x80 = v.toNat / 2 + c.toNat * 0x80 :=
        or_eq_add_of_lt (k := 7) (by simp only [rangeOf] at h; omega) c (by ring)
      have := c.toNat_lt
      simp only [rangeOf] at *
      rw [show 0x100 / 2 = 0x80 from rfl, hor]
      omega
    · have hor : v.toNat / 2 ||| c.toNat * 0x8000 = v.toNat / 2 + c.toNat * 0x8000 :=
        or_eq_add_of_lt (k := 15) (by simp only [rangeOf] at h; omega) c (by ring)
      have := c.toNat_lt
      simp only [rangeOf] at *
      rw [show 0x10000 / 2 = 0x8000 from rfl, hor]
      omega

theorem shiftValue_snd (v : Word) (w : Width) (op : ShiftOp) (c : Bool) :
    (shiftValue op v w c).2 = shiftedOut op w v := by
  cases op
  · exact rotate_left_snd v w
  · exact rotate_left_snd v w
  · exact rotate_right_snd v w
  · exact rotate_right_snd v w

/-- The result of a shift lies within the width. -/
theorem shifted_lt {v : Word} {w : Width} (h : v.toNat < rangeOf w) (op : ShiftOp) (c : Bool) :
    (shifted op w v c).toNat < rangeOf w := by
  have := c.toNat_lt
  have := rangeOf_pos w
  cases op <;> cases w <;> simp only [shifted, BitVec.toNat_ofNat, rangeOf] at * <;> omega

theorem increment_toNat (v : Word) (w : Width) : (increment v w).toNat = (v.toNat + 1) % rangeOf w := by
  simp only [increment, and_mask_toNat, BitVec.toNat_add]
  cases w <;> simp only [rangeOf] <;> simp

/-- Decrement on a value within the width (46_inc_dec.md R292: "Both arms equal `(value - 1) mod 2^width`"). -/
theorem decrement_toNat {v : Word} {w : Width} (h : v.toNat < rangeOf w) :
    (decrement v w).toNat = (v.toNat + (rangeOf w - 1)) % rangeOf w := by
  unfold decrement
  split
  · rename_i hz
    rw [eq_of_beq hz]
    cases w <;> rfl
  · rename_i hz
    have hz : v.toNat ≠ 0 := fun e => hz (beq_iff_eq.2 (BitVec.eq_of_toNat_eq e))
    simp only [and_mask_toNat, BitVec.toNat_sub]
    cases w <;> simp only [rangeOf] at * <;> simp <;> omega

/-! ## Register writes -/

theorem wrAcc_eq (s : State) (v : Word) : wrAcc s v = { s with acc := narrowWrite s.config (accW s) s.acc v } := rfl

theorem wrX_eq (s : State) (v : Word) : wrX s v = { s with x := narrowWrite s.config (idxW s) s.x v } := rfl

theorem wrY_eq (s : State) (v : Word) : wrY s v = { s with y := narrowWrite s.config (idxW s) s.y v } := rfl

/-- The observed part of a narrow write is the value written (10_state.md R33). -/
theorem narrowWrite_and_mask (c : Config) (w : Width) (r v : Word) : narrowWrite c w r v &&& mask w = v &&& mask w := by
  rcases c with ⟨_, _ | _⟩ <;> cases w <;> simp only [narrowWrite, mask] <;> ext i hi <;> interval_cases i <;> simp

end Sys2Proof.Machine
end

