-- ==== Sys2Proof/Laws/Operands.lean ====
section
/-! SUPPORT. What the addressing-mode unit does: one lemma per composite of an address, and all that `fetch` and `store` can
do for the operand of an instruction. -/

namespace Sys2Proof.Machine

/-! ## Address arithmetic -/

theorem zext_toNat {m n : Nat} (v : BitVec m) (h : m ≤ n) : (zext n v).toNat = v.toNat :=
  BitVec.toNat_setWidth_of_le h

theorem bank_or_toNat (b : Byte) (a : Word) : (zext 24 b <<< 16 ||| zext 24 a).toNat = inBank b a.toNat := by
  have hb := b.isLt
  have ha := a.isLt
  rw [BitVec.toNat_or, BitVec.toNat_shiftLeft, zext_toNat _ (by decide), zext_toNat _ (by decide), Nat.shiftLeft_eq,
    Nat.mod_eq_of_lt (by omega), Nat.mul_comm, ← Nat.two_pow_add_eq_or_of_lt (by omega), inBank]
  ring

/-- A 16-bit offset in a bank never carries into the bank byte (41_addressing_modes.md R140). -/
theorem absoluteOffset_toNat (b : Byte) (a : Word) : (absoluteOffset b a).toNat = inBank b a.toNat := bank_or_toNat b a

theorem effPC_toNat (s : State) : (effPC s).toNat = inBank s.programBank s.pc.toNat := bank_or_toNat _ _

theorem inBank_lt (b : Byte) (a : Word) : inBank b a.toNat < 0x1000000 := by
  have hb := b.isLt
  have ha := a.isLt
  simp only [inBank]
  omega

theorem indexed_x_toNat (e : Addr) (s : State) : (indexed e s .x).toNat = plusX s e.toNat := by
  simp [indexed, indexValue, plusX]

theorem indexed_y_toNat (e : Addr) (s : State) : (indexed e s .y).toNat = plusY s e.toNat := by
  simp [indexed, indexValue, plusY]

theorem word2_eq (s : State) (a : Nat) : leValue (s.memory.bytes a 2) = word2 s a := by
  simp [Memory.bytes, leValue, word2]

theorem word3_eq (s : State) (a : Nat) : leValue (s.memory.bytes a 3) = word3 s a := by
  simp [Memory.bytes, leValue, word3, word2]
  ring

theorem word2_lt (s : State) (a : Nat) : word2 s a < 0x10000 := by
  have h1 := (s.memory.read a).isLt
  have h2 := (s.memory.read (a + 1)).isLt
  simp only [word2]
  omega

theorem word3_lt (s : State) (a : Nat) : word3 s a < 0x1000000 := by
  have h1 := word2_lt s a
  have h2 := (s.memory.read (a + 2)).isLt
  simp only [word3]
  omega

/-! ## Addresses of modes -/

/-- The mode has an effective address in this state, and it is `a`. -/
def AddressIs (m : AddrMode) (o : Addr) (s : State) (a : Nat) : Prop := ∃ e, m.address o s = .ok e ∧ e.toNat = a

theorem addressIs_absolute (o : Word) (s : State) :
    AddressIs (.absolute .data) (zext 24 o) s (inBank s.dataBank o.toNat) :=
  ⟨_, rfl, by rw [absoluteOffset_toNat]; simp⟩

theorem addressIs_long (o : Addr) (s : State) : AddressIs (.absolute .long) (zext 24 o) s o.toNat := ⟨_, rfl, by simp⟩

theorem addressIs_direct (o : Byte) (s : State) : AddressIs .directPage (zext 24 o) s (directAddr s o) :=
  ⟨_, rfl, by
    have := o.isLt
    simp [calcOffset, directAddr]
    omega⟩

theorem addressIs_stack (o : Byte) (s : State) : AddressIs .stack (zext 24 o) s (stackAddr s o) :=
  ⟨_, rfl, by
    have := o.isLt
    simp [calcOffset, stackAddr]
    omega⟩

theorem AddressIs.indexed_x {m : AddrMode} {o : Addr} {s : State} {a : Nat} (h : AddressIs m o s a) :
    AddressIs (.indexed m .x) o s (plusX s a) := by
  obtain ⟨e, he, rfl⟩ := h
  exact ⟨indexed e s .x, by simp [AddrMode.address, he, Except.map], indexed_x_toNat e s⟩

theorem AddressIs.indexed_y {m : AddrMode} {o : Addr} {s : State} {a : Nat} (h : AddressIs m o s a) :
    AddressIs (.indexed m .y) o s (plusY s a) := by
  obtain ⟨e, he, rfl⟩ := h
  exact ⟨indexed e s .y, by simp [AddrMode.address, he, Except.map], indexed_y_toNat e s⟩

theorem AddressIs.indirect {m : AddrMode} {o : Addr} {s : State} {a : Nat} (h : AddressIs m o s a) (hp : Present s a 2) :
    AddressIs (.indirect m .data) o s (inBank s.dataBank (word2 s a)) := by
  obtain ⟨e, he, rfl⟩ := h
  have hlt := word2_lt s e.toNat
  refine ⟨absoluteOffset s.dataBank (BitVec.ofNat 16 (word2 s e.toNat)), ?_, ?_⟩
  · simp only [AddrMode.address, he, Except.bind, readIndirect, memRead_of_le hp, Except.map, word2_eq]
    congr 2
    apply BitVec.eq_of_toNat_eq
    simp
  · rw [absoluteOffset_toNat, BitVec.toNat_ofNat, Nat.mod_eq_of_lt hlt]

theorem AddressIs.indirect_long {m : AddrMode} {o : Addr} {s : State} {a : Nat} (h : AddressIs m o s a)
    (hp : Present s a 3) : AddressIs (.indirect m .long) o s (word3 s a) := by
  obtain ⟨e, he, rfl⟩ := h
  refine ⟨BitVec.ofNat 24 (word3 s e.toNat), ?_, ?_⟩
  · simp only [AddrMode.address, he, Except.bind, readIndirect, memRead_of_le hp, Except.map, word3_eq]
  · rw [BitVec.toNat_ofNat, Nat.mod_eq_of_lt (word3_lt s e.toNat)]

/-- The mode's pointer is not there: its address stops at the lowest missing byte. -/
def AddressStops (m : AddrMode) (o : Addr) (s : State) (a : Nat) : Prop :=
  m.address o s = .error (.memoryBounds (max a s.config.memSize))

theorem AddressIs.indirect_stops {m : AddrMode} {o : Addr} {s : State} {a : Nat} (h : AddressIs m o s a)
    (hp : ¬Present s a 2) : AddressStops (.indirect m .data) o s a := by
  obtain ⟨e, he, rfl⟩ := h
  simp only [AddressStops, AddrMode.address, he, Except.bind, readIndirect, memRead_of_lt (Nat.lt_of_not_le hp), Except.map]

theorem AddressIs.indirect_long_stops {m : AddrMode} {o : Addr} {s : State} {a : Nat} (h : AddressIs m o s a)
    (hp : ¬Present s a 3) : AddressStops (.indirect m .long) o s a := by
  obtain ⟨e, he, rfl⟩ := h
  simp only [AddressStops, AddrMode.address, he, Except.bind, readIndirect, memRead_of_lt (Nat.lt_of_not_le hp), Except.map]

theorem AddressStops.indexed {m : AddrMode} {o : Addr} {s : State} {a : Nat} (h : AddressStops m o s a) (r : IndexReg) :
    AddressStops (.indexed m r) o s a := by
  have h : m.address o s = _ := h
  simp only [AddressStops, AddrMode.address, h, Except.map]

/-! ## Data -/

theorem datumAt_eq (s : State) (a : Nat) :
    BitVec.ofNat 16 (leValue (s.memory.bytes a (accW s).nbytes)) = datumAt s a := by
  unfold datumAt
  have h1 := (s.memory.read a).isLt
  have h2 := (s.memory.read (a + 1)).isLt
  cases accW s
  · apply BitVec.eq_of_toNat_eq
    simp [Width.nbytes, Memory.bytes, leValue]
  · apply BitVec.eq_of_toNat_eq
    simp only [Width.nbytes, Memory.bytes, leValue, BitVec.toNat_ofNat, BitVec.toNat_append]
    rw [Nat.shiftLeft_eq, Nat.mul_comm _ (2 ^ 8), ← Nat.two_pow_add_eq_or_of_lt h1]
    omega

/-- A datum lies within the accumulator's width (41_addressing_modes.md R156). -/
theorem datumAt_lt (s : State) (a : Nat) : (datumAt s a).toNat < rangeOf (accW s) := by
  unfold datumAt
  have h1 := (s.memory.read a).isLt
  cases accW s
  · simp only [rangeOf, zext_toNat (s.memory.read a) (show 8 ≤ 16 by decide)]
    omega
  · exact BitVec.isLt _

theorem fetchData_of_present {m : AddrMode} {o : Addr} {s : State} {a : Nat} (h : AddressIs m o s a)
    (hp : Present s a (accW s).nbytes) : m.fetchData o s = .ok (datumAt s a) := by
  obtain ⟨e, he, rfl⟩ := h
  simp only [AddrMode.fetchData, he, Except.bind, memRead_of_le hp, Except.map, datumAt_eq]

theorem fetchData_of_absent {m : AddrMode} {o : Addr} {s : State} {a : Nat} (h : AddressIs m o s a)
    (hp : ¬Present s a (accW s).nbytes) : m.fetchData o s = .error (.memoryBounds (max a s.config.memSize)) := by
  obtain ⟨e, he, rfl⟩ := h
  simp only [AddrMode.fetchData, he, Except.bind, memRead_of_lt (Nat.lt_of_not_le hp), Except.map]

theorem fetchData_of_stops {m : AddrMode} {o : Addr} {s : State} {a : Nat} (h : AddressStops m o s a) :
    m.fetchData o s = .error (.memoryBounds (max a s.config.memSize)) := by
  have h : m.address o s = _ := h
  simp only [AddrMode.fetchData, h, Except.bind]

theorem storedAt_writeBytes (s : State) (a : Nat) (v : Word) :
    StoredAt s (s.memory.writeBytes a (leBytes (accW s).nbytes v.toNat)) a v := by
  intro b
  rw [Memory.read_writeBytes, leBytes_length]
  cases accW s
  · by_cases hb : b = a
    · subst hb
      simp [Width.nbytes, leBytes]
    · rw [if_neg (by simp only [Width.nbytes]; omega), if_neg hb, if_neg (by simp)]
  · by_cases hb : b = a
    · subst hb
      simp [Width.nbytes, leBytes]
    · by_cases hb' : b = a + 1
      · subst hb'
        simp only [Width.nbytes, show a ≤ a + 1 ∧ a + 1 < a + 2 by omega, and_self, if_true,
          show ¬(a + 1 = a) by omega, if_false, show a + 1 - a = 1 by omega]
        apply BitVec.eq_of_toNat_eq
        simp [leBytes, Nat.shiftRight_eq_div_pow]
      · have : ¬(a ≤ b ∧ b < a + 2) := by omega
        simp [Width.nbytes, this, hb, hb']

theorem storeData_of_present {m : AddrMode} {o : Addr} {s : State} {a : Nat} (h : AddressIs m o s a)
    (hp : Present s a (accW s).nbytes) (v : Word) :
    m.storeData o v s = .ok (s.setMemory (s.memory.writeBytes a (leBytes (accW s).nbytes v.toNat))) := by
  obtain ⟨e, he, rfl⟩ := h
  simp only [AddrMode.storeData, he, Except.bind, memWrite_of_le hp]

/-! ## The operand of an instruction -/

/-- How the operand of instruction `i` is reached: by an immediate, a register, or a memory mode whose address is
`dataAddr`, behind a pointer or not. -/
inductive Source (s : State) (i : Instr) (o : Addr) : AddrMode → Prop
  | immediate (hp : pointerOf s i = none) (hd : dataAddr s i = none) : Source s i o .immediate
  | register (r : Reg) (hp : pointerOf s i = none) (hd : dataAddr s i = none) : Source s i o (.register r)
  | memory (m : AddrMode) (a : Nat) (hf : m.fetch o s = m.fetchData o s) (hs : ∀ v, m.store o v s = m.storeData o v s)
      (hw : m.width s = accW s) (hd : dataAddr s i = some a)
      (hp : pointerOf s i = none ∧ AddressIs m o s a ∨
        ∃ p, pointerOf s i = some p ∧ (Present s p.1 p.2 → AddressIs m o s a) ∧
          (¬Present s p.1 p.2 → AddressStops m o s p.1)) : Source s i o m

/-- Where a memory operand's instruction is ready, its mode has the flat address and the datum is there. -/
theorem Source.address {s : State} {i : Instr} {o : Addr} {m : AddrMode} (h : Source s i o m) {a : Nat}
    (hd : dataAddr s i = some a) (hr : Ready s i) :
    AddressIs m o s a ∧ Present s a (accW s).nbytes ∧ m.fetch o s = m.fetchData o s ∧
      (∀ v, m.store o v s = m.storeData o v s) ∧ m.width s = accW s := by
  cases h with
  | immediate _ hn => simp [hn] at hd
  | register _ _ hn => simp [hn] at hd
  | memory _ b hf hs hw hb hp =>
    obtain rfl : b = a := by simpa [hb] using hd
    refine ⟨?_, hr.2 _ hd, hf, hs, hw⟩
    rcases hp with ⟨_, ha⟩ | ⟨p, hp, ha, _⟩
    · exact ha
    · exact ha (hr.1 p hp)

/-- Fetch through memory, ready. -/
theorem Source.fetch_memory {s : State} {i : Instr} {o : Addr} {m : AddrMode} (h : Source s i o m) {a : Nat}
    (hd : dataAddr s i = some a) (hr : Ready s i) : m.fetch o s = .ok (datumAt s a) := by
  obtain ⟨ha, hp, hf, _⟩ := h.address hd hr
  rw [hf, fetchData_of_present ha hp]

/-- Store through memory, ready. -/
theorem Source.store_memory {s : State} {i : Instr} {o : Addr} {m : AddrMode} (h : Source s i o m) {a : Nat}
    (hd : dataAddr s i = some a) (hr : Ready s i) (v : Word) :
    m.store o v s = .ok (s.setMemory (s.memory.writeBytes a (leBytes (accW s).nbytes v.toNat))) := by
  obtain ⟨ha, hp, _, hs, _⟩ := h.address hd hr
  rw [hs, storeData_of_present ha hp]

/-- The lowest byte an instruction needs and memory does not have: of its pointer if that is missing, of its datum
otherwise. -/
def firstMissing (s : State) (i : Instr) : Nat :=
  match pointerOf s i with
  | some p => if Present s p.1 p.2 then max ((dataAddr s i).getD 0) s.config.memSize else max p.1 s.config.memSize
  | none => max ((dataAddr s i).getD 0) s.config.memSize

theorem firstMissing_ge (s : State) (i : Instr) : s.config.memSize ≤ firstMissing s i := by
  unfold firstMissing
  split
  · split <;> exact Nat.le_max_right _ _
  · exact Nat.le_max_right _ _

/-- All that `fetch` can do for an instruction's operand: the datum where its bytes exist, and otherwise the fault that names
the first missing byte. -/
theorem Source.fetch_cases {s : State} {i : Instr} {o : Addr} {m : AddrMode} (h : Source s i o m) :
    (Ready s i ∧ ∃ d, m.fetch o s = .ok d ∧ d.toNat < rangeOf (m.width s)) ∨
    (¬Ready s i ∧ m.fetch o s = .error (.memoryBounds (firstMissing s i))) := by
  cases h with
  | immediate hp hd => exact .inl ⟨by simp [Ready, hp, hd], _, rfl, and_mask_lt _ _⟩
  | register r hp hd =>
    refine .inl ⟨by simp [Ready, hp, hd], _, rfl, ?_⟩
    cases r
    · exact rdAcc_lt s
    · exact rdX_lt s
    · exact rdY_lt s
  | memory _ a hf hs hw hd hp =>
    rw [hf, hw]
    rcases hp with ⟨hp, ha⟩ | ⟨p, hp, ha, hs⟩
    · by_cases hpr : Present s a (accW s).nbytes
      · exact .inl ⟨by simpa [Ready, hp, hd] using hpr, _, fetchData_of_present ha hpr, datumAt_lt s a⟩
      · refine .inr ⟨fun hr => hpr (hr.2 a hd), ?_⟩
        rw [fetchData_of_absent ha hpr]
        simp [firstMissing, hp, hd]
    · by_cases hpp : Present s p.1 p.2
      · by_cases hpr : Present s a (accW s).nbytes
        · exact .inl ⟨by simpa [Ready, hp, hd] using ⟨hpp, hpr⟩, _, fetchData_of_present (ha hpp) hpr, datumAt_lt s a⟩
        · refine .inr ⟨fun hr => hpr (hr.2 a hd), ?_⟩
          rw [fetchData_of_absent (ha hpp) hpr]
          simp [firstMissing, hp, hd, hpp]
      · refine .inr ⟨fun hr => hpp (hr.1 p hp), ?_⟩
        rw [fetchData_of_stops (hs hpp)]
        simp only [firstMissing, hp, if_neg hpp]

/-- All that `store` can do where the operand's bytes exist: nothing, a register, or the datum's bytes. -/
theorem Source.store_cases {s : State} {i : Instr} {o : Addr} {m : AddrMode} (h : Source s i o m) (hr : Ready s i)
    (v : Word) : ∃ t, m.store o v s = .ok t ∧
      (m = .immediate ∧ t = s ∨ (∃ r, m = .register r ∧ t = writeReg s v r) ∨
        ∃ a, dataAddr s i = some a ∧ t = s.setMemory (s.memory.writeBytes a (leBytes (accW s).nbytes v.toNat))) := by
  have h' := h
  cases h with
  | immediate hp hd => exact ⟨s, rfl, .inl ⟨rfl, rfl⟩⟩
  | register r hp hd => exact ⟨_, rfl, .inr (.inl ⟨r, rfl, rfl⟩)⟩
  | memory _ a hf hs hw hd hp => exact ⟨_, h'.store_memory hd hr v, .inr (.inr ⟨a, hd, rfl⟩)⟩

theorem source_abs {s : State} {i : Instr} {o16 : Word} (hp : pointerOf s i = none)
    (hd : dataAddr s i = some (inBank s.dataBank o16.toNat)) : Source s i (zext 24 o16) (.absolute .data) :=
  .memory _ _ rfl (fun _ => rfl) rfl hd (.inl ⟨hp, addressIs_absolute _ s⟩)

theorem source_long {s : State} {i : Instr} {o24 : Addr} (hp : pointerOf s i = none)
    (hd : dataAddr s i = some (o24.toNat)) : Source s i (zext 24 o24) (.absolute .long) :=
  .memory _ _ rfl (fun _ => rfl) rfl hd (.inl ⟨hp, addressIs_long _ s⟩)

theorem source_dp {s : State} {i : Instr} {o8 : Byte} (hp : pointerOf s i = none)
    (hd : dataAddr s i = some (directAddr s o8)) : Source s i (zext 24 o8) .directPage :=
  .memory _ _ rfl (fun _ => rfl) rfl hd (.inl ⟨hp, addressIs_direct _ s⟩)

theorem source_absX {s : State} {i : Instr} {o16 : Word} (hp : pointerOf s i = none)
    (hd : dataAddr s i = some (plusX s (inBank s.dataBank o16.toNat))) : Source s i (zext 24 o16) (.indexed (.absolute .data) .x) :=
  .memory _ _ rfl (fun _ => rfl) rfl hd (.inl ⟨hp, (addressIs_absolute _ s).indexed_x⟩)

theorem source_longX {s : State} {i : Instr} {o24 : Addr} (hp : pointerOf s i = none)
    (hd : dataAddr s i = some (plusX s o24.toNat)) : Source s i (zext 24 o24) (.indexed (.absolute .long) .x) :=
  .memory _ _ rfl (fun _ => rfl) rfl hd (.inl ⟨hp, (addressIs_long _ s).indexed_x⟩)

theorem source_absY {s : State} {i : Instr} {o16 : Word} (hp : pointerOf s i = none)
    (hd : dataAddr s i = some (plusY s (inBank s.dataBank o16.toNat))) : Source s i (zext 24 o16) (.indexed (.absolute .data) .y) :=
  .memory _ _ rfl (fun _ => rfl) rfl hd (.inl ⟨hp, (addressIs_absolute _ s).indexed_y⟩)

theorem source_dpX {s : State} {i : Instr} {o8 : Byte} (hp : pointerOf s i = none)
    (hd : dataAddr s i = some (plusX s (directAddr s o8))) : Source s i (zext 24 o8) (.indexed .directPage .x) :=
  .memory _ _ rfl (fun _ => rfl) rfl hd (.inl ⟨hp, (addressIs_direct _ s).indexed_x⟩)

theorem source_sr {s : State} {i : Instr} {o8 : Byte} (hp : pointerOf s i = none)
    (hd : dataAddr s i = some (stackAddr s o8)) : Source s i (zext 24 o8) .stack :=
  .memory _ _ rfl (fun _ => rfl) rfl hd (.inl ⟨hp, addressIs_stack _ s⟩)

theorem source_dpInd {s : State} {i : Instr} {o8 : Byte} (hp : pointerOf s i = some (directAddr s o8, 2))
    (hd : dataAddr s i = some (inBank s.dataBank (word2 s (directAddr s o8)))) : Source s i (zext 24 o8) (.indirect .directPage .data) :=
  .memory _ _ rfl (fun _ => rfl) rfl hd (.inr ⟨_, hp, fun h => (addressIs_direct _ s).indirect h,
    fun h => (addressIs_direct _ s).indirect_stops h⟩)

theorem source_dpIndLong {s : State} {i : Instr} {o8 : Byte} (hp : pointerOf s i = some (directAddr s o8, 3))
    (hd : dataAddr s i = some (word3 s (directAddr s o8))) : Source s i (zext 24 o8) (.indirect .directPage .long) :=
  .memory _ _ rfl (fun _ => rfl) rfl hd (.inr ⟨_, hp, fun h => (addressIs_direct _ s).indirect_long h,
    fun h => (addressIs_direct _ s).indirect_long_stops h⟩)

theorem source_dpXInd {s : State} {i : Instr} {o8 : Byte} (hp : pointerOf s i = some (plusX s (directAddr s o8), 2))
    (hd : dataAddr s i = some (inBank s.dataBank (word2 s (plusX s (directAddr s o8))))) : Source s i (zext 24 o8) (.indirect (.indexed .directPage .x) .data) :=
  .memory _ _ rfl (fun _ => rfl) rfl hd (.inr ⟨_, hp, fun h => (addressIs_direct _ s).indexed_x.indirect h,
    fun h => (addressIs_direct _ s).indexed_x.indirect_stops h⟩)

theorem source_dpIndY {s : State} {i : Instr} {o8 : Byte} (hp : pointerOf s i = some (directAddr s o8, 2))
    (hd : dataAddr s i = some (plusY s (inBank s.dataBank (word2 s (directAddr s o8))))) : Source s i (zext 24 o8) (.indexed (.indirect .directPage .data) .y) :=
  .memory _ _ rfl (fun _ => rfl) rfl hd (.inr ⟨_, hp, fun h => ((addressIs_direct _ s).indirect h).indexed_y,
    fun h => ((addressIs_direct _ s).indirect_stops h).indexed _⟩)

theorem source_dpIndLongY {s : State} {i : Instr} {o8 : Byte} (hp : pointerOf s i = some (directAddr s o8, 3))
    (hd : dataAddr s i = some (plusY s (word3 s (directAddr s o8)))) : Source s i (zext 24 o8) (.indexed (.indirect .directPage .long) .y) :=
  .memory _ _ rfl (fun _ => rfl) rfl hd (.inr ⟨_, hp, fun h => ((addressIs_direct _ s).indirect_long h).indexed_y,
    fun h => ((addressIs_direct _ s).indirect_long_stops h).indexed _⟩)

theorem source_srIndY {s : State} {i : Instr} {o8 : Byte} (hp : pointerOf s i = some (stackAddr s o8, 2))
    (hd : dataAddr s i = some (plusY s (inBank s.dataBank (word2 s (stackAddr s o8))))) : Source s i (zext 24 o8) (.indexed (.indirect .stack .data) .y) :=
  .memory _ _ rfl (fun _ => rfl) rfl hd (.inr ⟨_, hp, fun h => ((addressIs_stack _ s).indirect h).indexed_y,
    fun h => ((addressIs_stack _ s).indirect_stops h).indexed _⟩)

/-- How every addressed instruction reaches its operand. -/
theorem source_of_instance (s : State) {i : Instr} {mn : String} {m : AddrMode} {o : Addr} {mods : List CycleMod}
    {pre : Option IndexReg} {st : Bool} (h : instanceOf i = .addressed mn m o mods pre st) : Source s i o m := by
  cases i <;> simp only [instanceOf, Instance.addressed.injEq, reduceCtorEq] at h <;> obtain ⟨_, rfl, rfl, _⟩ := h <;>
    first
    | exact .immediate rfl rfl
    | exact .register _ rfl rfl
    | exact source_abs rfl rfl
    | exact source_long rfl rfl
    | exact source_dp rfl rfl
    | exact source_absX rfl rfl
    | exact source_longX rfl rfl
    | exact source_absY rfl rfl
    | exact source_dpX rfl rfl
    | exact source_sr rfl rfl
    | exact source_dpInd rfl rfl
    | exact source_dpIndLong rfl rfl
    | exact source_dpXInd rfl rfl
    | exact source_dpIndY rfl rfl
    | exact source_dpIndLongY rfl rfl
    | exact source_srIndY rfl rfl

end Sys2Proof.Machine
end

