-- ==== Sys2Proof/Laws/Exec.lean ====
section
/-! SUPPORT. What executing an instruction can do: one lemma per shared operation, then one inversion lemma for `exec`. -/

namespace Sys2Proof.Machine

/-! ## The shared operations, from what they fetch and store -/

section
variable {m : AddrMode} {o : Addr} {s : State}

theorem finish_next_iff {r : Except Fault State} {t : State} : finish r = .next t ↔ r = .ok t := by
  cases r <;> simp [finish]

theorem finish_fault_iff {r : Except Fault State} {f : Fault} : finish r = .fault f ↔ r = .error f := by
  cases r <;> simp [finish]

theorem finish_ne_refused (r : Except Fault State) (x : Refusal) : finish r ≠ .refused x := by
  cases r <;> simp [finish]

/-- ORA and AND, from the datum (43_logical_ora_and.md R201). -/
theorem execLogical_of_fetch {d : Word} (h : m.fetch o s = .ok d) (op : LogicalOp) :
    execLogical op m o s = .ok { s with
      acc := narrowWrite s.config (accW s) s.acc (op.apply (rdAcc s) d)
      neg := topBit (accW s) (op.apply (rdAcc s) d)
      zero := decide (op.apply (rdAcc s) d = 0) } := by
  simp only [execLogical, h, Except.map, setNZ_eq, wrAcc_eq]

/-- BIT, from the datum (44_bit_trb_tsb.md R241). -/
theorem execBit_of_fetch {d : Word} (h : m.fetch o s = .ok d) :
    execBit m o s = .ok { s with
      neg := topBit (accW s) d
      overflow := nextBit (accW s) d
      zero := decide (rdAcc s &&& d = 0) } := by
  simp only [execBit, h, Except.map, checkFlags_negative, checkFlags_overflow, State.setNeg, State.setOverflow,
    State.setZero, beq_eq_decide]

/-- TRB and TSB, from the datum and the store (44_bit_trb_tsb.md R242, R243). -/
theorem execTestStore_of_fetch {d : Word} {u : State} {f : Width → Word → Word → Word} (h : m.fetch o s = .ok d)
    (hs : m.store o (f (accW s) (rdAcc s) d) s = .ok u) :
    execTestStore f m o s = .ok { u with zero := decide (rdAcc s &&& d = 0) } := by
  simp only [execTestStore, h, Except.bind, hs, Except.map, State.setZero, beq_eq_decide]

/-- The shifts and rotates, from the value and the store (45_shift_rotate.md R261). -/
theorem execShift_of_fetch {d : Word} {u : State} {op : ShiftOp} (h : m.fetch o s = .ok d)
    (hlt : d.toNat < rangeOf (accW s)) (hs : m.store o (shifted op (accW s) d s.carry) s = .ok u) :
    execShift op m o s = .ok { u with
      neg := topBit (accW s) (shifted op (accW s) d s.carry)
      zero := decide (shifted op (accW s) d s.carry = 0)
      carry := shiftedOut op (accW s) d } := by
  simp only [execShift, h, Except.bind, shiftValue_fst hlt, hs, Except.map, setNZ_eq, State.setCarry, shiftValue_snd]

/-- Increment and decrement, from the value and the store (46_inc_dec.md R291, R292). -/
theorem execIncDec_of_fetch {d : Word} {u : State} {f : Word → Width → Word} (h : m.fetch o s = .ok d)
    (hs : m.store o (f d (m.width s)) s = .ok u) :
    execIncDec f m o s = .ok { u with
      neg := topBit (m.width s) (f d (m.width s))
      zero := decide (f d (m.width s) = 0) } := by
  simp only [execIncDec, h, Except.bind, hs, Except.map, setNZ_eq]

theorem execLogical_of_error {e : Fault} (h : m.fetch o s = .error e) (op : LogicalOp) :
    execLogical op m o s = .error e := by simp only [execLogical, h, Except.map]

theorem execBit_of_error {e : Fault} (h : m.fetch o s = .error e) : execBit m o s = .error e := by
  simp only [execBit, h, Except.map]

theorem execTestStore_of_error {e : Fault} (h : m.fetch o s = .error e) (f : Width → Word → Word → Word) :
    execTestStore f m o s = .error e := by simp only [execTestStore, h, Except.bind]

theorem execShift_of_error {e : Fault} (h : m.fetch o s = .error e) (op : ShiftOp) : execShift op m o s = .error e := by
  simp only [execShift, h, Except.bind]

theorem execIncDec_of_error {e : Fault} (h : m.fetch o s = .error e) (f : Word → Width → Word) :
    execIncDec f m o s = .error e := by simp only [execIncDec, h, Except.bind]

end

/-! ## Which shared operation an instruction runs -/

/-- The twelve processor-status instructions (47_status_ops.md R320). -/
def IsStatus (i : Instr) : Prop := ∃ mn n k mb, instanceOf i = .status mn n k mb

theorem isStatus_iff (i : Instr) : IsStatus i ↔
    i = .clc ∨ i = .sec ∨ i = .cld ∨ i = .sed ∨ i = .sei ∨ i = .cli ∨ i = .clv ∨ i = .nop ∨ i = .xba ∨ i = .xce ∨
      (∃ m, i = .rep m) ∨ ∃ m, i = .sep m := by
  unfold IsStatus
  cases i <;> simp [instanceOf]

/-- The computation an instruction runs, with the way it reaches its operand. -/
inductive Action (s : State) (i : Instr) : Except Fault State → Prop
  | logical (op : LogicalOp) (m : AddrMode) (o : Addr) (src : Source s i o m)
      (hm : mnemonicOf i = "ORA" ∨ mnemonicOf i = "AND") : Action s i (execLogical op m o s)
  | bit (m : AddrMode) (o : Addr) (src : Source s i o m) (hm : mnemonicOf i = "BIT") : Action s i (execBit m o s)
  | testStore (f : Width → Word → Word → Word) (m : AddrMode) (o : Addr) (src : Source s i o m)
      (hm : mnemonicOf i = "TRB" ∨ mnemonicOf i = "TSB") (hd : (dataAddr s i).isSome) :
      Action s i (execTestStore f m o s)
  | shift (op : ShiftOp) (m : AddrMode) (o : Addr) (src : Source s i o m)
      (hm : mnemonicOf i = "ASL" ∨ mnemonicOf i = "ROL" ∨ mnemonicOf i = "LSR" ∨ mnemonicOf i = "ROR")
      (hr : m = .register .acc ∧ (i = .aslA ∨ i = .rolA ∨ i = .lsrA ∨ i = .rorA) ∨ (dataAddr s i).isSome) :
      Action s i (execShift op m o s)
  | incDec (f : Word → Width → Word) (m : AddrMode) (o : Addr) (src : Source s i o m)
      (hf : f = increment ∨ f = decrement)
      (hr : m = .register .acc ∧ (i = .incA ∨ i = .decA) ∨ m = .register .x ∧ (i = .inx ∨ i = .dex) ∨
        m = .register .y ∧ (i = .iny ∨ i = .dey) ∨
        (dataAddr s i).isSome ∧ (mnemonicOf i = "INC" ∨ mnemonicOf i = "DEC")) : Action s i (execIncDec f m o s)
  | status (t : State) (hi : IsStatus i) (ht : exec i s = .next t) : Action s i (.ok t)

theorem exec_status {i : Instr} (h : IsStatus i) (s : State) : ∃ t, exec i s = .next t := by
  rcases (isStatus_iff i).1 h with rfl | rfl | rfl | rfl | rfl | rfl | rfl | rfl | rfl | rfl | ⟨m, rfl⟩ | ⟨m, rfl⟩
  case inr.inr.inr.inr.inr.inr.inr.inr.inr.inl =>
    simp only [exec, execXce]
    split <;> exact ⟨_, rfl⟩
  all_goals exact ⟨_, rfl⟩

/-- Every instruction runs one of the shared operations, or is a processor-status instruction. -/
theorem exec_action (i : Instr) (s : State) : ∃ r, Action s i r ∧ exec i s = finish r := by
  by_cases hst : IsStatus i
  · obtain ⟨t, ht⟩ := exec_status hst s
    exact ⟨.ok t, .status t hst ht, ht⟩
  · cases i with
    | oraImm imm => exact ⟨_, .logical _ _ _ (source_of_instance s rfl) (.inl rfl), rfl⟩
    | oraAbs o16 => exact ⟨_, .logical _ _ _ (source_of_instance s rfl) (.inl rfl), rfl⟩
    | oraLong o24 => exact ⟨_, .logical _ _ _ (source_of_instance s rfl) (.inl rfl), rfl⟩
    | oraDp o8 => exact ⟨_, .logical _ _ _ (source_of_instance s rfl) (.inl rfl), rfl⟩
    | oraDpInd o8 => exact ⟨_, .logical _ _ _ (source_of_instance s rfl) (.inl rfl), rfl⟩
    | oraDpIndLong o8 => exact ⟨_, .logical _ _ _ (source_of_instance s rfl) (.inl rfl), rfl⟩
    | oraAbsX o16 => exact ⟨_, .logical _ _ _ (source_of_instance s rfl) (.inl rfl), rfl⟩
    | oraLongX o24 => exact ⟨_, .logical _ _ _ (source_of_instance s rfl) (.inl rfl), rfl⟩
    | oraAbsY o16 => exact ⟨_, .logical _ _ _ (source_of_instance s rfl) (.inl rfl), rfl⟩
    | oraDpX o8 => exact ⟨_, .logical _ _ _ (source_of_instance s rfl) (.inl rfl), rfl⟩
    | oraDpXInd o8 => exact ⟨_, .logical _ _ _ (source_of_instance s rfl) (.inl rfl), rfl⟩
    | oraDpIndY o8 => exact ⟨_, .logical _ _ _ (source_of_instance s rfl) (.inl rfl), rfl⟩
    | oraDpIndLongY o8 => exact ⟨_, .logical _ _ _ (source_of_instance s rfl) (.inl rfl), rfl⟩
    | oraSr o8 => exact ⟨_, .logical _ _ _ (source_of_instance s rfl) (.inl rfl), rfl⟩
    | oraSrIndY o8 => exact ⟨_, .logical _ _ _ (source_of_instance s rfl) (.inl rfl), rfl⟩
    | andImm imm => exact ⟨_, .logical _ _ _ (source_of_instance s rfl) (.inr (rfl)), rfl⟩
    | andAbs o16 => exact ⟨_, .logical _ _ _ (source_of_instance s rfl) (.inr (rfl)), rfl⟩
    | andLong o24 => exact ⟨_, .logical _ _ _ (source_of_instance s rfl) (.inr (rfl)), rfl⟩
    | andDp o8 => exact ⟨_, .logical _ _ _ (source_of_instance s rfl) (.inr (rfl)), rfl⟩
    | andDpInd o8 => exact ⟨_, .logical _ _ _ (source_of_instance s rfl) (.inr (rfl)), rfl⟩
    | andDpIndLong o8 => exact ⟨_, .logical _ _ _ (source_of_instance s rfl) (.inr (rfl)), rfl⟩
    | andAbsX o16 => exact ⟨_, .logical _ _ _ (source_of_instance s rfl) (.inr (rfl)), rfl⟩
    | andLongX o24 => exact ⟨_, .logical _ _ _ (source_of_instance s rfl) (.inr (rfl)), rfl⟩
    | andAbsY o16 => exact ⟨_, .logical _ _ _ (source_of_instance s rfl) (.inr (rfl)), rfl⟩
    | andDpX o8 => exact ⟨_, .logical _ _ _ (source_of_instance s rfl) (.inr (rfl)), rfl⟩
    | andDpXInd o8 => exact ⟨_, .logical _ _ _ (source_of_instance s rfl) (.inr (rfl)), rfl⟩
    | andDpIndY o8 => exact ⟨_, .logical _ _ _ (source_of_instance s rfl) (.inr (rfl)), rfl⟩
    | andDpIndLongY o8 => exact ⟨_, .logical _ _ _ (source_of_instance s rfl) (.inr (rfl)), rfl⟩
    | andSr o8 => exact ⟨_, .logical _ _ _ (source_of_instance s rfl) (.inr (rfl)), rfl⟩
    | andSrIndY o8 => exact ⟨_, .logical _ _ _ (source_of_instance s rfl) (.inr (rfl)), rfl⟩
    | bitImm imm => exact ⟨_, .bit _ _ (source_of_instance s rfl) rfl, rfl⟩
    | bitAbs o16 => exact ⟨_, .bit _ _ (source_of_instance s rfl) rfl, rfl⟩
    | bitDp o8 => exact ⟨_, .bit _ _ (source_of_instance s rfl) rfl, rfl⟩
    | bitAbsX o16 => exact ⟨_, .bit _ _ (source_of_instance s rfl) rfl, rfl⟩
    | bitDpX o8 => exact ⟨_, .bit _ _ (source_of_instance s rfl) rfl, rfl⟩
    | trbAbs o16 => exact ⟨_, .testStore _ _ _ (source_of_instance s rfl) (.inl rfl) rfl, rfl⟩
    | trbDp o8 => exact ⟨_, .testStore _ _ _ (source_of_instance s rfl) (.inl rfl) rfl, rfl⟩
    | tsbAbs o16 => exact ⟨_, .testStore _ _ _ (source_of_instance s rfl) (.inr (rfl)) rfl, rfl⟩
    | tsbDp o8 => exact ⟨_, .testStore _ _ _ (source_of_instance s rfl) (.inr (rfl)) rfl, rfl⟩
    | aslA => exact ⟨_, .shift _ _ _ (source_of_instance s rfl) (.inl rfl) (.inl ⟨rfl, .inl rfl⟩), rfl⟩
    | aslDp o8 => exact ⟨_, .shift _ _ _ (source_of_instance s rfl) (.inl rfl) (.inr rfl), rfl⟩
    | aslAbs o16 => exact ⟨_, .shift _ _ _ (source_of_instance s rfl) (.inl rfl) (.inr rfl), rfl⟩
    | aslDpX o8 => exact ⟨_, .shift _ _ _ (source_of_instance s rfl) (.inl rfl) (.inr rfl), rfl⟩
    | aslAbsX o16 => exact ⟨_, .shift _ _ _ (source_of_instance s rfl) (.inl rfl) (.inr rfl), rfl⟩
    | rolA => exact ⟨_, .shift _ _ _ (source_of_instance s rfl) (.inr (.inl rfl)) (.inl ⟨rfl, .inr (.inl rfl)⟩), rfl⟩
    | rolDp o8 => exact ⟨_, .shift _ _ _ (source_of_instance s rfl) (.inr (.inl rfl)) (.inr rfl), rfl⟩
    | rolAbs o16 => exact ⟨_, .shift _ _ _ (source_of_instance s rfl) (.inr (.inl rfl)) (.inr rfl), rfl⟩
    | rolDpX o8 => exact ⟨_, .shift _ _ _ (source_of_instance s rfl) (.inr (.inl rfl)) (.inr rfl), rfl⟩
    | rolAbsX o16 => exact ⟨_, .shift _ _ _ (source_of_instance s rfl) (.inr (.inl rfl)) (.inr rfl), rfl⟩
    | lsrA => exact ⟨_, .shift _ _ _ (source_of_instance s rfl) (.inr (.inr (.inl rfl))) (.inl ⟨rfl, .inr (.inr (.inl rfl))⟩), rfl⟩
    | lsrDp o8 => exact ⟨_, .shift _ _ _ (source_of_instance s rfl) (.inr (.inr (.inl rfl))) (.inr rfl), rfl⟩
    | lsrAbs o16 => exact ⟨_, .shift _ _ _ (source_of_instance s rfl) (.inr (.inr (.inl rfl))) (.inr rfl), rfl⟩
    | lsrDpX o8 => exact ⟨_, .shift _ _ _ (source_of_instance s rfl) (.inr (.inr (.inl rfl))) (.inr rfl), rfl⟩
    | lsrAbsX o16 => exact ⟨_, .shift _ _ _ (source_of_instance s rfl) (.inr (.inr (.inl rfl))) (.inr rfl), rfl⟩
    | rorA => exact ⟨_, .shift _ _ _ (source_of_instance s rfl) (.inr (.inr (.inr (rfl)))) (.inl ⟨rfl, .inr (.inr (.inr (rfl)))⟩), rfl⟩
    | rorDp o8 => exact ⟨_, .shift _ _ _ (source_of_instance s rfl) (.inr (.inr (.inr (rfl)))) (.inr rfl), rfl⟩
    | rorAbs o16 => exact ⟨_, .shift _ _ _ (source_of_instance s rfl) (.inr (.inr (.inr (rfl)))) (.inr rfl), rfl⟩
    | rorDpX o8 => exact ⟨_, .shift _ _ _ (source_of_instance s rfl) (.inr (.inr (.inr (rfl)))) (.inr rfl), rfl⟩
    | rorAbsX o16 => exact ⟨_, .shift _ _ _ (source_of_instance s rfl) (.inr (.inr (.inr (rfl)))) (.inr rfl), rfl⟩
    | incA => exact ⟨_, .incDec _ _ _ (source_of_instance s rfl) (.inl rfl) (.inl ⟨rfl, .inl rfl⟩), rfl⟩
    | incAbs o16 => exact ⟨_, .incDec _ _ _ (source_of_instance s rfl) (.inl rfl) (.inr (.inr (.inr (⟨rfl, .inl rfl⟩)))), rfl⟩
    | incDp o8 => exact ⟨_, .incDec _ _ _ (source_of_instance s rfl) (.inl rfl) (.inr (.inr (.inr (⟨rfl, .inl rfl⟩)))), rfl⟩
    | incAbsX o16 => exact ⟨_, .incDec _ _ _ (source_of_instance s rfl) (.inl rfl) (.inr (.inr (.inr (⟨rfl, .inl rfl⟩)))), rfl⟩
    | incDpX o8 => exact ⟨_, .incDec _ _ _ (source_of_instance s rfl) (.inl rfl) (.inr (.inr (.inr (⟨rfl, .inl rfl⟩)))), rfl⟩
    | inx => exact ⟨_, .incDec _ _ _ (source_of_instance s rfl) (.inl rfl) (.inr (.inl ⟨rfl, .inl rfl⟩)), rfl⟩
    | iny => exact ⟨_, .incDec _ _ _ (source_of_instance s rfl) (.inl rfl) (.inr (.inr (.inl ⟨rfl, .inl rfl⟩))), rfl⟩
    | decA => exact ⟨_, .incDec _ _ _ (source_of_instance s rfl) (.inr (rfl)) (.inl ⟨rfl, .inr (rfl)⟩), rfl⟩
    | decAbs o16 => exact ⟨_, .incDec _ _ _ (source_of_instance s rfl) (.inr (rfl)) (.inr (.inr (.inr (⟨rfl, .inr (rfl)⟩)))), rfl⟩
    | decDp o8 => exact ⟨_, .incDec _ _ _ (source_of_instance s rfl) (.inr (rfl)) (.inr (.inr (.inr (⟨rfl, .inr (rfl)⟩)))), rfl⟩
    | decAbsX o16 => exact ⟨_, .incDec _ _ _ (source_of_instance s rfl) (.inr (rfl)) (.inr (.inr (.inr (⟨rfl, .inr (rfl)⟩)))), rfl⟩
    | decDpX o8 => exact ⟨_, .incDec _ _ _ (source_of_instance s rfl) (.inr (rfl)) (.inr (.inr (.inr (⟨rfl, .inr (rfl)⟩)))), rfl⟩
    | dex => exact ⟨_, .incDec _ _ _ (source_of_instance s rfl) (.inr (rfl)) (.inr (.inl ⟨rfl, .inr (rfl)⟩)), rfl⟩
    | dey => exact ⟨_, .incDec _ _ _ (source_of_instance s rfl) (.inr (rfl)) (.inr (.inr (.inl ⟨rfl, .inr (rfl)⟩))), rfl⟩
    | _ => exact absurd ⟨_, _, _, _, rfl⟩ hst

/-! ## What an instruction that completes has changed -/

/-- The bytes `v` at the accumulator's width, written at `a`. -/
abbrev stored (s : State) (a : Nat) (v : Word) : Memory := s.memory.writeBytes a (leBytes (accW s).nbytes v.toNat)

/-- All that a completed instruction can have changed, family by family. -/
inductive Effect (s : State) (i : Instr) : State → Prop
  | logical (v : Word) (hm : mnemonicOf i = "ORA" ∨ mnemonicOf i = "AND") :
      Effect s i { s with acc := narrowWrite s.config (accW s) s.acc v, neg := topBit (accW s) v, zero := decide (v = 0) }
  | bit (n v z : Bool) (hm : mnemonicOf i = "BIT") : Effect s i { s with neg := n, overflow := v, zero := z }
  | testStore (a : Nat) (v : Word) (z : Bool) (hd : dataAddr s i = some a) (hp : Present s a (accW s).nbytes)
      (hm : mnemonicOf i = "TRB" ∨ mnemonicOf i = "TSB") :
      Effect s i { s with memory := stored s a v, zero := z }
  | shiftAcc (v : Word) (c : Bool) (hi : i = .aslA ∨ i = .rolA ∨ i = .lsrA ∨ i = .rorA) :
      Effect s i { s with
        acc := narrowWrite s.config (accW s) s.acc v, neg := topBit (accW s) v, zero := decide (v = 0), carry := c }
  | shiftMemory (a : Nat) (v : Word) (c : Bool) (hd : dataAddr s i = some a) (hp : Present s a (accW s).nbytes)
      (hm : mnemonicOf i = "ASL" ∨ mnemonicOf i = "ROL" ∨ mnemonicOf i = "LSR" ∨ mnemonicOf i = "ROR") :
      Effect s i { s with memory := stored s a v, neg := topBit (accW s) v, zero := decide (v = 0), carry := c }
  | countAcc (v : Word) (hi : i = .incA ∨ i = .decA) :
      Effect s i { s with acc := narrowWrite s.config (accW s) s.acc v, neg := topBit (accW s) v, zero := decide (v = 0) }
  | countX (v : Word) (hi : i = .inx ∨ i = .dex) :
      Effect s i { s with x := narrowWrite s.config (idxW s) s.x v, neg := topBit (idxW s) v, zero := decide (v = 0) }
  | countY (v : Word) (hi : i = .iny ∨ i = .dey) :
      Effect s i { s with y := narrowWrite s.config (idxW s) s.y v, neg := topBit (idxW s) v, zero := decide (v = 0) }
  | countMemory (a : Nat) (v : Word) (hd : dataAddr s i = some a) (hp : Present s a (accW s).nbytes)
      (hm : mnemonicOf i = "INC" ∨ mnemonicOf i = "DEC") :
      Effect s i { s with memory := stored s a v, neg := topBit (accW s) v, zero := decide (v = 0) }
  | status (t : State) (hi : IsStatus i) (ht : exec i s = .next t) : Effect s i t

/-- If an instruction completes, its operand's bytes exist (a processor-status instruction has none) and one of these
effects is all it had. -/
theorem exec_effect {i : Instr} {s t : State} (h : exec i s = .next t) : Effect s i t := by
  obtain ⟨r, ha, he⟩ := exec_action i s
  rw [he, finish_next_iff] at h
  cases ha with
  | status u hi ht =>
    obtain rfl : u = t := by simpa using h
    exact .status u hi ht
  | logical op m o src hm =>
    rcases src.fetch_cases with ⟨_, d, hd, _⟩ | ⟨_, hf⟩
    · rw [execLogical_of_fetch hd, Except.ok.injEq] at h
      exact h ▸ .logical _ hm
    · simp [execLogical_of_error hf] at h
  | bit m o src hm =>
    rcases src.fetch_cases with ⟨_, d, hd, _⟩ | ⟨_, hf⟩
    · rw [execBit_of_fetch hd, Except.ok.injEq] at h
      exact h ▸ .bit _ _ _ hm
    · simp [execBit_of_error hf] at h
  | testStore f m o src hm hda =>
    obtain ⟨a, hda⟩ := Option.isSome_iff_exists.1 hda
    rcases src.fetch_cases with ⟨hr, d, hd, _⟩ | ⟨_, hf⟩
    · rw [execTestStore_of_fetch hd (src.store_memory hda hr _), Except.ok.injEq] at h
      exact h ▸ .testStore a _ _ hda (hr.2 a hda) hm
    · simp [execTestStore_of_error hf] at h
  | shift op m o src hm hreg =>
    rcases src.fetch_cases with ⟨hr, d, hd, hlt⟩ | ⟨_, hf⟩
    · rcases hreg with ⟨rfl, hi⟩ | hda
      · rw [execShift_of_fetch hd hlt rfl, Except.ok.injEq] at h
        exact h ▸ .shiftAcc _ _ hi
      · obtain ⟨a, hda⟩ := Option.isSome_iff_exists.1 hda
        rw [(src.address hda hr).2.2.2.2] at hlt
        rw [execShift_of_fetch hd hlt (src.store_memory hda hr _), Except.ok.injEq] at h
        exact h ▸ .shiftMemory a _ _ hda (hr.2 a hda) hm
    · simp [execShift_of_error hf] at h
  | incDec f m o src _ hreg =>
    rcases src.fetch_cases with ⟨hr, d, hd, _⟩ | ⟨_, hf⟩
    · rcases hreg with ⟨rfl, hi⟩ | ⟨rfl, hi⟩ | ⟨rfl, hi⟩ | ⟨hda, hm⟩
      · rw [execIncDec_of_fetch hd rfl, Except.ok.injEq] at h
        exact h ▸ .countAcc _ hi
      · rw [execIncDec_of_fetch hd rfl, Except.ok.injEq] at h
        exact h ▸ .countX _ hi
      · rw [execIncDec_of_fetch hd rfl, Except.ok.injEq] at h
        exact h ▸ .countY _ hi
      · obtain ⟨a, hda⟩ := Option.isSome_iff_exists.1 hda
        rw [execIncDec_of_fetch hd (src.store_memory hda hr _), (src.address hda hr).2.2.2.2, Except.ok.injEq] at h
        exact h ▸ .countMemory a _ hda (hr.2 a hda) hm
    · simp [execIncDec_of_error hf] at h

/-- An instruction that completes had its bytes. -/
theorem ready_of_next {i : Instr} {s t : State} (h : exec i s = .next t) : Ready s i := by
  obtain ⟨r, ha, he⟩ := exec_action i s
  rw [he, finish_next_iff] at h
  subst h
  by_contra hn
  generalize hr : Except.ok t = r at ha
  cases ha with
  | status _ hi _ =>
    refine hn ?_
    rcases (isStatus_iff i).1 hi with rfl | rfl | rfl | rfl | rfl | rfl | rfl | rfl | rfl | rfl | ⟨m, rfl⟩ | ⟨m, rfl⟩ <;>
      simp [Ready, pointerOf, dataAddr]
  | logical _ _ _ src =>
    obtain ⟨hc, _⟩ | ⟨_, hf⟩ := src.fetch_cases
    · exact hn hc
    · simp [execLogical_of_error hf] at hr
  | bit _ _ src =>
    obtain ⟨hc, _⟩ | ⟨_, hf⟩ := src.fetch_cases
    · exact hn hc
    · simp [execBit_of_error hf] at hr
  | testStore _ _ _ src =>
    obtain ⟨hc, _⟩ | ⟨_, hf⟩ := src.fetch_cases
    · exact hn hc
    · simp [execTestStore_of_error hf] at hr
  | shift _ _ _ src =>
    obtain ⟨hc, _⟩ | ⟨_, hf⟩ := src.fetch_cases
    · exact hn hc
    · simp [execShift_of_error hf] at hr
  | incDec _ _ _ src =>
    obtain ⟨hc, _⟩ | ⟨_, hf⟩ := src.fetch_cases
    · exact hn hc
    · simp [execIncDec_of_error hf] at hr

/-! ## The processor-status instructions -/

section
variable (m : Byte) (w : Width) (v : Bool) (s : State)

@[simp] theorem maskWidths_config : (maskWidths m w s).config = s.config := by unfold maskWidths; split <;> rfl
@[simp] theorem maskWidths_acc : (maskWidths m w s).acc = s.acc := by unfold maskWidths; split <;> rfl
@[simp] theorem maskWidths_x : (maskWidths m w s).x = s.x := by unfold maskWidths; split <;> rfl
@[simp] theorem maskWidths_y : (maskWidths m w s).y = s.y := by unfold maskWidths; split <;> rfl
@[simp] theorem maskWidths_dataBank : (maskWidths m w s).dataBank = s.dataBank := by unfold maskWidths; split <;> rfl
@[simp] theorem maskWidths_directPage : (maskWidths m w s).directPage = s.directPage := by unfold maskWidths; split <;> rfl
@[simp] theorem maskWidths_programBank : (maskWidths m w s).programBank = s.programBank := by unfold maskWidths; split <;> rfl
@[simp] theorem maskWidths_stackPtr : (maskWidths m w s).stackPtr = s.stackPtr := by unfold maskWidths; split <;> rfl
@[simp] theorem maskWidths_pc : (maskWidths m w s).pc = s.pc := by unfold maskWidths; split <;> rfl
@[simp] theorem maskWidths_emuMode : (maskWidths m w s).emuMode = s.emuMode := by unfold maskWidths; split <;> rfl
@[simp] theorem maskWidths_neg : (maskWidths m w s).neg = s.neg := by unfold maskWidths; split <;> rfl
@[simp] theorem maskWidths_overflow : (maskWidths m w s).overflow = s.overflow := by unfold maskWidths; split <;> rfl
@[simp] theorem maskWidths_carry : (maskWidths m w s).carry = s.carry := by unfold maskWidths; split <;> rfl
@[simp] theorem maskWidths_zero : (maskWidths m w s).zero = s.zero := by unfold maskWidths; split <;> rfl
@[simp] theorem maskWidths_irqDisable : (maskWidths m w s).irqDisable = s.irqDisable := by unfold maskWidths; split <;> rfl
@[simp] theorem maskWidths_decimalMode : (maskWidths m w s).decimalMode = s.decimalMode := by unfold maskWidths; split <;> rfl
@[simp] theorem maskWidths_memory : (maskWidths m w s).memory = s.memory := by unfold maskWidths; split <;> rfl
@[simp] theorem maskFlags_config : (maskFlags m v s).config = s.config := by simp [maskFlags]
@[simp] theorem maskFlags_acc : (maskFlags m v s).acc = s.acc := by simp [maskFlags]
@[simp] theorem maskFlags_accSize : (maskFlags m v s).accSize = s.accSize := by simp [maskFlags]
@[simp] theorem maskFlags_x : (maskFlags m v s).x = s.x := by simp [maskFlags]
@[simp] theorem maskFlags_y : (maskFlags m v s).y = s.y := by simp [maskFlags]
@[simp] theorem maskFlags_indexSize : (maskFlags m v s).indexSize = s.indexSize := by simp [maskFlags]
@[simp] theorem maskFlags_dataBank : (maskFlags m v s).dataBank = s.dataBank := by simp [maskFlags]
@[simp] theorem maskFlags_directPage : (maskFlags m v s).directPage = s.directPage := by simp [maskFlags]
@[simp] theorem maskFlags_programBank : (maskFlags m v s).programBank = s.programBank := by simp [maskFlags]
@[simp] theorem maskFlags_stackPtr : (maskFlags m v s).stackPtr = s.stackPtr := by simp [maskFlags]
@[simp] theorem maskFlags_pc : (maskFlags m v s).pc = s.pc := by simp [maskFlags]
@[simp] theorem maskFlags_emuMode : (maskFlags m v s).emuMode = s.emuMode := by simp [maskFlags]
@[simp] theorem maskFlags_memory : (maskFlags m v s).memory = s.memory := by simp [maskFlags]

/-- A mask bit tested is that bit of the mask byte (47_status_ops.md R322). -/
theorem and_bit_ne_zero (i : Nat) (h : i < 8) : (m &&& BitVec.twoPow 8 i ≠ 0) ↔ m.getLsbD i = true := by
  rw [BitVec.and_twoPow]
  cases m.getLsbD i
  · simp
  · interval_cases i <;> decide

theorem maskFlag_eq (i : Nat) (h : i < 8) (old : Bool) :
    maskFlag m (BitVec.twoPow 8 i) v old = if m.getLsbD i then v else old := by
  unfold maskFlag
  by_cases hb : m.getLsbD i = true
  · rw [if_pos hb, if_pos (by simpa using (and_bit_ne_zero m i h).2 hb)]
  · rw [if_neg hb, if_neg (by simpa using fun hc => hb ((and_bit_ne_zero m i h).1 hc))]

@[simp] theorem maskFlags_neg : (maskFlags m v s).neg = if m.getLsbD 7 then v else s.neg :=
  maskFlag_eq m v 7 (by decide) s.neg
@[simp] theorem maskFlags_overflow : (maskFlags m v s).overflow = if m.getLsbD 6 then v else s.overflow :=
  maskFlag_eq m v 6 (by decide) s.overflow
@[simp] theorem maskFlags_decimalMode : (maskFlags m v s).decimalMode = if m.getLsbD 3 then v else s.decimalMode :=
  maskFlag_eq m v 3 (by decide) s.decimalMode
@[simp] theorem maskFlags_irqDisable : (maskFlags m v s).irqDisable = if m.getLsbD 2 then v else s.irqDisable :=
  maskFlag_eq m v 2 (by decide) s.irqDisable
@[simp] theorem maskFlags_zero : (maskFlags m v s).zero = if m.getLsbD 1 then v else s.zero :=
  maskFlag_eq m v 1 (by decide) s.zero
@[simp] theorem maskFlags_carry : (maskFlags m v s).carry = if m.getLsbD 0 then v else s.carry :=
  maskFlag_eq m v 0 (by decide) s.carry

@[simp] theorem maskWidths_accSize :
    (maskWidths m w s).accSize = if s.emuMode = .native ∧ m.getLsbD 5 = true then w else s.accSize := by
  have hb : (m &&& 0x20 ≠ 0) ↔ m.getLsbD 5 = true := and_bit_ne_zero m 5 (by decide)
  simp only [← hb]
  unfold maskWidths
  split <;> rename_i h <;> simp [h]

@[simp] theorem maskWidths_indexSize :
    (maskWidths m w s).indexSize = if s.emuMode = .native ∧ m.getLsbD 4 = true then w else s.indexSize := by
  have hb : (m &&& 0x10 ≠ 0) ↔ m.getLsbD 4 = true := and_bit_ne_zero m 4 (by decide)
  simp only [← hb]
  unfold maskWidths
  split <;> rename_i h <;> simp [h]

end

/-- A processor-status instruction leaves the index registers, the banks, `direct_page`, `stack_ptr`, `pc`, the memory and
the parameters alone. -/
theorem exec_status_frame {i : Instr} {s t : State} (hi : IsStatus i) (h : exec i s = .next t) :
    t.config = s.config ∧ t.x = s.x ∧ t.y = s.y ∧ t.dataBank = s.dataBank ∧ t.directPage = s.directPage ∧
      t.programBank = s.programBank ∧ t.stackPtr = s.stackPtr ∧ t.pc = s.pc ∧ t.memory = s.memory := by
  rcases (isStatus_iff i).1 hi with rfl | rfl | rfl | rfl | rfl | rfl | rfl | rfl | rfl | rfl | ⟨m, rfl⟩ | ⟨m, rfl⟩
  case inr.inr.inr.inr.inr.inr.inr.inr.inr.inl =>
    simp only [exec, execXce] at h
    split at h <;> cases h <;> exact ⟨rfl, rfl, rfl, rfl, rfl, rfl, rfl, rfl, rfl⟩
  case inr.inr.inr.inr.inr.inr.inr.inr.inr.inr.inl | inr.inr.inr.inr.inr.inr.inr.inr.inr.inr.inr =>
    obtain rfl := Host.Outcome.next.inj h
    simp
  all_goals
    cases h
    exact ⟨rfl, rfl, rfl, rfl, rfl, rfl, rfl, rfl, rfl⟩

/-! ## The shared operation of an instruction, for all states at once -/

/-- A shared operation with its selector. -/
inductive Kind where
  | logical (op : LogicalOp)
  | bit
  | testStore (f : Width → Word → Word → Word)
  | shift (op : ShiftOp)
  | incDec (f : Word → Width → Word)

/-- What a kind runs. -/
def Kind.run (m : AddrMode) (o : Addr) (s : State) : Kind → Except Fault State
  | .logical op => execLogical op m o s
  | .bit => execBit m o s
  | .testStore f => execTestStore f m o s
  | .shift op => execShift op m o s
  | .incDec f => execIncDec f m o s

/-- One operation, mode and operand serve an instruction in every state, so two states can be compared under it. -/
theorem exec_kind {i : Instr} (h : ¬IsStatus i) : ∃ (k : Kind) (m : AddrMode) (o : Addr) (mn : String)
    (mods : List CycleMod) (pre : Option IndexReg) (st : Bool), instanceOf i = .addressed mn m o mods pre st ∧
      ∀ s, exec i s = finish (k.run m o s) := by
  cases i with
  | oraImm imm => exact ⟨.logical .or, _, _, _, _, _, _, rfl, fun _ => rfl⟩
  | oraAbs o16 => exact ⟨.logical .or, _, _, _, _, _, _, rfl, fun _ => rfl⟩
  | oraLong o24 => exact ⟨.logical .or, _, _, _, _, _, _, rfl, fun _ => rfl⟩
  | oraDp o8 => exact ⟨.logical .or, _, _, _, _, _, _, rfl, fun _ => rfl⟩
  | oraDpInd o8 => exact ⟨.logical .or, _, _, _, _, _, _, rfl, fun _ => rfl⟩
  | oraDpIndLong o8 => exact ⟨.logical .or, _, _, _, _, _, _, rfl, fun _ => rfl⟩
  | oraAbsX o16 => exact ⟨.logical .or, _, _, _, _, _, _, rfl, fun _ => rfl⟩
  | oraLongX o24 => exact ⟨.logical .or, _, _, _, _, _, _, rfl, fun _ => rfl⟩
  | oraAbsY o16 => exact ⟨.logical .or, _, _, _, _, _, _, rfl, fun _ => rfl⟩
  | oraDpX o8 => exact ⟨.logical .or, _, _, _, _, _, _, rfl, fun _ => rfl⟩
  | oraDpXInd o8 => exact ⟨.logical .or, _, _, _, _, _, _, rfl, fun _ => rfl⟩
  | oraDpIndY o8 => exact ⟨.logical .or, _, _, _, _, _, _, rfl, fun _ => rfl⟩
  | oraDpIndLongY o8 => exact ⟨.logical .or, _, _, _, _, _, _, rfl, fun _ => rfl⟩
  | oraSr o8 => exact ⟨.logical .or, _, _, _, _, _, _, rfl, fun _ => rfl⟩
  | oraSrIndY o8 => exact ⟨.logical .or, _, _, _, _, _, _, rfl, fun _ => rfl⟩
  | andImm imm => exact ⟨.logical .and, _, _, _, _, _, _, rfl, fun _ => rfl⟩
  | andAbs o16 => exact ⟨.logical .and, _, _, _, _, _, _, rfl, fun _ => rfl⟩
  | andLong o24 => exact ⟨.logical .and, _, _, _, _, _, _, rfl, fun _ => rfl⟩
  | andDp o8 => exact ⟨.logical .and, _, _, _, _, _, _, rfl, fun _ => rfl⟩
  | andDpInd o8 => exact ⟨.logical .and, _, _, _, _, _, _, rfl, fun _ => rfl⟩
  | andDpIndLong o8 => exact ⟨.logical .and, _, _, _, _, _, _, rfl, fun _ => rfl⟩
  | andAbsX o16 => exact ⟨.logical .and, _, _, _, _, _, _, rfl, fun _ => rfl⟩
  | andLongX o24 => exact ⟨.logical .and, _, _, _, _, _, _, rfl, fun _ => rfl⟩
  | andAbsY o16 => exact ⟨.logical .and, _, _, _, _, _, _, rfl, fun _ => rfl⟩
  | andDpX o8 => exact ⟨.logical .and, _, _, _, _, _, _, rfl, fun _ => rfl⟩
  | andDpXInd o8 => exact ⟨.logical .and, _, _, _, _, _, _, rfl, fun _ => rfl⟩
  | andDpIndY o8 => exact ⟨.logical .and, _, _, _, _, _, _, rfl, fun _ => rfl⟩
  | andDpIndLongY o8 => exact ⟨.logical .and, _, _, _, _, _, _, rfl, fun _ => rfl⟩
  | andSr o8 => exact ⟨.logical .and, _, _, _, _, _, _, rfl, fun _ => rfl⟩
  | andSrIndY o8 => exact ⟨.logical .and, _, _, _, _, _, _, rfl, fun _ => rfl⟩
  | bitImm imm => exact ⟨.bit, _, _, _, _, _, _, rfl, fun _ => rfl⟩
  | bitAbs o16 => exact ⟨.bit, _, _, _, _, _, _, rfl, fun _ => rfl⟩
  | bitDp o8 => exact ⟨.bit, _, _, _, _, _, _, rfl, fun _ => rfl⟩
  | bitAbsX o16 => exact ⟨.bit, _, _, _, _, _, _, rfl, fun _ => rfl⟩
  | bitDpX o8 => exact ⟨.bit, _, _, _, _, _, _, rfl, fun _ => rfl⟩
  | trbAbs o16 => exact ⟨.testStore trbValue, _, _, _, _, _, _, rfl, fun _ => rfl⟩
  | trbDp o8 => exact ⟨.testStore trbValue, _, _, _, _, _, _, rfl, fun _ => rfl⟩
  | tsbAbs o16 => exact ⟨.testStore tsbValue, _, _, _, _, _, _, rfl, fun _ => rfl⟩
  | tsbDp o8 => exact ⟨.testStore tsbValue, _, _, _, _, _, _, rfl, fun _ => rfl⟩
  | aslA => exact ⟨.shift .asl, _, _, _, _, _, _, rfl, fun _ => rfl⟩
  | aslDp o8 => exact ⟨.shift .asl, _, _, _, _, _, _, rfl, fun _ => rfl⟩
  | aslAbs o16 => exact ⟨.shift .asl, _, _, _, _, _, _, rfl, fun _ => rfl⟩
  | aslDpX o8 => exact ⟨.shift .asl, _, _, _, _, _, _, rfl, fun _ => rfl⟩
  | aslAbsX o16 => exact ⟨.shift .asl, _, _, _, _, _, _, rfl, fun _ => rfl⟩
  | rolA => exact ⟨.shift .rol, _, _, _, _, _, _, rfl, fun _ => rfl⟩
  | rolDp o8 => exact ⟨.shift .rol, _, _, _, _, _, _, rfl, fun _ => rfl⟩
  | rolAbs o16 => exact ⟨.shift .rol, _, _, _, _, _, _, rfl, fun _ => rfl⟩
  | rolDpX o8 => exact ⟨.shift .rol, _, _, _, _, _, _, rfl, fun _ => rfl⟩
  | rolAbsX o16 => exact ⟨.shift .rol, _, _, _, _, _, _, rfl, fun _ => rfl⟩
  | lsrA => exact ⟨.shift .lsr, _, _, _, _, _, _, rfl, fun _ => rfl⟩
  | lsrDp o8 => exact ⟨.shift .lsr, _, _, _, _, _, _, rfl, fun _ => rfl⟩
  | lsrAbs o16 => exact ⟨.shift .lsr, _, _, _, _, _, _, rfl, fun _ => rfl⟩
  | lsrDpX o8 => exact ⟨.shift .lsr, _, _, _, _, _, _, rfl, fun _ => rfl⟩
  | lsrAbsX o16 => exact ⟨.shift .lsr, _, _, _, _, _, _, rfl, fun _ => rfl⟩
  | rorA => exact ⟨.shift .ror, _, _, _, _, _, _, rfl, fun _ => rfl⟩
  | rorDp o8 => exact ⟨.shift .ror, _, _, _, _, _, _, rfl, fun _ => rfl⟩
  | rorAbs o16 => exact ⟨.shift .ror, _, _, _, _, _, _, rfl, fun _ => rfl⟩
  | rorDpX o8 => exact ⟨.shift .ror, _, _, _, _, _, _, rfl, fun _ => rfl⟩
  | rorAbsX o16 => exact ⟨.shift .ror, _, _, _, _, _, _, rfl, fun _ => rfl⟩
  | incA => exact ⟨.incDec increment, _, _, _, _, _, _, rfl, fun _ => rfl⟩
  | incAbs o16 => exact ⟨.incDec increment, _, _, _, _, _, _, rfl, fun _ => rfl⟩
  | incDp o8 => exact ⟨.incDec increment, _, _, _, _, _, _, rfl, fun _ => rfl⟩
  | incAbsX o16 => exact ⟨.incDec increment, _, _, _, _, _, _, rfl, fun _ => rfl⟩
  | incDpX o8 => exact ⟨.incDec increment, _, _, _, _, _, _, rfl, fun _ => rfl⟩
  | inx => exact ⟨.incDec increment, _, _, _, _, _, _, rfl, fun _ => rfl⟩
  | iny => exact ⟨.incDec increment, _, _, _, _, _, _, rfl, fun _ => rfl⟩
  | decA => exact ⟨.incDec decrement, _, _, _, _, _, _, rfl, fun _ => rfl⟩
  | decAbs o16 => exact ⟨.incDec decrement, _, _, _, _, _, _, rfl, fun _ => rfl⟩
  | decDp o8 => exact ⟨.incDec decrement, _, _, _, _, _, _, rfl, fun _ => rfl⟩
  | decAbsX o16 => exact ⟨.incDec decrement, _, _, _, _, _, _, rfl, fun _ => rfl⟩
  | decDpX o8 => exact ⟨.incDec decrement, _, _, _, _, _, _, rfl, fun _ => rfl⟩
  | dex => exact ⟨.incDec decrement, _, _, _, _, _, _, rfl, fun _ => rfl⟩
  | dey => exact ⟨.incDec decrement, _, _, _, _, _, _, rfl, fun _ => rfl⟩
  | _ => exact absurd ⟨_, _, _, _, rfl⟩ h

end Sys2Proof.Machine
end

