-- ==== Sys2Proof/Laws/Agree.lean ====
section
/-! SUPPORT. Two states that agree in what operand access reads: `address`, `fetch` and `store` do the same in both. -/

namespace Sys2Proof.Machine

/-- The two states agree in everything that reaching, reading and writing an operand reads. -/
structure Agree (s s' : State) : Prop where
  config : s'.config = s.config
  memory : s'.memory = s.memory
  dataBank : s'.dataBank = s.dataBank
  directPage : s'.directPage = s.directPage
  programBank : s'.programBank = s.programBank
  accW : accW s' = accW s
  idxW : idxW s' = idxW s
  rdAcc : rdAcc s' = rdAcc s
  rdX : rdX s' = rdX s
  rdY : rdY s' = rdY s

/-- A mode that contains `Stack`. -/
def AddrMode.hasStack : AddrMode → Bool
  | .stack => true
  | .indexed base _ => base.hasStack
  | .indirect base _ => base.hasStack
  | .immediate => false
  | .absolute _ => false
  | .directPage => false
  | .register _ => false

section
variable {s s' : State} (h : Agree s s') {m : AddrMode} (hs : m.hasStack = true → s'.stackPtr = s.stackPtr) (o : Addr)
include h

theorem Agree.memRead (a n : Nat) : memRead s' a n = memRead s a n := by
  simp only [Machine.memRead, h.config, h.memory]

theorem Agree.readIndirect (a : Addr) (n : Nat) : readIndirect s' a n = readIndirect s a n := by
  simp only [Machine.readIndirect, h.memRead]

theorem Agree.indexed (a : Addr) (r : IndexReg) : indexed a s' r = indexed a s r := by
  cases r <;> simp only [Machine.indexed, indexValue, h.rdX, h.rdY]

theorem Agree.width : m.width s' = m.width s := by
  cases m with
  | register r => cases r <;> first | exact h.accW | exact h.idxW
  | _ => exact h.accW

include hs

theorem Agree.address : m.address o s' = m.address o s := by
  induction m with
  | immediate => rfl
  | register => rfl
  | absolute k => cases k <;> simp only [AddrMode.address, h.dataBank, h.programBank]
  | directPage => simp only [AddrMode.address, h.directPage]
  | stack => simp only [AddrMode.address, hs rfl]
  | indexed base r ih => simp only [AddrMode.address, ih hs, h.indexed]
  | indirect base k ih => cases k <;> simp only [AddrMode.address, ih hs, h.readIndirect, h.dataBank, h.programBank]

theorem Agree.fetchData : m.fetchData o s' = m.fetchData o s := by
  simp only [AddrMode.fetchData, h.address hs, h.memRead, h.accW]

theorem Agree.fetch : m.fetch o s' = m.fetch o s := by
  cases m with
  | immediate => simp only [AddrMode.fetch, h.accW]
  | register r => cases r <;> simp only [AddrMode.fetch, readReg, h.rdAcc, h.rdX, h.rdY]
  | absolute k => exact h.fetchData hs o
  | directPage => exact h.fetchData hs o
  | stack => exact h.fetchData hs o
  | indexed base r => exact h.fetchData hs o
  | indirect base k => exact h.fetchData hs o

theorem Agree.storeData (v : Word) :
    (∃ e, m.storeData o v s = .error e ∧ m.storeData o v s' = .error e) ∨
    ∃ M, m.storeData o v s = .ok (s.setMemory M) ∧ m.storeData o v s' = .ok (s'.setMemory M) := by
  simp only [AddrMode.storeData, h.address hs, h.accW, Machine.memWrite, h.config, h.memory]
  cases m.address o s with
  | error e => exact .inl ⟨e, rfl, rfl⟩
  | ok a =>
    simp only [Except.bind]
    split
    · exact .inr ⟨_, rfl, rfl⟩
    · exact .inl ⟨_, rfl, rfl⟩

/-- Storing stops in the same way in both, or writes nothing, the same register, or the same memory in both. -/
theorem Agree.store (v : Word) :
    (∃ e, m.store o v s = .error e ∧ m.store o v s' = .error e) ∨
    (m = .immediate ∧ m.store o v s = .ok s ∧ m.store o v s' = .ok s') ∨
    (∃ r, m = .register r ∧ m.store o v s = .ok (writeReg s v r) ∧ m.store o v s' = .ok (writeReg s' v r)) ∨
    ∃ M, m.store o v s = .ok (s.setMemory M) ∧ m.store o v s' = .ok (s'.setMemory M) := by
  cases m with
  | immediate => exact .inr (.inl ⟨rfl, rfl, rfl⟩)
  | register r => exact .inr (.inr (.inl ⟨r, rfl, rfl, rfl⟩))
  | absolute k => exact (h.storeData hs o v).imp_right fun x => .inr (.inr x)
  | directPage => exact (h.storeData hs o v).imp_right fun x => .inr (.inr x)
  | stack => exact (h.storeData hs o v).imp_right fun x => .inr (.inr x)
  | indexed base r => exact (h.storeData hs o v).imp_right fun x => .inr (.inr x)
  | indirect base k => exact (h.storeData hs o v).imp_right fun x => .inr (.inr x)

end

/-- Only the four stack-relative instructions have a mode that contains `Stack`. -/
theorem hasStack_of_instance {i : Instr} {mn : String} {m : AddrMode} {o : Addr} {mods : List CycleMod}
    {pre : Option IndexReg} {st : Bool} (h : instanceOf i = .addressed mn m o mods pre st) (hm : m.hasStack = true) :
    ∃ o8, i = .oraSr o8 ∨ i = .oraSrIndY o8 ∨ i = .andSr o8 ∨ i = .andSrIndY o8 := by
  cases i <;> simp only [instanceOf, Instance.addressed.injEq, reduceCtorEq] at h <;> obtain ⟨_, rfl, _⟩ := h <;>
    first
    | exact absurd hm (by decide)
    | exact ⟨_, .inl rfl⟩
    | exact ⟨_, .inr (.inl rfl)⟩
    | exact ⟨_, .inr (.inr (.inl rfl))⟩
    | exact ⟨_, .inr (.inr (.inr rfl))⟩

/-! ## Hidden high bytes -/

theorem SameVisible.agree {s s' : State} (h : SameVisible s s') : Agree s s' := by
  obtain ⟨h, ha, hx, hy⟩ := h
  rw [h] at *
  exact ⟨rfl, rfl, rfl, rfl, rfl, rfl, rfl, ha.symm, hx.symm, hy.symm⟩

theorem SameVisible.carry {s s' : State} (h : SameVisible s s') : s'.carry = s.carry := by
  rw [h.1]

theorem SameVisible.stackPtr {s s' : State} (h : SameVisible s s') : s'.stackPtr = s.stackPtr := by
  rw [h.1]


theorem SameVisible.setNZ {s s' : State} (h : SameVisible s s') (v : Word) (w : Width) :
    SameVisible (setNZ s v w) (setNZ s' v w) := by
  obtain ⟨h, ha, hx, hy⟩ := h
  refine ⟨?_, ha, hx, hy⟩
  rw [h]; rfl

theorem SameVisible.setZero {s s' : State} (h : SameVisible s s') (v : Bool) :
    SameVisible (s.setZero v) (s'.setZero v) := by
  obtain ⟨h, ha, hx, hy⟩ := h
  refine ⟨?_, ha, hx, hy⟩
  rw [h]; rfl

theorem SameVisible.setCarry {s s' : State} (h : SameVisible s s') (v : Bool) :
    SameVisible (s.setCarry v) (s'.setCarry v) := by
  obtain ⟨h, ha, hx, hy⟩ := h
  refine ⟨?_, ha, hx, hy⟩
  rw [h]; rfl

theorem SameVisible.setMemory {s s' : State} (h : SameVisible s s') (v : Memory) :
    SameVisible (s.setMemory v) (s'.setMemory v) := by
  obtain ⟨h, ha, hx, hy⟩ := h
  refine ⟨?_, ha, hx, hy⟩
  rw [h]; rfl

theorem SameVisible.wr {s s' : State} (h : SameVisible s s') (v : Word) (r : Reg) :
    SameVisible (writeReg s v r) (writeReg s' v r) := by
  obtain ⟨h, ha, hx, hy⟩ := h
  cases r
  · refine ⟨by rw [h]; rfl, ?_, hx, hy⟩
    have := narrowWrite_and_mask s.config (accW s) s.acc v
    have h2 := narrowWrite_and_mask s.config (accW s) s'.acc v
    rw [h]
    exact this.trans h2.symm
  · refine ⟨by rw [h]; rfl, ha, ?_, hy⟩
    have := narrowWrite_and_mask s.config (idxW s) s.x v
    have h2 := narrowWrite_and_mask s.config (idxW s) s'.x v
    rw [h]
    exact this.trans h2.symm
  · refine ⟨by rw [h]; rfl, ha, hx, ?_⟩
    have := narrowWrite_and_mask s.config (idxW s) s.y v
    have h2 := narrowWrite_and_mask s.config (idxW s) s'.y v
    rw [h]
    exact this.trans h2.symm

end Sys2Proof.Machine
end

