-- ==== Sys2Proof/Laws/Cycles.lean ====
section
/-! SUPPORT. The predicates of the cycle modifiers as plain arithmetic (42_cycle_calculator.md R182 to R188). -/

namespace Sys2Proof.Machine

theorem accW_cases (s : State) : accW s = .bit8 ∨ accW s = .bit16 := by
  cases accW s <;> simp

/-- The page-and-bank part of an address. -/
theorem page_toNat (a : Addr) : (a &&& 0xFFFF00).toNat = a.toNat / 0x100 * 0x100 := by
  have h : BitVec.and a 0xFFFF00 = (a >>> 8) <<< 8 := by
    show a &&& _ = _
    ext i hi
    interval_cases i <;> simp
  have ha := a.isLt
  rw [show a &&& 0xFFFF00 = _ from h, BitVec.toNat_shiftLeft, BitVec.toNat_ushiftRight, Nat.shiftLeft_eq,
    Nat.shiftRight_eq_div_pow]
  omega

theorem pageDiffers_iff (a b : Addr) : pageDiffers a b = true ↔ a.toNat / 0x100 ≠ b.toNat / 0x100 := by
  have h : a &&& 0xFFFF00 = b &&& 0xFFFF00 ↔ a.toNat / 0x100 = b.toNat / 0x100 := by
    rw [BitVec.toNat_eq, page_toNat, page_toNat]
    omega
  simp only [pageDiffers, bne_iff_ne, ne_eq, h]

theorem lowDirectPage_iff (d : Word) : (d &&& 0x00FF != 0) = true ↔ d.toNat % 0x100 ≠ 0 := by
  have h : (d &&& 0x00FF).toNat = d.toNat % 0x100 := and_mask_toNat d .bit8
  rw [bne_iff_ne, ne_eq, BitVec.toNat_eq, h]
  simp

theorem accIs16Bit_iff (s : State) : (accW s == .bit16) = true ↔ accW s = .bit16 := beq_iff_eq

end Sys2Proof.Machine
end

