-- ==== Sys2Proof/Laws/Decode.lean ====
section
/-! SUPPORT. Laws of decoding and encoding: decoding behind an opcode byte, and that an instruction built from a claimed byte
encodes to that byte. -/

namespace Sys2Proof

theorem lookup_mem {α β : Type} [BEq α] [LawfulBEq α] {a : α} {b : β} {l : List (α × β)} (h : l.lookup a = some b) :
    (a, b) ∈ l := by
  induction l with
  | nil => simp at h
  | cons c l ih =>
    obtain ⟨x, y⟩ := c
    rw [List.lookup_cons] at h
    split at h
    · rename_i hx
      obtain rfl := eq_of_beq hx
      obtain rfl : y = b := by simpa using h
      exact List.mem_cons_self
    · exact List.mem_cons_of_mem _ (ih h)

/-- Decoding a claimed byte followed by its operand bytes and more. -/
theorem decode_of_form {b : Byte} {f : Form} (h : decodeOpcode b = some f) (w : Width) (bs rest : List Byte)
    (hn : bs.length = f.operandBytes w) : decode w (b :: (bs ++ rest)) = .ok (f.build (leValue bs), rest) := by
  simp only [decode, h, List.length_append, ← hn, show ¬(bs.length + rest.length < bs.length) by omega, if_false,
    List.take_left', List.drop_left']

/-! One lemma per format (30_encoding.md R91): the bytes of the operand decode to the operand. -/

theorem decode_imp {b : Byte} {i : Instr} (h : decodeOpcode b = some (.imp i)) (w : Width) (rest : List Byte) :
    decode w (b :: rest) = .ok (i, rest) := decode_of_form h w [] rest rfl

theorem decode_op8 {b : Byte} {i : Byte → Instr} (h : decodeOpcode b = some (.op8 i)) (w : Width) (o : Byte)
    (rest : List Byte) : decode w (b :: (leBytes 1 o.toNat ++ rest)) = .ok (i o, rest) := by
  rw [decode_of_form h w _ rest (leBytes_length 1 o.toNat), leValue_leBytes, Nat.mod_eq_of_lt o.isLt]
  simp [Form.build]

theorem decode_op16 {b : Byte} {i : Word → Instr} (h : decodeOpcode b = some (.op16 i)) (w : Width) (o : Word)
    (rest : List Byte) : decode w (b :: (leBytes 2 o.toNat ++ rest)) = .ok (i o, rest) := by
  rw [decode_of_form h w _ rest (leBytes_length 2 o.toNat), leValue_leBytes, Nat.mod_eq_of_lt o.isLt]
  simp [Form.build]

theorem decode_op24 {b : Byte} {i : Addr → Instr} (h : decodeOpcode b = some (.op24 i)) (w : Width) (o : Addr)
    (rest : List Byte) : decode w (b :: (leBytes 3 o.toNat ++ rest)) = .ok (i o, rest) := by
  rw [decode_of_form h w _ rest (leBytes_length 3 o.toNat), leValue_leBytes, Nat.mod_eq_of_lt o.isLt]
  simp [Form.build]

theorem decode_immM {b : Byte} {i : Word → Instr} (h : decodeOpcode b = some (.immM i)) {w : Width} {o : Word}
    (hw : immFits w o = true) (rest : List Byte) :
    decode w (b :: (leBytes w.nbytes o.toNat ++ rest)) = .ok (i o, rest) := by
  rw [decode_of_form h w _ rest (leBytes_length w.nbytes o.toNat), leValue_leBytes]
  congr 2
  simp only [Form.build]
  congr 1
  apply BitVec.eq_of_toNat_eq
  cases w
  · have hw : o.toNat < 256 := by simpa [immFits] using hw
    simp only [Width.nbytes, BitVec.toNat_ofNat]
    omega
  · have := o.isLt
    simp only [Width.nbytes, BitVec.toNat_ofNat]
    omega

/-- What a successful decoding read. -/
theorem decode_ok_iff {w : Width} {bytes rest : List Byte} {i : Instr} : decode w bytes = .ok (i, rest) ↔
    ∃ b f bs, decodeOpcode b = some f ∧ bs.length = f.operandBytes w ∧ bytes = b :: (bs ++ rest) ∧
      i = f.build (leValue bs) := by
  constructor
  · intro h
    cases bytes with
    | nil => simp [decode] at h
    | cons b bs =>
      simp only [decode] at h
      split at h
      · simp at h
      · rename_i f hf
        split at h
        · simp at h
        · rename_i hlen
          simp only [Except.ok.injEq, Prod.mk.injEq] at h
          exact ⟨b, f, bs.take (f.operandBytes w), hf, by simp; omega, by rw [← h.2, List.take_append_drop], h.1.symm⟩
  · rintro ⟨b, f, bs, hf, hn, rfl, rfl⟩
    exact decode_of_form hf w bs rest hn

/-- What a family's rows promise: an instruction built from the row encodes to the row's byte and its operand, and is
well-formed. -/
def RowEncodes (p : Byte × Form) : Prop :=
  ∀ w v, v < 2 ^ (8 * p.2.operandBytes w) →
    encode w (p.2.build v) = p.1 :: leBytes (p.2.operandBytes w) v ∧ (p.2.build v).wellFormed w = true

theorem rowEncodes_imp {b : Byte} {i : Instr} (h : ∀ w, encode w i = [b] ∧ i.wellFormed w = true) :
    RowEncodes (b, .imp i) := fun w _ _ => by simpa [Form.operandBytes, Form.build, leBytes] using h w

theorem rowEncodes_op8 {b : Byte} {i : Byte → Instr}
    (h : ∀ w o, encode w (i o) = b :: leBytes 1 o.toNat ∧ (i o).wellFormed w = true) : RowEncodes (b, .op8 i) :=
  fun w v hv => by
    have hv : v < 256 := hv
    simpa [Form.operandBytes, Form.build, Nat.mod_eq_of_lt hv] using h w (BitVec.ofNat 8 v)

theorem rowEncodes_op16 {b : Byte} {i : Word → Instr}
    (h : ∀ w o, encode w (i o) = b :: leBytes 2 o.toNat ∧ (i o).wellFormed w = true) : RowEncodes (b, .op16 i) :=
  fun w v hv => by
    have hv : v < 65536 := hv
    simpa [Form.operandBytes, Form.build, Nat.mod_eq_of_lt hv] using h w (BitVec.ofNat 16 v)

theorem rowEncodes_op24 {b : Byte} {i : Addr → Instr}
    (h : ∀ w o, encode w (i o) = b :: leBytes 3 o.toNat ∧ (i o).wellFormed w = true) : RowEncodes (b, .op24 i) :=
  fun w v hv => by
    have hv : v < 16777216 := hv
    simpa [Form.operandBytes, Form.build, Nat.mod_eq_of_lt hv] using h w (BitVec.ofNat 24 v)

theorem rowEncodes_immM {b : Byte} {i : Word → Instr}
    (h : ∀ w o, encode w (i o) = b :: leBytes w.nbytes o.toNat ∧ (i o).wellFormed w = immFits w o) :
    RowEncodes (b, .immM i) := fun w v hv => by
  cases w
  · have hv : v < 256 := hv
    have hv' : v < 65536 := by omega
    simpa [Form.operandBytes, Form.build, Width.nbytes, immFits, Nat.mod_eq_of_lt hv', hv] using
      h .bit8 (BitVec.ofNat 16 v)
  · have hv : v < 65536 := hv
    simpa [Form.operandBytes, Form.build, Width.nbytes, immFits, Nat.mod_eq_of_lt hv] using h .bit16 (BitVec.ofNat 16 v)

theorem logicalTable_encodes : logicalTable.Forall RowEncodes := by
  refine ⟨?_, ?_, ?_, ?_, ?_, ?_, ?_, ?_, ?_, ?_, ?_, ?_, ?_, ?_, ?_, ?_, ?_, ?_, ?_, ?_, ?_, ?_, ?_, ?_, ?_, ?_, ?_, ?_, ?_,
    ?_⟩
  all_goals first
    | exact rowEncodes_op8 fun _ _ => ⟨rfl, rfl⟩
    | exact rowEncodes_op16 fun _ _ => ⟨rfl, rfl⟩
    | exact rowEncodes_op24 fun _ _ => ⟨rfl, rfl⟩
    | exact rowEncodes_immM fun _ _ => ⟨rfl, rfl⟩

theorem bitTestTable_encodes : bitTestTable.Forall RowEncodes := by
  refine ⟨?_, ?_, ?_, ?_, ?_, ?_, ?_, ?_, ?_⟩
  all_goals first
    | exact rowEncodes_op8 fun _ _ => ⟨rfl, rfl⟩
    | exact rowEncodes_op16 fun _ _ => ⟨rfl, rfl⟩
    | exact rowEncodes_immM fun _ _ => ⟨rfl, rfl⟩

theorem incDecTable_encodes : incDecTable.Forall RowEncodes := by
  refine ⟨?_, ?_, ?_, ?_, ?_, ?_, ?_, ?_, ?_, ?_, ?_, ?_, ?_, ?_⟩
  all_goals first
    | exact rowEncodes_imp fun _ => ⟨rfl, rfl⟩
    | exact rowEncodes_op8 fun _ _ => ⟨rfl, rfl⟩
    | exact rowEncodes_op16 fun _ _ => ⟨rfl, rfl⟩

theorem statusTable_encodes : statusTable.Forall RowEncodes := by
  refine ⟨?_, ?_, ?_, ?_, ?_, ?_, ?_, ?_, ?_, ?_, ?_, ?_⟩
  all_goals first
    | exact rowEncodes_imp fun _ => ⟨rfl, rfl⟩
    | exact rowEncodes_op8 fun _ _ => ⟨rfl, rfl⟩

/-- The rows of the shift family, its bit fields written out (45_shift_rotate.md R260). -/
def shiftRows : List (Byte × Form) :=
  [(0x0A, .imp .aslA), (0x06, .op8 .aslDp), (0x0E, .op16 .aslAbs), (0x16, .op8 .aslDpX), (0x1E, .op16 .aslAbsX),
   (0x2A, .imp .rolA), (0x26, .op8 .rolDp), (0x2E, .op16 .rolAbs), (0x36, .op8 .rolDpX), (0x3E, .op16 .rolAbsX),
   (0x4A, .imp .lsrA), (0x46, .op8 .lsrDp), (0x4E, .op16 .lsrAbs), (0x56, .op8 .lsrDpX), (0x5E, .op16 .lsrAbsX),
   (0x6A, .imp .rorA), (0x66, .op8 .rorDp), (0x6E, .op16 .rorAbs), (0x76, .op8 .rorDpX), (0x7E, .op16 .rorAbsX)]

theorem shiftRows_encodes : shiftRows.Forall RowEncodes := by
  refine ⟨?_, ?_, ?_, ?_, ?_, ?_, ?_, ?_, ?_, ?_, ?_, ?_, ?_, ?_, ?_, ?_, ?_, ?_, ?_, ?_⟩
  all_goals first
    | exact rowEncodes_imp fun _ => ⟨rfl, rfl⟩
    | exact rowEncodes_op8 fun _ _ => ⟨rfl, rfl⟩
    | exact rowEncodes_op16 fun _ _ => ⟨rfl, rfl⟩

/-- An opcode byte is its three fields (30_encoding.md R97). -/
theorem byte_fields (b : Byte) :
    b = BitVec.ofBool (b.getLsbD 7) ++ (BitVec.ofBool (b.getLsbD 6) ++ (BitVec.ofBool (b.getLsbD 5) ++ b.extractLsb' 0 5)) := by
  revert b
  decide

theorem decodeShift_mem {b : Byte} {f : Form} (h : decodeShift b = some f) : (b, f) ∈ shiftRows := by
  have hb := byte_fields b
  unfold decodeShift at h
  split at h
  · simp at h
  · rename_i h7
    rw [Bool.not_eq_true] at h7
    rw [h7] at hb
    unfold shiftOpOfBits at h
    split at h <;> rename_i h6 h5 <;> rw [h6, h5] at hb <;>
      (have hm := lookup_mem h
       simp only [List.mem_cons, Prod.mk.injEq, List.not_mem_nil, or_false] at hm
       rcases hm with ⟨hm, rfl⟩ | ⟨hm, rfl⟩ | ⟨hm, rfl⟩ | ⟨hm, rfl⟩ | ⟨hm, rfl⟩ <;> rw [hm] at hb <;> subst hb <;>
         simp [shiftRows])

/-- What holds of every row of the five families holds of a claimed byte and its row. -/
theorem decodeOpcode_row {P : Byte × Form → Prop} (hl : logicalTable.Forall P) (hb : bitTestTable.Forall P)
    (hs : shiftRows.Forall P) (hi : incDecTable.Forall P) (ht : statusTable.Forall P) {b : Byte} {f : Form}
    (h : decodeOpcode b = some f) : P (b, f) := by
  have table : ∀ {l : List (Byte × Form)}, l.Forall P → l.lookup b = some f → P (b, f) := fun hP h =>
    List.forall_iff_forall_mem.1 hP _ (lookup_mem h)
  unfold decodeOpcode at h
  rcases Option.or_eq_some_iff.1 h with h | ⟨_, h⟩
  · exact table hl h
  rcases Option.or_eq_some_iff.1 h with h | ⟨_, h⟩
  · exact table hb h
  rcases Option.or_eq_some_iff.1 h with h | ⟨_, h⟩
  · exact List.forall_iff_forall_mem.1 hs _ (decodeShift_mem h)
  rcases Option.or_eq_some_iff.1 h with h | ⟨_, h⟩
  · exact table hi h
  · exact table ht h

/-- An instruction built from a claimed byte encodes to that byte and its operand, and is well-formed. -/
theorem decodeOpcode_encodes {b : Byte} {f : Form} (h : decodeOpcode b = some f) : RowEncodes (b, f) :=
  decodeOpcode_row logicalTable_encodes bitTestTable_encodes shiftRows_encodes incDecTable_encodes statusTable_encodes h

end Sys2Proof
end

