-- ==== Sys2Proof/Laws/PerInstr.lean ====
section
/-! SUPPORT. The per-instruction family EncodedLength: the encoding of an instruction has as many bytes as `ByteSize` says, 1 to
4 (48_opcode_protocol.md R350; 30_encoding.md R90). -/

namespace Sys2Proof.Laws.EncodedLength

open Sys2Proof.Machine

/-- The statement about one instruction, at both widths. -/
def Statement (i : Instr) : Prop :=
  ∀ w, (encode w i).length = (instanceOf i).byteSize w ∧ 1 ≤ (encode w i).length ∧ (encode w i).length ≤ 4

theorem of_length {i : Instr} {w : Width} (n : Nat) (hn : 1 ≤ n ∧ n ≤ 4) (he : (encode w i).length = n)
    (hb : (instanceOf i).byteSize w = n) :
    (encode w i).length = (instanceOf i).byteSize w ∧ 1 ≤ (encode w i).length ∧ (encode w i).length ≤ 4 := by
  rw [he, hb]
  exact ⟨rfl, hn⟩

theorem oraImm (imm : Word) : Statement (.oraImm imm) := fun | .bit8 => of_length 2 (by decide) rfl rfl | .bit16 => of_length 3 (by decide) rfl rfl
theorem oraAbs (o16 : Word) : Statement (.oraAbs o16) := fun _ => of_length 3 (by decide) rfl rfl
theorem oraLong (o24 : Addr) : Statement (.oraLong o24) := fun _ => of_length 4 (by decide) rfl rfl
theorem oraDp (o8 : Byte) : Statement (.oraDp o8) := fun _ => of_length 2 (by decide) rfl rfl
theorem oraDpInd (o8 : Byte) : Statement (.oraDpInd o8) := fun _ => of_length 2 (by decide) rfl rfl
theorem oraDpIndLong (o8 : Byte) : Statement (.oraDpIndLong o8) := fun _ => of_length 2 (by decide) rfl rfl
theorem oraAbsX (o16 : Word) : Statement (.oraAbsX o16) := fun _ => of_length 3 (by decide) rfl rfl
theorem oraLongX (o24 : Addr) : Statement (.oraLongX o24) := fun _ => of_length 4 (by decide) rfl rfl
theorem oraAbsY (o16 : Word) : Statement (.oraAbsY o16) := fun _ => of_length 3 (by decide) rfl rfl
theorem oraDpX (o8 : Byte) : Statement (.oraDpX o8) := fun _ => of_length 2 (by decide) rfl rfl
theorem oraDpXInd (o8 : Byte) : Statement (.oraDpXInd o8) := fun _ => of_length 2 (by decide) rfl rfl
theorem oraDpIndY (o8 : Byte) : Statement (.oraDpIndY o8) := fun _ => of_length 2 (by decide) rfl rfl
theorem oraDpIndLongY (o8 : Byte) : Statement (.oraDpIndLongY o8) := fun _ => of_length 2 (by decide) rfl rfl
theorem oraSr (o8 : Byte) : Statement (.oraSr o8) := fun _ => of_length 2 (by decide) rfl rfl
theorem oraSrIndY (o8 : Byte) : Statement (.oraSrIndY o8) := fun _ => of_length 2 (by decide) rfl rfl
theorem andImm (imm : Word) : Statement (.andImm imm) := fun | .bit8 => of_length 2 (by decide) rfl rfl | .bit16 => of_length 3 (by decide) rfl rfl
theorem andAbs (o16 : Word) : Statement (.andAbs o16) := fun _ => of_length 3 (by decide) rfl rfl
theorem andLong (o24 : Addr) : Statement (.andLong o24) := fun _ => of_length 4 (by decide) rfl rfl
theorem andDp (o8 : Byte) : Statement (.andDp o8) := fun _ => of_length 2 (by decide) rfl rfl
theorem andDpInd (o8 : Byte) : Statement (.andDpInd o8) := fun _ => of_length 2 (by decide) rfl rfl
theorem andDpIndLong (o8 : Byte) : Statement (.andDpIndLong o8) := fun _ => of_length 2 (by decide) rfl rfl
theorem andAbsX (o16 : Word) : Statement (.andAbsX o16) := fun _ => of_length 3 (by decide) rfl rfl
theorem andLongX (o24 : Addr) : Statement (.andLongX o24) := fun _ => of_length 4 (by decide) rfl rfl
theorem andAbsY (o16 : Word) : Statement (.andAbsY o16) := fun _ => of_length 3 (by decide) rfl rfl
theorem andDpX (o8 : Byte) : Statement (.andDpX o8) := fun _ => of_length 2 (by decide) rfl rfl
theorem andDpXInd (o8 : Byte) : Statement (.andDpXInd o8) := fun _ => of_length 2 (by decide) rfl rfl
theorem andDpIndY (o8 : Byte) : Statement (.andDpIndY o8) := fun _ => of_length 2 (by decide) rfl rfl
theorem andDpIndLongY (o8 : Byte) : Statement (.andDpIndLongY o8) := fun _ => of_length 2 (by decide) rfl rfl
theorem andSr (o8 : Byte) : Statement (.andSr o8) := fun _ => of_length 2 (by decide) rfl rfl
theorem andSrIndY (o8 : Byte) : Statement (.andSrIndY o8) := fun _ => of_length 2 (by decide) rfl rfl
theorem bitImm (imm : Word) : Statement (.bitImm imm) := fun | .bit8 => of_length 2 (by decide) rfl rfl | .bit16 => of_length 3 (by decide) rfl rfl
theorem bitAbs (o16 : Word) : Statement (.bitAbs o16) := fun _ => of_length 3 (by decide) rfl rfl
theorem bitDp (o8 : Byte) : Statement (.bitDp o8) := fun _ => of_length 2 (by decide) rfl rfl
theorem bitAbsX (o16 : Word) : Statement (.bitAbsX o16) := fun _ => of_length 3 (by decide) rfl rfl
theorem bitDpX (o8 : Byte) : Statement (.bitDpX o8) := fun _ => of_length 2 (by decide) rfl rfl
theorem trbAbs (o16 : Word) : Statement (.trbAbs o16) := fun _ => of_length 3 (by decide) rfl rfl
theorem trbDp (o8 : Byte) : Statement (.trbDp o8) := fun _ => of_length 2 (by decide) rfl rfl
theorem tsbAbs (o16 : Word) : Statement (.tsbAbs o16) := fun _ => of_length 3 (by decide) rfl rfl
theorem tsbDp (o8 : Byte) : Statement (.tsbDp o8) := fun _ => of_length 2 (by decide) rfl rfl
theorem aslA : Statement .aslA := fun _ => of_length 1 (by decide) rfl rfl
theorem aslDp (o8 : Byte) : Statement (.aslDp o8) := fun _ => of_length 2 (by decide) rfl rfl
theorem aslAbs (o16 : Word) : Statement (.aslAbs o16) := fun _ => of_length 3 (by decide) rfl rfl
theorem aslDpX (o8 : Byte) : Statement (.aslDpX o8) := fun _ => of_length 2 (by decide) rfl rfl
theorem aslAbsX (o16 : Word) : Statement (.aslAbsX o16) := fun _ => of_length 3 (by decide) rfl rfl
theorem rolA : Statement .rolA := fun _ => of_length 1 (by decide) rfl rfl
theorem rolDp (o8 : Byte) : Statement (.rolDp o8) := fun _ => of_length 2 (by decide) rfl rfl
theorem rolAbs (o16 : Word) : Statement (.rolAbs o16) := fun _ => of_length 3 (by decide) rfl rfl
theorem rolDpX (o8 : Byte) : Statement (.rolDpX o8) := fun _ => of_length 2 (by decide) rfl rfl
theorem rolAbsX (o16 : Word) : Statement (.rolAbsX o16) := fun _ => of_length 3 (by decide) rfl rfl
theorem lsrA : Statement .lsrA := fun _ => of_length 1 (by decide) rfl rfl
theorem lsrDp (o8 : Byte) : Statement (.lsrDp o8) := fun _ => of_length 2 (by decide) rfl rfl
theorem lsrAbs (o16 : Word) : Statement (.lsrAbs o16) := fun _ => of_length 3 (by decide) rfl rfl
theorem lsrDpX (o8 : Byte) : Statement (.lsrDpX o8) := fun _ => of_length 2 (by decide) rfl rfl
theorem lsrAbsX (o16 : Word) : Statement (.lsrAbsX o16) := fun _ => of_length 3 (by decide) rfl rfl
theorem rorA : Statement .rorA := fun _ => of_length 1 (by decide) rfl rfl
theorem rorDp (o8 : Byte) : Statement (.rorDp o8) := fun _ => of_length 2 (by decide) rfl rfl
theorem rorAbs (o16 : Word) : Statement (.rorAbs o16) := fun _ => of_length 3 (by decide) rfl rfl
theorem rorDpX (o8 : Byte) : Statement (.rorDpX o8) := fun _ => of_length 2 (by decide) rfl rfl
theorem rorAbsX (o16 : Word) : Statement (.rorAbsX o16) := fun _ => of_length 3 (by decide) rfl rfl
theorem incA : Statement .incA := fun _ => of_length 1 (by decide) rfl rfl
theorem incAbs (o16 : Word) : Statement (.incAbs o16) := fun _ => of_length 3 (by decide) rfl rfl
theorem incDp (o8 : Byte) : Statement (.incDp o8) := fun _ => of_length 2 (by decide) rfl rfl
theorem incAbsX (o16 : Word) : Statement (.incAbsX o16) := fun _ => of_length 3 (by decide) rfl rfl
theorem incDpX (o8 : Byte) : Statement (.incDpX o8) := fun _ => of_length 2 (by decide) rfl rfl
theorem inx : Statement .inx := fun _ => of_length 1 (by decide) rfl rfl
theorem iny : Statement .iny := fun _ => of_length 1 (by decide) rfl rfl
theorem decA : Statement .decA := fun _ => of_length 1 (by decide) rfl rfl
theorem decAbs (o16 : Word) : Statement (.decAbs o16) := fun _ => of_length 3 (by decide) rfl rfl
theorem decDp (o8 : Byte) : Statement (.decDp o8) := fun _ => of_length 2 (by decide) rfl rfl
theorem decAbsX (o16 : Word) : Statement (.decAbsX o16) := fun _ => of_length 3 (by decide) rfl rfl
theorem decDpX (o8 : Byte) : Statement (.decDpX o8) := fun _ => of_length 2 (by decide) rfl rfl
theorem dex : Statement .dex := fun _ => of_length 1 (by decide) rfl rfl
theorem dey : Statement .dey := fun _ => of_length 1 (by decide) rfl rfl
theorem clc : Statement .clc := fun _ => of_length 1 (by decide) rfl rfl
theorem sec : Statement .sec := fun _ => of_length 1 (by decide) rfl rfl
theorem cld : Statement .cld := fun _ => of_length 1 (by decide) rfl rfl
theorem sed : Statement .sed := fun _ => of_length 1 (by decide) rfl rfl
theorem sei : Statement .sei := fun _ => of_length 1 (by decide) rfl rfl
theorem cli : Statement .cli := fun _ => of_length 1 (by decide) rfl rfl
theorem clv : Statement .clv := fun _ => of_length 1 (by decide) rfl rfl
theorem nop : Statement .nop := fun _ => of_length 1 (by decide) rfl rfl
theorem xba : Statement .xba := fun _ => of_length 1 (by decide) rfl rfl
theorem xce : Statement .xce := fun _ => of_length 1 (by decide) rfl rfl
theorem rep (o8 : Byte) : Statement (.rep o8) := fun _ => of_length 2 (by decide) rfl rfl
theorem sep (o8 : Byte) : Statement (.sep o8) := fun _ => of_length 2 (by decide) rfl rfl

end Sys2Proof.Laws.EncodedLength
end

