-- ==== Sys2Proof/Laws/Step.lean ====
section
/-! SUPPORT. What fetching an instruction and stepping can do. -/

namespace Sys2Proof.Machine

theorem byteSize_build {b : Byte} {f : Form} (h : decodeOpcode b = some f) (s : State) {v : Nat}
    (hv : v < 2 ^ (8 * f.operandBytes (accW s))) : byteSize (f.build v) s = 1 + f.operandBytes (accW s) := by
  have he := congrArg List.length (decodeOpcode_encodes h (accW s) v hv).1
  have hb : ∀ i, byteSize i s = (encode (accW s) i).length := fun i => by
    cases i <;> simp [byteSize, instanceOf, Instance.byteSize, AddrMode.byteSize, encode, Width.nbytes, Nat.add_comm]
  rw [hb, he]
  simp [Nat.add_comm]

theorem ofNat_leValue_one (m : Memory) (a : Nat) : BitVec.ofNat 8 (leValue (m.bytes a 1)) = m.read a := by
  simp [Memory.bytes, leValue]

/-- All that fetching the opcode byte can do (60_exceptions.md R375 (1), (2)). -/
inductive OpcodeCase (s : State) : Host.Outcome Form Fault Refusal → Prop
  | noOpcode (h : ¬Present s (effPC s).toNat 1) :
      OpcodeCase s (.fault (.memoryBounds (max (effPC s).toNat s.config.memSize)))
  | unclaimed (h : Present s (effPC s).toNat 1) (hd : decodeOpcode (s.memory.read (effPC s).toNat) = none) :
      OpcodeCase s (.refused (.unimplementedOpcode (s.memory.read (effPC s).toNat)))
  | claimed (f : Form) (h : Present s (effPC s).toNat 1) (hd : decodeOpcode (s.memory.read (effPC s).toNat) = some f) :
      OpcodeCase s (.next f)

theorem fetchOpcode_case (s : State) : OpcodeCase s (fetchOpcode s) := by
  unfold fetchOpcode
  by_cases h : Present s (effPC s).toNat 1
  · simp only [memRead_of_le h, ofNat_leValue_one]
    cases hd : decodeOpcode (s.memory.read (effPC s).toNat) with
    | none => exact .unclaimed h hd
    | some f => exact .claimed f h hd
  · simp only [memRead_of_lt (Nat.lt_of_not_le h)]
    exact .noOpcode h

/-- An operand that is there, or that has no byte. -/
theorem operandAt_of_present {s : State} {n : Nat} (h : n = 0 ∨ Present s ((effPC s).toNat + 1) n) :
    operandAt s n = .ok (leValue (s.memory.bytes ((effPC s).toNat + 1) n)) := by
  cases n with
  | zero => rfl
  | succ n => exact memRead_of_le (h.resolve_left (Nat.succ_ne_zero n))

/-- An operand of which a byte is missing. -/
theorem operandAt_of_absent {s : State} {n : Nat} (hn : n ≠ 0) (h : ¬Present s ((effPC s).toNat + 1) n) :
    operandAt s n = .error (.memoryBounds (max ((effPC s).toNat + 1) s.config.memSize)) := by
  cases n with
  | zero => exact absurd rfl hn
  | succ n => exact memRead_of_lt (Nat.lt_of_not_le h)

/-- Where the opcode byte exists, a missing operand has a byte. -/
theorem operand_ne_zero {s : State} {n : Nat} (h : Present s (effPC s).toNat 1)
    (ho : ¬Present s ((effPC s).toNat + 1) n) : n ≠ 0 := by
  rintro rfl
  exact ho h

/-- All that fetching can do, in the order of its checks (60_exceptions.md R375). -/
inductive FetchCase (s : State) : Host.Outcome Instr Fault Refusal → Prop
  | noOpcode (h : ¬Present s (effPC s).toNat 1) :
      FetchCase s (.fault (.memoryBounds (max (effPC s).toNat s.config.memSize)))
  | unclaimed (h : Present s (effPC s).toNat 1) (hd : decodeOpcode (s.memory.read (effPC s).toNat) = none) :
      FetchCase s (.refused (.unimplementedOpcode (s.memory.read (effPC s).toNat)))
  | straddles (f : Form) (h : Present s (effPC s).toNat 1) (hd : decodeOpcode (s.memory.read (effPC s).toNat) = some f)
      (hs : 0x10000 < s.pc.toNat + (1 + f.operandBytes (accW s))) : FetchCase s (.refused .instructionStraddlesBank)
  | noOperand (f : Form) (h : Present s (effPC s).toNat 1) (hd : decodeOpcode (s.memory.read (effPC s).toNat) = some f)
      (hs : s.pc.toNat + (1 + f.operandBytes (accW s)) ≤ 0x10000)
      (ho : ¬Present s ((effPC s).toNat + 1) (f.operandBytes (accW s))) :
      FetchCase s (.fault (.memoryBounds (max ((effPC s).toNat + 1) s.config.memSize)))
  | fetched (f : Form) (h : Present s (effPC s).toNat 1) (hd : decodeOpcode (s.memory.read (effPC s).toNat) = some f)
      (hs : s.pc.toNat + (1 + f.operandBytes (accW s)) ≤ 0x10000)
      (ho : Present s ((effPC s).toNat + 1) (f.operandBytes (accW s))) :
      FetchCase s (.next (f.build (leValue (s.memory.bytes ((effPC s).toNat + 1) (f.operandBytes (accW s))))))

theorem fetchInstr_case (s : State) : FetchCase s (fetchInstr s) := by
  have hc := fetchOpcode_case s
  unfold fetchInstr
  generalize fetchOpcode s = r at hc
  cases hc with
  | noOpcode h => exact .noOpcode h
  | unclaimed h hd => exact .unclaimed h hd
  | claimed f h1 hd =>
    by_cases hs : s.pc.toNat + (1 + f.operandBytes (accW s)) > 0x10000
    · simp only [if_pos hs]
      exact .straddles f h1 hd hs
    · simp only [if_neg hs]
      by_cases ho : Present s ((effPC s).toNat + 1) (f.operandBytes (accW s))
      · rw [operandAt_of_present (.inr ho)]
        exact .fetched f h1 hd (Nat.le_of_not_lt hs) ho
      · rw [operandAt_of_absent (operand_ne_zero h1 ho) ho]
        exact .noOperand f h1 hd (Nat.le_of_not_lt hs) ho

/-- The fetched bytes, when there is an instruction: the bytes of `memory` from `EffPC` up begin with its encoding. -/
theorem fetchInstr_next {s : State} {i : Instr} (h : fetchInstr s = .next i) :
    Fetchable s i ∧ i.wellFormed (accW s) = true ∧
      s.memory.bytes (effPC s).toNat (byteSize i s) = encode (accW s) i := by
  have hc := fetchInstr_case s
  rw [h] at hc
  cases hc with
  | fetched f h1 hd hs ho =>
    have hlt := leValue_lt (s.memory.bytes ((effPC s).toNat + 1) (f.operandBytes (accW s)))
    rw [Memory.bytes_length] at hlt
    have hsz := byteSize_build hd s hlt
    have henc := decodeOpcode_encodes hd (accW s) _ hlt
    refine ⟨⟨?_, ?_⟩, henc.2, ?_⟩
    · unfold Present at *
      omega
    · omega
    · have hle := leBytes_leValue (s.memory.bytes ((effPC s).toNat + 1) (f.operandBytes (accW s)))
      rw [Memory.bytes_length] at hle
      rw [hsz, Nat.add_comm, henc.1, hle]
      rfl

/-- A completed step: the instruction fetched, its effect, and `pc` past it. -/
theorem step_next {s t : State} (h : step s = .next t) : ∃ i u, fetchInstr s = .next i ∧ exec i s = .next u ∧
    t = { u with pc := s.pc + BitVec.ofNat 16 (byteSize i s) } := by
  unfold step at h
  split at h
  · simp at h
  · simp at h
  · rename_i i hf
    split at h
    · simp at h
    · simp at h
    · rename_i u hu
      exact ⟨i, u, hf, hu, (Host.Outcome.next.inj h).symm⟩

/-- A step on a fetched instruction is its execution, and then `pc` past it. -/
theorem step_of_fetch {s : State} {i : Instr} (h : fetchInstr s = .next i) : step s =
    match exec i s with
    | .fault f => .fault f
    | .refused r => .refused r
    | .next u => .next { u with pc := s.pc + BitVec.ofNat 16 (byteSize i s) } := by
  unfold step
  rw [h]
  rfl

/-- A completed instruction's memory: unchanged, or its datum's bytes replaced. -/
theorem Effect.memory_cases {s t : State} {i : Instr} (h : Effect s i t) : t.memory = s.memory ∨
    ∃ a v, dataAddr s i = some a ∧ Present s a (accW s).nbytes ∧ t.memory = stored s a v := by
  cases h with
  | testStore a v z hd hp _ => exact .inr ⟨a, v, hd, hp, rfl⟩
  | shiftMemory a v c hd hp _ => exact .inr ⟨a, v, hd, hp, rfl⟩
  | countMemory a v hd hp _ => exact .inr ⟨a, v, hd, hp, rfl⟩
  | status t hi ht => exact .inl (exec_status_frame hi ht).2.2.2.2.2.2.2.2
  | _ => exact .inl rfl

end Sys2Proof.Machine
end

