-- ==== Sys2Proof/Laws/Run.lean ====
section
/-! SUPPORT. What the interface functions, the step with its count and a run can do. -/

namespace Sys2Proof.Machine

section
variable {b : Byte} {f : Form} (h : decodeOpcode b = some f) (s : State)
include h

/-- The size of a row, from its format (48_opcode_protocol.md R350). -/
theorem byteSizeOf_eq : byteSizeOf f s = 1 + f.operandBytes (accW s) := byteSize_build h s (Nat.two_pow_pos _)

end

section
variable {f : Form} {s : State}

theorem operandOf_of_present (h : f.operandBytes (accW s) = 0 ∨ Present s ((effPC s).toNat + 1) (f.operandBytes (accW s))) :
    operandOf f s = .ok (leValue (s.memory.bytes ((effPC s).toNat + 1) (f.operandBytes (accW s)))) :=
  operandAt_of_present h

theorem operandOf_of_absent (hn : f.operandBytes (accW s) ≠ 0)
    (h : ¬Present s ((effPC s).toNat + 1) (f.operandBytes (accW s))) :
    operandOf f s = .error (.memoryBounds (max ((effPC s).toNat + 1) s.config.memSize)) := operandAt_of_absent hn h

theorem executeOf_of_operand {v : Nat} (h : operandOf f s = .ok v) : executeOf f s = exec (f.build v) s := by
  simp only [executeOf, h]

theorem executeOf_of_error {e : Fault} (h : operandOf f s = .error e) : executeOf f s = .fault e := by
  simp only [executeOf, h]

theorem disasmOf_eq : disasmOf f s = (operandOf f s).map fun v => disasm (f.build v) s := rfl

/-- The instances with a `pre_index_mode` read their operand for the cycle count. -/
theorem totalCyclesOf_of_preIndex {r : IndexReg} (h : (instanceOf (f.build 0)).preIndex = some r) :
    totalCyclesOf f s = (operandOf f s).map fun v => totalCycles (f.build v) s := by
  simp only [totalCyclesOf, h]

theorem totalCyclesOf_of_none (h : (instanceOf (f.build 0)).preIndex = none) :
    totalCyclesOf f s = .ok (totalCycles (f.build 0) s) := by
  simp only [totalCyclesOf, h]

end

/-! ## The cycle count and the operand -/

/-- A row's `pre_index_mode` does not depend on the operand, and without one neither does its cycle count. -/
def RowUniform (p : Byte × Form) : Prop :=
  ∀ v, (instanceOf (p.2.build v)).preIndex = (instanceOf (p.2.build 0)).preIndex ∧
    ((instanceOf (p.2.build 0)).preIndex = none → ∀ s, totalCycles (p.2.build v) s = totalCycles (p.2.build 0) s)

theorem logicalTable_uniform : logicalTable.Forall RowUniform := by
  refine ⟨?_, ?_, ?_, ?_, ?_, ?_, ?_, ?_, ?_, ?_, ?_, ?_, ?_, ?_, ?_, ?_, ?_, ?_, ?_, ?_, ?_, ?_, ?_, ?_, ?_, ?_, ?_, ?_, ?_,
    ?_⟩
  all_goals first
    | exact fun _ => ⟨rfl, fun _ _ => rfl⟩
    | exact fun _ => ⟨rfl, nofun⟩

theorem bitTestTable_uniform : bitTestTable.Forall RowUniform := by
  refine ⟨?_, ?_, ?_, ?_, ?_, ?_, ?_, ?_, ?_⟩
  all_goals first
    | exact fun _ => ⟨rfl, fun _ _ => rfl⟩
    | exact fun _ => ⟨rfl, nofun⟩

theorem shiftRows_uniform : shiftRows.Forall RowUniform := by
  refine ⟨?_, ?_, ?_, ?_, ?_, ?_, ?_, ?_, ?_, ?_, ?_, ?_, ?_, ?_, ?_, ?_, ?_, ?_, ?_, ?_⟩ <;>
    exact fun _ => ⟨rfl, fun _ _ => rfl⟩

theorem incDecTable_uniform : incDecTable.Forall RowUniform := by
  refine ⟨?_, ?_, ?_, ?_, ?_, ?_, ?_, ?_, ?_, ?_, ?_, ?_, ?_, ?_⟩ <;> exact fun _ => ⟨rfl, fun _ _ => rfl⟩

theorem statusTable_uniform : statusTable.Forall RowUniform := by
  refine ⟨?_, ?_, ?_, ?_, ?_, ?_, ?_, ?_, ?_, ?_, ?_, ?_⟩ <;> exact fun _ => ⟨rfl, fun _ _ => rfl⟩

theorem decodeOpcode_uniform {b : Byte} {f : Form} (h : decodeOpcode b = some f) : RowUniform (b, f) :=
  decodeOpcode_row logicalTable_uniform bitTestTable_uniform shiftRows_uniform incDecTable_uniform statusTable_uniform h

/-- The five instructions with a `pre_index_mode` (48_opcode_protocol.md R352). -/
theorem preIndex_isSome_iff (i : Instr) : (instanceOf i).preIndex.isSome = true ↔
    ∃ o16, i = .oraAbsX o16 ∨ i = .andAbsX o16 ∨ i = .bitAbsX o16 ∨ i = .oraAbsY o16 ∨ i = .andAbsY o16 := by
  cases i <;> simp [instanceOf, Instance.preIndex]

/-- The same by opcode byte. -/
theorem preIndex_isSome_iff_byte (i : Instr) (w : Width) {b : Byte} {bs : List Byte} (h : encode w i = b :: bs) :
    (instanceOf i).preIndex.isSome = true ↔ b ∈ ([0x1D, 0x3D, 0x3C, 0x19, 0x39] : List Byte) := by
  cases i <;> simp only [encode, List.cons.injEq] at h <;> obtain ⟨rfl, -⟩ := h <;> simp [instanceOf, Instance.preIndex]

/-- `TotalCycles` where the operand is there. -/
theorem totalCyclesOf_of_operand {b : Byte} {f : Form} (h : decodeOpcode b = some f) {s : State} {v : Nat}
    (hv : operandOf f s = .ok v) : totalCyclesOf f s = .ok (totalCycles (f.build v) s) := by
  cases hp : (instanceOf (f.build 0)).preIndex with
  | none => rw [totalCyclesOf_of_none hp, (decodeOpcode_uniform h v).2 hp]
  | some r => rw [totalCyclesOf_of_preIndex hp, hv]; rfl

/-- `TotalCycles` where an operand byte is missing: it does not read it, or it stops on it. -/
theorem totalCyclesOf_of_error {f : Form} {s : State} {e : Fault} (hv : operandOf f s = .error e) :
    totalCyclesOf f s = .ok (totalCycles (f.build 0) s) ∨ totalCyclesOf f s = .error e := by
  cases hp : (instanceOf (f.build 0)).preIndex with
  | none => exact .inl (totalCyclesOf_of_none hp)
  | some r => rw [totalCyclesOf_of_preIndex hp, hv]; exact .inr rfl

/-- The step with its count is the step, and the count is that of the instruction fetched. -/
theorem stepReport_eq (s : State) : stepReport s =
    match fetchInstr s with
    | .fault e => .fault e
    | .refused r => .refused r
    | .next i =>
      match exec i s with
      | .fault e => .fault e
      | .refused r => .refused r
      | .next t => .next (advance s.pc (byteSize i s) t, totalCycles i s) := by
  have hc := fetchOpcode_case s
  unfold stepReport fetchInstr
  generalize fetchOpcode s = q at hc
  cases hc with
  | noOpcode h => rfl
  | unclaimed h hd => rfl
  | claimed f h1 hd =>
    simp only [byteSizeOf_eq hd]
    split
    · rfl
    · by_cases ho : Present s ((effPC s).toNat + 1) (f.operandBytes (accW s))
      · have hv := operandAt_of_present (.inr ho)
        have hl := leValue_lt (s.memory.bytes ((effPC s).toNat + 1) (f.operandBytes (accW s)))
        rw [Memory.bytes_length] at hl
        cases hx : exec (f.build (leValue (s.memory.bytes ((effPC s).toNat + 1) (f.operandBytes (accW s))))) s <;>
          simp only [hv, executeOf_of_operand hv, hx, totalCyclesOf_of_operand hd hv, byteSize_build hd s hl]
      · have hv := operandAt_of_absent (operand_ne_zero h1 ho) ho
        simp only [hv, executeOf_of_error hv]
        rcases totalCyclesOf_of_error hv with h | h <;> rw [h]

/-- A completed step that reports its count. -/
theorem stepReport_next {s t : State} {k : Nat} (h : stepReport s = .next (t, k)) :
    step s = .next t ∧ ∃ i, fetchInstr s = .next i ∧ k = totalCycles i s := by
  rw [stepReport_eq] at h
  cases hf : fetchInstr s with
  | fault e => simp [hf] at h
  | refused r => simp [hf] at h
  | next i =>
    cases hx : exec i s with
    | fault e => simp [hf, hx] at h
    | refused r => simp [hf, hx] at h
    | next u =>
      simp only [hf, hx, Host.Outcome.next.injEq, Prod.mk.injEq] at h
      exact ⟨by simp only [step, hf, hx, h.1], i, rfl, h.2.symm⟩

/-! ## Runs -/

@[simp] theorem RunReport.after_state (k : Nat) (r : RunReport) : (r.after k).state = r.state := rfl
@[simp] theorem RunReport.after_counts (k : Nat) (r : RunReport) : (r.after k).counts = k :: r.counts := rfl
@[simp] theorem RunReport.after_ending (k : Nat) (r : RunReport) : (r.after k).ending = r.ending := rfl
@[simp] theorem RunReport.after_total (k : Nat) (r : RunReport) : (r.after k).total = k + r.total := by
  simp only [RunReport.total, RunReport.after_counts, List.sum_cons]

theorem runReport_of_next {s t : State} {k : Nat} (h : stepReport s = .next (t, k)) (n : Nat) :
    runReport (n + 1) s = (runReport n t).after k := by
  simp only [runReport, h]

theorem runReport_of_fault {s : State} {e : Fault} (h : stepReport s = .fault e) (n : Nat) :
    runReport (n + 1) s = ⟨s, [], .fault e⟩ := by
  simp only [runReport, h]

theorem runReport_of_refused {s : State} {r : Refusal} (h : stepReport s = .refused r) (n : Nat) :
    runReport (n + 1) s = ⟨s, [], .refused r⟩ := by
  simp only [runReport, h]

end Sys2Proof.Machine
end

