-- ==== Sys2Proof/Laws/Trace.lean ====
section
/-! SUPPORT. The access trace of a mode, tied to the flat addresses. -/

namespace Sys2Proof.Machine

theorem mem_accessRun {k : AccessKind} {a n : Nat} {x : Access} :
    x ∈ accessRun k a n ↔ x.kind = k ∧ a ≤ x.addr ∧ x.addr < a + n := by
  induction n generalizing a with
  | zero =>
    simp only [accessRun, List.not_mem_nil, false_iff]
    omega
  | succ n ih =>
    simp only [accessRun, List.mem_cons, ih]
    constructor
    · rintro (rfl | ⟨h1, h2, h3⟩)
      · exact ⟨rfl, Nat.le_refl _, by simp⟩
      · exact ⟨h1, by omega, by omega⟩
    · rintro ⟨h1, h2, h3⟩
      by_cases hx : x.addr = a
      · left
        cases x
        simp only at h1 hx
        rw [h1, hx]
      · exact .inr ⟨h1, by omega, by omega⟩

/-- Pointer reads of a mode without a pointer, and of the two shapes that have one. -/
theorem pointerReads_indirect {m : AddrMode} {o : Addr} {s : State} {a : Nat} (h : AddressIs m o s a) (k : Bank) :
    (AddrMode.indirect m k).pointerReads o s = m.pointerReads o s ++ accessRun .read a k.pointerBytes := by
  obtain ⟨e, he, rfl⟩ := h
  simp only [AddrMode.pointerReads, he]

/-- The data accesses of a memory mode lie at its address. -/
theorem dataAccesses_of_address {m : AddrMode} {o : Addr} {s : State} {a : Nat} (h : AddressIs m o s a)
    (hi : m ≠ .immediate) (hr : ∀ r, m ≠ .register r) (k : AccessKind) :
    m.dataAccesses k o s = accessRun k a (accW s).nbytes := by
  obtain ⟨e, he, rfl⟩ := h
  unfold AddrMode.dataAccesses
  split
  · exact absurd rfl hi
  · exact absurd rfl (hr _)
  · simp only [he]

/-- All the pointer reads of an instruction lie in its pointer. -/
theorem pointerReads_mem {i : Instr} {s : State} {mn : String} {m : AddrMode} {o : Addr} {mods : List CycleMod}
    {pre : Option IndexReg} {st : Bool} (h : instanceOf i = .addressed mn m o mods pre st) {x : Access}
    (hx : x ∈ m.pointerReads o s) : ∃ p ∈ pointerOf s i, p.1 ≤ x.addr ∧ x.addr < p.1 + p.2 := by
  cases i <;> simp only [instanceOf, Instance.addressed.injEq, reduceCtorEq] at h <;> obtain ⟨_, rfl, rfl, _⟩ := h <;>
    first
    | exact absurd hx (List.not_mem_nil)
    | (first
       | rw [pointerReads_indirect (addressIs_direct _ s)] at hx
       | rw [pointerReads_indirect (addressIs_direct _ s).indexed_x] at hx
       | rw [AddrMode.pointerReads, pointerReads_indirect (addressIs_direct _ s)] at hx
       | rw [AddrMode.pointerReads, pointerReads_indirect (addressIs_stack _ s)] at hx
       exact ⟨_, rfl, (mem_accessRun.1 (by simpa [AddrMode.pointerReads, Bank.pointerBytes] using hx)).2⟩)

section
variable {i : Instr} {s : State} {mn : String} {m : AddrMode} {o : Addr} {mods : List CycleMod} {pre : Option IndexReg}
  {st : Bool}

/-- An instruction with a memory operand has a memory mode. -/
theorem mode_of_dataAddr (h : instanceOf i = .addressed mn m o mods pre st) (hd : (dataAddr s i).isSome) :
    m ≠ .immediate ∧ ∀ r, m ≠ .register r := by
  cases i <;> simp only [instanceOf, Instance.addressed.injEq, reduceCtorEq] at h <;> obtain ⟨_, rfl, _⟩ := h <;>
    first
    | (cases hd; done)
    | exact ⟨nofun, nofun⟩

/-- The data accesses of an instruction: none, or its datum's bytes. -/
theorem dataAccesses_eq (h : instanceOf i = .addressed mn m o mods pre st) (hr : Ready s i) (k : AccessKind) :
    m.dataAccesses k o s =
      match dataAddr s i with
      | some a => accessRun k a (accW s).nbytes
      | none => [] := by
  have src := source_of_instance s h
  cases hd : dataAddr s i with
  | none =>
    cases src with
    | immediate => rfl
    | register => rfl
    | memory _ a _ _ _ hn _ => simp [hn] at hd
  | some a =>
    obtain ⟨h1, h2⟩ := mode_of_dataAddr (s := s) h (by rw [hd]; rfl)
    exact dataAccesses_of_address (src.address hd hr).1 h1 h2 k

/-- The memory forms of these mnemonics store. -/
theorem stores_of_mnemonic (h : instanceOf i = .addressed mn m o mods pre st) (hd : (dataAddr s i).isSome)
    (hm : mnemonicOf i ∈ ["TRB", "TSB", "ASL", "ROL", "LSR", "ROR", "INC", "DEC"]) : st = true := by
  cases i <;> simp only [instanceOf, Instance.addressed.injEq, reduceCtorEq] at h <;>
    first
    | (cases hd; done)
    | exact (h.2.2.2.2.2.symm.trans rfl : st = true)
    | exact absurd hm (by simp [mnemonicOf, Instance.mnemonic, instanceOf])
end

/-- The operand reads are reads of the bytes after the opcode byte. -/
theorem operandReads_mem {i : Instr} {s : State} {x : Access} (h : x ∈ operandReads i s) :
    x.kind = .read ∧ (effPC s).toNat + 1 ≤ x.addr ∧ x.addr < (effPC s).toNat + byteSize i s := by
  obtain ⟨h1, h2, h3⟩ := mem_accessRun.1 h
  exact ⟨h1, h2, by omega⟩

theorem byteSize_pos (i : Instr) (s : State) : 1 ≤ byteSize i s := by
  cases i <;> simp [byteSize, instanceOf, Instance.byteSize]

theorem accessRun_add (k : AccessKind) (a m n : Nat) :
    accessRun k a (m + n) = accessRun k a m ++ accessRun k (a + m) n := by
  induction m generalizing a with
  | zero => simp [accessRun]
  | succ m ih => rw [Nat.add_right_comm, accessRun, ih, accessRun, List.cons_append, Nat.add_right_comm, Nat.add_assoc]

theorem accessRun_length (k : AccessKind) (a n : Nat) : (accessRun k a n).length = n := by
  induction n generalizing a with
  | zero => rfl
  | succ n ih => rw [accessRun, List.length_cons, ih]

/-- The opcode and operand reads are the reads of the instruction's bytes. -/
theorem accessRun_byteSize (i : Instr) (s : State) :
    accessRun .read (effPC s).toNat (byteSize i s) = accessRun .read (effPC s).toNat 1 ++ operandReads i s := by
  rw [operandReads, ← accessRun_add, Nat.add_sub_cancel' (byteSize_pos i s)]

/-- The pointer reads of an instruction: none, or its pointer's bytes. -/
theorem pointerReads_eq (i : Instr) (s : State) :
    (instanceOf i).pointerReads s = (pointerOf s i).elim [] fun p => accessRun .read p.1 p.2 := by
  cases i <;> first
    | rfl
    | (simp only [instanceOf, Instance.pointerReads]
       first
       | rw [pointerReads_indirect (addressIs_direct _ s)]
       | rw [pointerReads_indirect (addressIs_direct _ s).indexed_x]
       | rw [AddrMode.pointerReads, pointerReads_indirect (addressIs_direct _ s)]
       | rw [AddrMode.pointerReads, pointerReads_indirect (addressIs_stack _ s)]
       simp [AddrMode.pointerReads, Bank.pointerBytes, pointerOf])

/-- All that `Execute` accesses after the operand bytes, where they exist: pointer, data read, data write (20_memory.md R74 (3) to (5)). -/
theorem accesses_eq {i : Instr} {s : State} (hr : Ready s i) : (instanceOf i).accesses s =
    (instanceOf i).pointerReads s ++ (dataAddr s i).elim [] fun a => accessRun .read a (accW s).nbytes ++
      if mnemonicOf i ∈ ["TRB", "TSB", "ASL", "ROL", "LSR", "ROR", "INC", "DEC"] then accessRun .write a (accW s).nbytes
      else [] := by
  cases hi : instanceOf i with
  | status mn n k b => cases i <;> first | rfl | cases hi
  | addressed mn m o mods pre st =>
    simp only [Instance.accesses, Instance.pointerReads, dataAccesses_eq hi hr, List.append_assoc]
    congr 1
    cases hd : dataAddr s i with
    | none => simp
    | some a =>
      have hst : st = true ↔ mnemonicOf i ∈ ["TRB", "TSB", "ASL", "ROL", "LSR", "ROR", "INC", "DEC"] := by
        refine ⟨?_, stores_of_mnemonic hi (by rw [hd]; rfl)⟩
        clear hd hr
        cases i <;> cases hi <;> simp [mnemonicOf, instanceOf, Instance.mnemonic]
      simp only [hst, Option.elim]

end Sys2Proof.Machine
end

