-- ==== Sys2Proof/Tests/Slice0.lean ====
section
/-! SUPPORT. Tests, each by evaluation. `test_R<n>_…` is the example that rule gives its opcode, `test_V<n>` and `test_F<n>` a row
of 95_test_vectors.md, `test_T_…` its disassembly rows; all expected values are the spec's. `witness_…` shows a state and operands that
meet the hypotheses of the obligation it names. -/

namespace Sys2Proof.Tests

open Sys2Proof Sys2Proof.Machine

/-! ## WellFormed refuses -/

theorem test_wellFormed_refuses_a_wide_ORA_immediate : (Instr.oraImm 0x0100).wellFormed .bit8 = false := by decide
theorem test_wellFormed_refuses_a_wide_AND_immediate : (Instr.andImm 0xFFFF).wellFormed .bit8 = false := by decide
theorem test_wellFormed_refuses_a_wide_BIT_immediate : (Instr.bitImm 0x8000).wellFormed .bit8 = false := by decide

/-! ## Decoding: the opcode map of 30_encoding.md, operands little-endian -/

/-- Those bytes decode to that instruction with nothing left, and it encodes to them. -/
def reads (w : Width) (p : List Byte × Instr) : Bool :=
  encode w p.2 == p.1 &&
    match decode w (p.1 ++ [0xFF]) with
    | .ok (i, rest) => i == p.2 && rest == [0xFF]
    | .error _ => false

theorem test_decode_ORA : [
    ([0x0D, 0x34, 0x12], .oraAbs 0x1234), ([0x0F, 0x56, 0x34, 0x12], .oraLong 0x123456), ([0x05, 0x12], .oraDp 0x12),
    ([0x12, 0x12], .oraDpInd 0x12), ([0x07, 0x12], .oraDpIndLong 0x12), ([0x1D, 0x34, 0x12], .oraAbsX 0x1234),
    ([0x1F, 0x56, 0x34, 0x12], .oraLongX 0x123456), ([0x19, 0x34, 0x12], .oraAbsY 0x1234),
    ([0x15, 0x12], .oraDpX 0x12), ([0x01, 0x12], .oraDpXInd 0x12), ([0x11, 0x12], .oraDpIndY 0x12),
    ([0x17, 0x12], .oraDpIndLongY 0x12), ([0x03, 0x12], .oraSr 0x12), ([0x13, 0x12], .oraSrIndY 0x12)].all (reads .bit8) = true := by decide

theorem test_decode_AND : [
    ([0x2D, 0x34, 0x12], .andAbs 0x1234), ([0x2F, 0x56, 0x34, 0x12], .andLong 0x123456), ([0x25, 0x12], .andDp 0x12),
    ([0x32, 0x12], .andDpInd 0x12), ([0x27, 0x12], .andDpIndLong 0x12), ([0x3D, 0x34, 0x12], .andAbsX 0x1234),
    ([0x3F, 0x56, 0x34, 0x12], .andLongX 0x123456), ([0x39, 0x34, 0x12], .andAbsY 0x1234),
    ([0x35, 0x12], .andDpX 0x12), ([0x21, 0x12], .andDpXInd 0x12), ([0x31, 0x12], .andDpIndY 0x12),
    ([0x37, 0x12], .andDpIndLongY 0x12), ([0x23, 0x12], .andSr 0x12), ([0x33, 0x12], .andSrIndY 0x12)].all (reads .bit8) = true := by decide

theorem test_decode_BIT_TRB_TSB : [
    ([0x2C, 0x34, 0x12], .bitAbs 0x1234), ([0x24, 0x12], .bitDp 0x12), ([0x3C, 0x34, 0x12], .bitAbsX 0x1234),
    ([0x34, 0x12], .bitDpX 0x12), ([0x1C, 0x34, 0x12], .trbAbs 0x1234), ([0x14, 0x12], .trbDp 0x12),
    ([0x0C, 0x34, 0x12], .tsbAbs 0x1234), ([0x04, 0x12], .tsbDp 0x12)].all (reads .bit8) = true := by decide

theorem test_decode_shifts : [
    ([0x0A], .aslA), ([0x06, 0x12], .aslDp 0x12), ([0x0E, 0x34, 0x12], .aslAbs 0x1234), ([0x16, 0x12], .aslDpX 0x12),
    ([0x1E, 0x34, 0x12], .aslAbsX 0x1234), ([0x2A], .rolA), ([0x26, 0x12], .rolDp 0x12),
    ([0x2E, 0x34, 0x12], .rolAbs 0x1234), ([0x36, 0x12], .rolDpX 0x12), ([0x3E, 0x34, 0x12], .rolAbsX 0x1234),
    ([0x4A], .lsrA), ([0x46, 0x12], .lsrDp 0x12), ([0x4E, 0x34, 0x12], .lsrAbs 0x1234), ([0x56, 0x12], .lsrDpX 0x12),
    ([0x5E, 0x34, 0x12], .lsrAbsX 0x1234), ([0x6A], .rorA), ([0x66, 0x12], .rorDp 0x12),
    ([0x6E, 0x34, 0x12], .rorAbs 0x1234), ([0x76, 0x12], .rorDpX 0x12), ([0x7E, 0x34, 0x12], .rorAbsX 0x1234)].all (reads .bit8) = true := by decide

theorem test_decode_counters : [
    ([0x1A], .incA), ([0xEE, 0x34, 0x12], .incAbs 0x1234), ([0xE6, 0x12], .incDp 0x12),
    ([0xFE, 0x34, 0x12], .incAbsX 0x1234), ([0xF6, 0x12], .incDpX 0x12), ([0xE8], .inx), ([0xC8], .iny),
    ([0x3A], .decA), ([0xCE, 0x34, 0x12], .decAbs 0x1234), ([0xC6, 0x12], .decDp 0x12),
    ([0xDE, 0x34, 0x12], .decAbsX 0x1234), ([0xD6, 0x12], .decDpX 0x12), ([0xCA], .dex), ([0x88], .dey)].all (reads .bit8) = true := by decide

theorem test_decode_status : [
    ([0x18], .clc), ([0x38], .sec), ([0xD8], .cld), ([0xF8], .sed), ([0x78], .sei), ([0x58], .cli), ([0xB8], .clv),
    ([0xEA], .nop), ([0xEB], .xba), ([0xFB], .xce), ([0xC2, 0x12], .rep 0x12), ([0xE2, 0x12], .sep 0x12)].all (reads .bit8) = true := by decide

theorem test_decode_immediates_8 : [([0x09, 0xA5], .oraImm 0xA5), ([0x29, 0xA5], .andImm 0xA5), ([0x89, 0xA5], .bitImm 0xA5)].all (reads .bit8) = true := by decide

theorem test_decode_immediates_16 : [
    ([0x09, 0xA5, 0x80], .oraImm 0x80A5), ([0x29, 0xA5, 0x80], .andImm 0x80A5), ([0x89, 0xA5, 0x80], .bitImm 0x80A5)].all (reads .bit16) = true := by decide

theorem test_decode_refuses_an_unclaimed_byte : decode .bit8 [0x4C, 0x00, 0x80] = .error (.notClaimed 0x4C) := by decide
theorem test_decode_refuses_a_missing_operand_byte : decode .bit16 [0x09, 0xA5] = .error .truncated := by decide
theorem test_decodeTableWord_reads_an_operand : decodeTableWord 24 0x34560D = some (.oraAbs 0x3456) := by decide
theorem test_decodeTableWord_pads_with_zeros : decodeTableWord 8 0x0F = some (.oraLong 0) := by decide
theorem test_decodeTableWord_refuses : decodeTableWord 8 0x00 = none := by decide

/-! ## Steps -/

/-- The start state of 95_test_vectors.md: every field zero or false, `pc = 0x8000`, emulation mode. -/
def emu : State := { State.resetFrom Config.default [] ⟨0x8000, 0, 0, 0, 0, 0⟩ Unspecified.zeros with irqDisable := false }

/-- The same in native mode. -/
def nat : State := { emu with emuMode := .native }

/-- Native mode with these widths. -/
def widths (a i : Width) : State := { nat with accSize := a, indexSize := i }

/-- Bytes put into memory. -/
def load (s : State) (a : Nat) (bs : List Byte) : State := s.setMemory (s.memory.writeBytes a bs)

/-- Instruction bytes put where the next step fetches. -/
def code (s : State) (bs : List Byte) : State := load s (effPC s).toNat bs

/-- The step completes, with exactly these changes and these cycles. -/
def Gives (s : State) (f : State → State) (k : Nat) : Bool :=
  match stepReport s with
  | .next p => p == (f s, k)
  | .fault _ => false
  | .refused _ => false

/-- The step stops with this outcome. -/
def Stops (s : State) (o : Host.Outcome State Fault Refusal) : Bool :=
  match step s, o with
  | .fault f, .fault g => f == g
  | .refused f, .refused g => f == g
  | .next _, _ => false
  | .fault _, _ => false
  | .refused _, _ => false

theorem test_R203_oraImm : Gives
    (code { emu with acc := 0x000F } [0x09, 0xF0])
    (fun s => { s with acc := 0x00FF, neg := true, zero := false, pc := 0x8002 }) 2 := by decide
theorem test_R204_oraAbs : Gives
    (load (code { emu with acc := 0x000F, dataBank := 0x12 } [0x0D, 0x56, 0x34]) 0x123456 [0xF0])
    (fun s => { s with acc := 0x00FF, neg := true, zero := false, pc := 0x8003 }) 4 := by decide
theorem test_R205_oraLong : Gives
    (load (code { emu with acc := 0x000F } [0x0F, 0x56, 0x34, 0x7E]) 0x7E3456 [0xF0])
    (fun s => { s with acc := 0x00FF, neg := true, zero := false, pc := 0x8004 }) 5 := by decide
theorem test_R206_oraDp : Gives
    (load (code { emu with acc := 0x000F, directPage := 0x0020 } [0x05, 0x10]) 0x000030 [0xF0])
    (fun s => { s with acc := 0x00FF, neg := true, zero := false, pc := 0x8002 }) 4 := by decide
theorem test_R207_oraDpInd : Gives
    (load (load (code { emu with acc := 0x000F, directPage := 0x0020, dataBank := 0x12 } [0x12, 0x10]) 0x000030 [0x00, 0x40]) 0x124000 [0xF0])
    (fun s => { s with acc := 0x00FF, neg := true, zero := false, pc := 0x8002 }) 6 := by decide
theorem test_R208_oraDpIndLong : Gives
    (load (load (code { emu with acc := 0x000F, directPage := 0x0020 } [0x07, 0x10]) 0x000030 [0x00, 0x40, 0x7F]) 0x7F4000 [0xF0])
    (fun s => { s with acc := 0x00FF, neg := true, zero := false, pc := 0x8002 }) 7 := by decide
theorem test_R209_oraAbsX : Gives
    (load (code { emu with acc := 0x000F, dataBank := 0x12, x := 0x0004 } [0x1D, 0x56, 0x34]) 0x12345A [0xF0])
    (fun s => { s with acc := 0x00FF, neg := true, zero := false, pc := 0x8003 }) 4 := by decide
theorem test_R210_oraLongX : Gives
    (load (code { emu with acc := 0x000F, x := 0x0004 } [0x1F, 0x56, 0x34, 0x7E]) 0x7E345A [0xF0])
    (fun s => { s with acc := 0x00FF, neg := true, zero := false, pc := 0x8004 }) 5 := by decide
theorem test_R211_oraAbsY : Gives
    (load (code { emu with acc := 0x000F, dataBank := 0x12, y := 0x0003 } [0x19, 0x56, 0x34]) 0x123459 [0xF0])
    (fun s => { s with acc := 0x00FF, neg := true, zero := false, pc := 0x8003 }) 4 := by decide
theorem test_R212_oraDpX : Gives
    (load (code { emu with acc := 0x000F, directPage := 0x0020, x := 0x0004 } [0x15, 0x10]) 0x000034 [0xF0])
    (fun s => { s with acc := 0x00FF, neg := true, zero := false, pc := 0x8002 }) 5 := by decide
theorem test_R213_oraDpXInd : Gives
    (load (load (code { emu with acc := 0x000F, directPage := 0x0020, x := 0x0004, dataBank := 0x12 } [0x01, 0x10]) 0x000034 [0x00, 0x40]) 0x124000 [0xF0])
    (fun s => { s with acc := 0x00FF, neg := true, zero := false, pc := 0x8002 }) 7 := by decide
theorem test_R214_oraDpIndY : Gives
    (load (load (code { emu with acc := 0x000F, directPage := 0x0020, dataBank := 0x12, y := 0x0003 } [0x11, 0x10]) 0x000030 [0x00, 0x40]) 0x124003 [0xF0])
    (fun s => { s with acc := 0x00FF, neg := true, zero := false, pc := 0x8002 }) 6 := by decide
theorem test_R215_oraDpIndLongY : Gives
    (load (load (code { emu with acc := 0x000F, directPage := 0x0020, y := 0x0003 } [0x17, 0x10]) 0x000030 [0x00, 0x40, 0x7F]) 0x7F4003 [0xF0])
    (fun s => { s with acc := 0x00FF, neg := true, zero := false, pc := 0x8002 }) 7 := by decide
theorem test_R216_oraSr : Gives
    (load (code { emu with acc := 0x000F, stackPtr := 0x01F0 } [0x03, 0x10]) 0x000200 [0xF0])
    (fun s => { s with acc := 0x00FF, neg := true, zero := false, pc := 0x8002 }) 4 := by decide
theorem test_R217_oraSrIndY : Gives
    (load (load (code { emu with acc := 0x000F, stackPtr := 0x01F0, dataBank := 0x12, y := 0x0003 } [0x13, 0x10]) 0x000200 [0x00, 0x40]) 0x124003 [0xF0])
    (fun s => { s with acc := 0x00FF, neg := true, zero := false, pc := 0x8002 }) 7 := by decide
theorem test_R218_andImm : Gives
    (code { nat with accSize := .bit16, indexSize := .bit16, acc := 0xFF00 } [0x29, 0x0F, 0xF0])
    (fun s => { s with acc := 0xF000, neg := true, zero := false, pc := 0x8003 }) 3 := by decide
theorem test_R219_andAbs : Gives
    (load (code { nat with accSize := .bit16, indexSize := .bit16, acc := 0xFF00, dataBank := 0x12 } [0x2D, 0x56, 0x34]) 0x123456 [0x0F, 0xF0])
    (fun s => { s with acc := 0xF000, neg := true, zero := false, pc := 0x8003 }) 5 := by decide
theorem test_R220_andLong : Gives
    (load (code { nat with accSize := .bit16, indexSize := .bit16, acc := 0xFF00 } [0x2F, 0x56, 0x34, 0x7E]) 0x7E3456 [0x0F, 0xF0])
    (fun s => { s with acc := 0xF000, neg := true, zero := false, pc := 0x8004 }) 6 := by decide
theorem test_R221_andDp : Gives
    (load (code { nat with accSize := .bit16, indexSize := .bit16, acc := 0xFF00, directPage := 0x0100 } [0x25, 0x10]) 0x000110 [0x0F, 0xF0])
    (fun s => { s with acc := 0xF000, neg := true, zero := false, pc := 0x8002 }) 4 := by decide
theorem test_R222_andDpInd : Gives
    (load (load (code { nat with accSize := .bit16, indexSize := .bit16, acc := 0xFF00, directPage := 0x0100, dataBank := 0x12 } [0x32, 0x10]) 0x000110 [0x00, 0x40]) 0x124000 [0x0F, 0xF0])
    (fun s => { s with acc := 0xF000, neg := true, zero := false, pc := 0x8002 }) 6 := by decide
theorem test_R223_andDpIndLong : Gives
    (load (load (code { nat with accSize := .bit16, indexSize := .bit16, acc := 0xFF00, directPage := 0x0100 } [0x27, 0x10]) 0x000110 [0x00, 0x40, 0x7F]) 0x7F4000 [0x0F, 0xF0])
    (fun s => { s with acc := 0xF000, neg := true, zero := false, pc := 0x8002 }) 7 := by decide
theorem test_R224_andAbsX : Gives
    (load (code { nat with accSize := .bit16, indexSize := .bit16, acc := 0xFF00, dataBank := 0x12, x := 0x01C0 } [0x3D, 0x56, 0x34]) 0x123616 [0x0F, 0xF0])
    (fun s => { s with acc := 0xF000, neg := true, zero := false, pc := 0x8003 }) 6 := by decide
theorem test_R225_andLongX : Gives
    (load (code { nat with accSize := .bit16, indexSize := .bit16, acc := 0xFF00, x := 0x01C0 } [0x3F, 0x56, 0x34, 0x7E]) 0x7E3616 [0x0F, 0xF0])
    (fun s => { s with acc := 0xF000, neg := true, zero := false, pc := 0x8004 }) 6 := by decide
theorem test_R226_andAbsY : Gives
    (load (code { nat with accSize := .bit16, indexSize := .bit16, acc := 0xFF00, dataBank := 0x12, y := 0x00C0 } [0x39, 0x56, 0x34]) 0x123516 [0x0F, 0xF0])
    (fun s => { s with acc := 0xF000, neg := true, zero := false, pc := 0x8003 }) 6 := by decide
theorem test_R227_andDpX : Gives
    (load (code { nat with accSize := .bit16, indexSize := .bit16, acc := 0xFF00, directPage := 0x0100, x := 0x01C0 } [0x35, 0x10]) 0x0002D0 [0x0F, 0xF0])
    (fun s => { s with acc := 0xF000, neg := true, zero := false, pc := 0x8002 }) 5 := by decide
theorem test_R228_andDpXInd : Gives
    (load (load (code { nat with accSize := .bit16, indexSize := .bit16, acc := 0xFF00, directPage := 0x0100, x := 0x01C0, dataBank := 0x12 } [0x21, 0x10]) 0x0002D0 [0x00, 0x40]) 0x124000 [0x0F, 0xF0])
    (fun s => { s with acc := 0xF000, neg := true, zero := false, pc := 0x8002 }) 7 := by decide
theorem test_R229_andDpIndY : Gives
    (load (load (code { nat with accSize := .bit16, indexSize := .bit16, acc := 0xFF00, directPage := 0x0100, dataBank := 0x12, y := 0x00C0 } [0x31, 0x10]) 0x000110 [0x00, 0x40]) 0x1240C0 [0x0F, 0xF0])
    (fun s => { s with acc := 0xF000, neg := true, zero := false, pc := 0x8002 }) 6 := by decide
theorem test_R230_andDpIndLongY : Gives
    (load (load (code { nat with accSize := .bit16, indexSize := .bit16, acc := 0xFF00, directPage := 0x0100, y := 0x00C0 } [0x37, 0x10]) 0x000110 [0x00, 0x40, 0x7F]) 0x7F40C0 [0x0F, 0xF0])
    (fun s => { s with acc := 0xF000, neg := true, zero := false, pc := 0x8002 }) 7 := by decide
theorem test_R231_andSr : Gives
    (load (code { nat with accSize := .bit16, indexSize := .bit16, acc := 0xFF00, stackPtr := 0x1FF0 } [0x23, 0x10]) 0x002000 [0x0F, 0xF0])
    (fun s => { s with acc := 0xF000, neg := true, zero := false, pc := 0x8002 }) 5 := by decide
theorem test_R232_andSrIndY : Gives
    (load (load (code { nat with accSize := .bit16, indexSize := .bit16, acc := 0xFF00, stackPtr := 0x1FF0, dataBank := 0x12, y := 0x00C0 } [0x33, 0x10]) 0x002000 [0x00, 0x40]) 0x1240C0 [0x0F, 0xF0])
    (fun s => { s with acc := 0xF000, neg := true, zero := false, pc := 0x8002 }) 8 := by decide
theorem test_R244_bitImm : Gives
    (code { emu with acc := 0x0001 } [0x89, 0xC0])
    (fun s => { s with neg := true, overflow := true, zero := true, pc := 0x8002 }) 2 := by decide
theorem test_R245_bitAbs : Gives
    (load (code { nat with accSize := .bit16, indexSize := .bit8, acc := 0x00FF, dataBank := 0x12 } [0x2C, 0x56, 0x34]) 0x123456 [0x00, 0x4F])
    (fun s => { s with neg := false, overflow := true, zero := true, pc := 0x8003 }) 5 := by decide
theorem test_R246_bitDp : Gives
    (load (code { emu with acc := 0x0081, directPage := 0x0000 } [0x24, 0x10]) 0x000010 [0x80])
    (fun s => { s with neg := true, overflow := false, zero := false, pc := 0x8002 }) 3 := by decide
theorem test_R247_bitAbsX : Gives
    (load (code { nat with accSize := .bit8, indexSize := .bit16, acc := 0x0001, dataBank := 0x12, x := 0x00AB } [0x3C, 0x56, 0x34]) 0x123501 [0x41])
    (fun s => { s with neg := false, overflow := true, zero := false, pc := 0x8003 }) 5 := by decide
theorem test_R248_bitDpX : Gives
    (load (code { emu with acc := 0x00FF, directPage := 0x0020, x := 0x0004 } [0x34, 0x10]) 0x000034 [0x00])
    (fun s => { s with neg := false, overflow := false, zero := true, pc := 0x8002 }) 5 := by decide
theorem test_R249_trbAbs : Gives
    (load (code { emu with acc := 0x00F0, dataBank := 0x12 } [0x1C, 0x56, 0x34]) 0x123456 [0x3C])
    (fun s => load ({ s with zero := false, pc := 0x8003 }) 0x123456 [0xC0]) 6 := by decide
theorem test_R250_trbDp : Gives
    (load (code { nat with accSize := .bit16, indexSize := .bit16, acc := 0x00FF, directPage := 0x0100 } [0x14, 0x10]) 0x000110 [0x0F, 0x0F])
    (fun s => load ({ s with zero := false, pc := 0x8002 }) 0x000110 [0xF0, 0x00]) 7 := by decide
theorem test_R251_tsbAbs : Gives
    (load (code { nat with accSize := .bit16, indexSize := .bit16, acc := 0x8001, dataBank := 0x12 } [0x0C, 0x56, 0x34]) 0x123456 [0x00, 0x01])
    (fun s => load ({ s with zero := true, pc := 0x8003 }) 0x123456 [0x01, 0x81]) 8 := by decide
theorem test_R252_tsbDp : Gives
    (load (code { emu with acc := 0x0055, directPage := 0x0020 } [0x04, 0x10]) 0x000030 [0xAA])
    (fun s => load ({ s with zero := true, pc := 0x8002 }) 0x000030 [0xFF]) 6 := by decide
theorem test_R262_aslA : Gives
    (code { emu with acc := 0x0081, carry := false } [0x0A])
    (fun s => { s with acc := 0x0002, neg := false, zero := false, carry := true, pc := 0x8001 }) 2 := by decide
theorem test_R263_aslDp : Gives
    (load (code { emu with directPage := 0x0020, carry := false } [0x06, 0x10]) 0x000030 [0x40])
    (fun s => load ({ s with neg := true, zero := false, carry := false, pc := 0x8002 }) 0x000030 [0x80]) 6 := by decide
theorem test_R264_aslAbs : Gives
    (load (code { emu with dataBank := 0x12, carry := false } [0x0E, 0x56, 0x34]) 0x123456 [0x80])
    (fun s => load ({ s with neg := false, zero := true, carry := true, pc := 0x8003 }) 0x123456 [0x00]) 6 := by decide
theorem test_R265_aslDpX : Gives
    (load (code { emu with directPage := 0x0020, x := 0x0004, carry := false } [0x16, 0x10]) 0x000034 [0x40])
    (fun s => load ({ s with neg := true, zero := false, carry := false, pc := 0x8002 }) 0x000034 [0x80]) 7 := by decide
theorem test_R266_aslAbsX : Gives
    (load (code { emu with dataBank := 0x12, x := 0x0004, carry := false } [0x1E, 0x56, 0x34]) 0x12345A [0x80])
    (fun s => load ({ s with neg := false, zero := true, carry := true, pc := 0x8003 }) 0x12345A [0x00]) 7 := by decide
theorem test_R267_rolA : Gives
    (code { nat with accSize := .bit16, indexSize := .bit16, acc := 0x8001, carry := true } [0x2A])
    (fun s => { s with acc := 0x0003, neg := false, zero := false, carry := true, pc := 0x8001 }) 2 := by decide
theorem test_R268_rolDp : Gives
    (load (code { nat with accSize := .bit16, indexSize := .bit16, directPage := 0x0100, carry := true } [0x26, 0x10]) 0x000110 [0x00, 0x40])
    (fun s => load ({ s with neg := true, zero := false, carry := false, pc := 0x8002 }) 0x000110 [0x01, 0x80]) 6 := by decide
theorem test_R269_rolAbs : Gives
    (load (code { nat with accSize := .bit16, indexSize := .bit16, dataBank := 0x12, carry := true } [0x2E, 0x56, 0x34]) 0x123456 [0x01, 0x80])
    (fun s => load ({ s with neg := false, zero := false, carry := true, pc := 0x8003 }) 0x123456 [0x03, 0x00]) 8 := by decide
theorem test_R270_rolDpX : Gives
    (load (code { nat with accSize := .bit16, indexSize := .bit16, directPage := 0x0100, x := 0x0104, carry := true } [0x36, 0x10]) 0x000214 [0x00, 0x40])
    (fun s => load ({ s with neg := true, zero := false, carry := false, pc := 0x8002 }) 0x000214 [0x01, 0x80]) 7 := by decide
theorem test_R271_rolAbsX : Gives
    (load (code { nat with accSize := .bit16, indexSize := .bit16, dataBank := 0x12, x := 0x0104, carry := true } [0x3E, 0x56, 0x34]) 0x12355A [0x01, 0x80])
    (fun s => load ({ s with neg := false, zero := false, carry := true, pc := 0x8003 }) 0x12355A [0x03, 0x00]) 9 := by decide
theorem test_R272_lsrA : Gives
    (code { emu with acc := 0x0001, carry := true } [0x4A])
    (fun s => { s with acc := 0x0000, neg := false, zero := true, carry := true, pc := 0x8001 }) 2 := by decide
theorem test_R273_lsrDp : Gives
    (load (code { emu with directPage := 0x0020, carry := true } [0x46, 0x10]) 0x000030 [0x81])
    (fun s => load ({ s with neg := false, zero := false, carry := true, pc := 0x8002 }) 0x000030 [0x40]) 6 := by decide
theorem test_R274_lsrAbs : Gives
    (load (code { emu with dataBank := 0x12, carry := true } [0x4E, 0x56, 0x34]) 0x123456 [0xFE])
    (fun s => load ({ s with neg := false, zero := false, carry := false, pc := 0x8003 }) 0x123456 [0x7F]) 6 := by decide
theorem test_R275_lsrDpX : Gives
    (load (code { emu with directPage := 0x0020, x := 0x0004, carry := true } [0x56, 0x10]) 0x000034 [0x81])
    (fun s => load ({ s with neg := false, zero := false, carry := true, pc := 0x8002 }) 0x000034 [0x40]) 7 := by decide
theorem test_R276_lsrAbsX : Gives
    (load (code { emu with dataBank := 0x12, x := 0x0004, carry := true } [0x5E, 0x56, 0x34]) 0x12345A [0xFE])
    (fun s => load ({ s with neg := false, zero := false, carry := false, pc := 0x8003 }) 0x12345A [0x7F]) 7 := by decide
theorem test_R277_rorA : Gives
    (code { nat with accSize := .bit16, indexSize := .bit16, acc := 0x0001, carry := true } [0x6A])
    (fun s => { s with acc := 0x8000, neg := true, zero := false, carry := true, pc := 0x8001 }) 2 := by decide
theorem test_R278_rorDp : Gives
    (load (code { nat with accSize := .bit16, indexSize := .bit16, directPage := 0x0100, carry := true } [0x66, 0x10]) 0x000110 [0x02, 0x00])
    (fun s => load ({ s with neg := true, zero := false, carry := false, pc := 0x8002 }) 0x000110 [0x01, 0x80]) 6 := by decide
theorem test_R279_rorAbs : Gives
    (load (code { nat with accSize := .bit16, indexSize := .bit16, dataBank := 0x12, carry := true } [0x6E, 0x56, 0x34]) 0x123456 [0x01, 0x80])
    (fun s => load ({ s with neg := true, zero := false, carry := true, pc := 0x8003 }) 0x123456 [0x00, 0xC0]) 8 := by decide
theorem test_R280_rorDpX : Gives
    (load (code { nat with accSize := .bit16, indexSize := .bit16, directPage := 0x0100, x := 0x0104, carry := true } [0x76, 0x10]) 0x000214 [0x02, 0x00])
    (fun s => load ({ s with neg := true, zero := false, carry := false, pc := 0x8002 }) 0x000214 [0x01, 0x80]) 7 := by decide
theorem test_R281_rorAbsX : Gives
    (load (code { nat with accSize := .bit16, indexSize := .bit16, dataBank := 0x12, x := 0x0104, carry := true } [0x7E, 0x56, 0x34]) 0x12355A [0x01, 0x80])
    (fun s => load ({ s with neg := true, zero := false, carry := true, pc := 0x8003 }) 0x12355A [0x00, 0xC0]) 9 := by decide
theorem test_R293_incA : Gives
    (code { emu with acc := 0x007F } [0x1A])
    (fun s => { s with acc := 0x0080, neg := true, zero := false, pc := 0x8001 }) 2 := by decide
theorem test_R294_incAbs : Gives
    (load (code { nat with accSize := .bit16, indexSize := .bit16, dataBank := 0x12 } [0xEE, 0x56, 0x34]) 0x123456 [0xFF, 0x00])
    (fun s => load ({ s with neg := false, zero := false, pc := 0x8003 }) 0x123456 [0x00, 0x01]) 8 := by decide
theorem test_R295_incDp : Gives
    (load (code { emu with directPage := 0x0020 } [0xE6, 0x10]) 0x000030 [0xFF])
    (fun s => load ({ s with neg := false, zero := true, pc := 0x8002 }) 0x000030 [0x00]) 6 := by decide
theorem test_R296_incAbsX : Gives
    (load (code { emu with dataBank := 0x12, x := 0x0004 } [0xFE, 0x56, 0x34]) 0x12345A [0x7F])
    (fun s => load ({ s with neg := true, zero := false, pc := 0x8003 }) 0x12345A [0x80]) 7 := by decide
theorem test_R297_incDpX : Gives
    (load (code { nat with accSize := .bit16, indexSize := .bit8, directPage := 0x0100, x := 0x0004 } [0xF6, 0x10]) 0x000114 [0xFF, 0xFF])
    (fun s => load ({ s with neg := false, zero := true, pc := 0x8002 }) 0x000114 [0x00, 0x00]) 8 := by decide
theorem test_R298_inx : Gives
    (code { emu with x := 0x00FF } [0xE8])
    (fun s => { s with x := 0x0000, neg := false, zero := true, pc := 0x8001 }) 2 := by decide
theorem test_R299_iny : Gives
    (code { nat with accSize := .bit8, indexSize := .bit16, y := 0x00FF } [0xC8])
    (fun s => { s with y := 0x0100, neg := false, zero := false, pc := 0x8001 }) 2 := by decide
theorem test_R300_decA : Gives
    (code { nat with accSize := .bit16, indexSize := .bit16, acc := 0x0000 } [0x3A])
    (fun s => { s with acc := 0xFFFF, neg := true, zero := false, pc := 0x8001 }) 2 := by decide
theorem test_R301_decAbs : Gives
    (load (code { emu with dataBank := 0x12 } [0xCE, 0x56, 0x34]) 0x123456 [0x01])
    (fun s => load ({ s with neg := false, zero := true, pc := 0x8003 }) 0x123456 [0x00]) 6 := by decide
theorem test_R302_decDp : Gives
    (load (code { nat with accSize := .bit16, indexSize := .bit16, directPage := 0x0120 } [0xC6, 0x10]) 0x000130 [0x00, 0x01])
    (fun s => load ({ s with neg := false, zero := false, pc := 0x8002 }) 0x000130 [0xFF, 0x00]) 8 := by decide
theorem test_R303_decAbsX : Gives
    (load (code { nat with accSize := .bit16, indexSize := .bit16, dataBank := 0x12, x := 0x0104 } [0xDE, 0x56, 0x34]) 0x12355A [0x00, 0x80])
    (fun s => load ({ s with neg := false, zero := false, pc := 0x8003 }) 0x12355A [0xFF, 0x7F]) 9 := by decide
theorem test_R304_decDpX : Gives
    (load (code { emu with directPage := 0x0020, x := 0x0004 } [0xD6, 0x10]) 0x000034 [0x00])
    (fun s => load ({ s with neg := true, zero := false, pc := 0x8002 }) 0x000034 [0xFF]) 7 := by decide
theorem test_R305_dex : Gives
    (code { emu with x := 0x0000 } [0xCA])
    (fun s => { s with x := 0x00FF, neg := true, zero := false, pc := 0x8001 }) 2 := by decide
theorem test_R306_dey : Gives
    (code { nat with accSize := .bit8, indexSize := .bit16, y := 0x0100 } [0x88])
    (fun s => { s with y := 0x00FF, neg := false, zero := false, pc := 0x8001 }) 2 := by decide
theorem test_R323_clc : Gives
    (code { emu with carry := true } [0x18])
    (fun s => { s with carry := false, pc := 0x8001 }) 2 := by decide
theorem test_R324_sec : Gives
    (code { emu with carry := false } [0x38])
    (fun s => { s with carry := true, pc := 0x8001 }) 2 := by decide
theorem test_R325_cld : Gives
    (code { nat with accSize := .bit8, indexSize := .bit8, decimalMode := true } [0xD8])
    (fun s => { s with decimalMode := false, pc := 0x8001 }) 2 := by decide
theorem test_R326_sed : Gives
    (code { emu with decimalMode := false } [0xF8])
    (fun s => { s with decimalMode := true, pc := 0x8001 }) 2 := by decide
theorem test_R327_sei : Gives
    (code { emu with irqDisable := false } [0x78])
    (fun s => { s with irqDisable := true, pc := 0x8001 }) 2 := by decide
theorem test_R328_cli : Gives
    (code { emu with irqDisable := true } [0x58])
    (fun s => { s with irqDisable := false, pc := 0x8001 }) 2 := by decide
theorem test_R329_clv : Gives
    (code { nat with accSize := .bit16, indexSize := .bit16, overflow := true } [0xB8])
    (fun s => { s with overflow := false, pc := 0x8001 }) 2 := by decide
theorem test_R330_nop : Gives (code emu [0xEA]) (fun s => { s with pc := 0x8001 }) 2 := by decide
theorem test_R331_xba : Gives
    (code { emu with acc := 0x8000 } [0xEB])
    (fun s => { s with acc := 0x0080, neg := false, zero := false, pc := 0x8001 }) 3 := by decide
theorem test_R332_xce : Gives
    (code { emu with carry := false } [0xFB])
    (fun s => { s with accSize := .bit8, indexSize := .bit8, emuMode := .native, carry := true, pc := 0x8001 }) 2 := by decide
theorem test_R333_rep : Gives
    (code { nat with accSize := .bit8, indexSize := .bit8, carry := true, neg := true } [0xC2, 0x31])
    (fun s => { s with accSize := .bit16, indexSize := .bit16, neg := true, carry := false, pc := 0x8002 }) 3 := by decide
theorem test_R334_sep : Gives
    (code { nat with accSize := .bit16, indexSize := .bit16 } [0xE2, 0x30])
    (fun s => { s with accSize := .bit8, indexSize := .bit8, pc := 0x8002 }) 3 := by decide

theorem test_V2 : Gives
    (code { nat with accSize := .bit16, indexSize := .bit16, acc := 0x0F00 } [0x09, 0xF0, 0x80])
    (fun s => { s with acc := 0x8FF0, neg := true, pc := 0x8003 }) 3 := by decide
theorem test_V3 : Gives
    (code { emu with acc := 0x12FF } [0x29, 0x0F])
    (fun s => { s with acc := 0x120F, pc := 0x8002 }) 2 := by decide
theorem test_V5 : Gives
    (load (code { nat with accSize := .bit16, indexSize := .bit16, x := 0xFFFF, dataBank := 0x12 } [0x1D, 0xFF, 0xFF]) 0x13FFFE [0x01, 0x80])
    (fun s => { s with acc := 0x8001, neg := true, pc := 0x8003 }) 6 := by decide
theorem test_V6 : Gives
    (load (code { emu with acc := 0x00F0, y := 0x000F, dataBank := 0x12 } [0x39, 0xF0, 0x34]) 0x1234FF [0x3C])
    (fun s => { s with acc := 0x0030, pc := 0x8003 }) 4 := by decide
theorem test_V7 : Gives
    (load (code { emu with acc := 0x0001, directPage := 0xFFF0 } [0x05, 0x20]) 0x000010 [0x02])
    (fun s => { s with acc := 0x0003, pc := 0x8002 }) 4 := by decide
theorem test_V8 : Gives
    (load (code { emu with x := 0x00FF, directPage := 0xFF00 } [0x15, 0xFF]) 0x0100FE [0x55])
    (fun s => { s with acc := 0x0055, pc := 0x8002 }) 4 := by decide
theorem test_V9 : Gives
    (load (load (code { emu with acc := 0x00FF, dataBank := 0x12 } [0x32, 0xFF]) 0x0000FF [0x00, 0x40]) 0x124000 [0x5A])
    (fun s => { s with acc := 0x005A, pc := 0x8002 }) 5 := by decide
theorem test_V10 : Gives
    (load (load (code { nat with accSize := .bit16, indexSize := .bit16, y := 0x0002 } [0x17, 0x20]) 0x000020 [0xFF, 0xFF, 0x7E]) 0x7F0001 [0x34, 0x12])
    (fun s => { s with acc := 0x1234, pc := 0x8002 }) 7 := by decide
theorem test_V11 : Gives
    (load (load (code { nat with accSize := .bit16, indexSize := .bit16, acc := 0xFFFF, y := 0x0001, dataBank := 0x12, stackPtr := 0xFFFF } [0x33, 0x02]) 0x000001 [0xFF, 0xFF]) 0x130000 [0xCD, 0xAB])
    (fun s => { s with acc := 0xABCD, neg := true, pc := 0x8002 }) 8 := by decide
theorem test_V12 : Gives
    (load (code { nat with accSize := .bit16, indexSize := .bit16, dataBank := 0x12 } [0x0D, 0xFF, 0xFF]) 0x12FFFF [0x34, 0x12])
    (fun s => { s with acc := 0x1234, pc := 0x8003 }) 5 := by decide
theorem test_V13 : Gives
    (load (load (code { nat with accSize := .bit16, indexSize := .bit16, x := 0x1234, dataBank := 0x7E, directPage := 0x0100 } [0x01, 0x10]) 0x001344 [0x00, 0x20]) 0x7E2000 [0x01, 0x00])
    (fun s => { s with acc := 0x0001, pc := 0x8002 }) 7 := by decide
theorem test_V14 : Gives
    (load (code { nat with accSize := .bit16, indexSize := .bit16, acc := 0xFFFF, x := 0x0002 } [0x3F, 0xFF, 0xFF, 0xFF]) 0x000001 [0x0F, 0xF0])
    (fun s => { s with acc := 0xF00F, neg := true, pc := 0x8004 }) 6 := by decide
theorem test_V19 : Gives
    (load (code { nat with accSize := .bit16, indexSize := .bit16, stackPtr := 0x01F0 } [0x03, 0x02]) 0x0001F2 [0x00, 0x10])
    (fun s => { s with acc := 0x1000, pc := 0x8002 }) 5 := by decide
theorem test_V20 : Gives
    (code { nat with accSize := .bit16, indexSize := .bit16, acc := 0x0001 } [0x89, 0x00, 0xC0])
    (fun s => { s with neg := true, overflow := true, zero := true, pc := 0x8003 }) 3 := by decide
theorem test_V21 : Gives
    (load (code emu [0x24, 0x10]) 0x000010 [0x40])
    (fun s => { s with overflow := true, zero := true, pc := 0x8002 }) 3 := by decide
theorem test_V22 : Gives
    (load (code { emu with acc := 0x00FF, x := 0x0001, dataBank := 0x12 } [0x3C, 0xFF, 0x34]) 0x123500 [0x80])
    (fun s => { s with neg := true, pc := 0x8003 }) 5 := by decide
theorem test_V24 : Gives
    (load (code { nat with accSize := .bit16, indexSize := .bit16, acc := 0x00FF, x := 0x0010, directPage := 0x0001 } [0x34, 0x10]) 0x000021 [0x00, 0x80])
    (fun s => { s with neg := true, zero := true, pc := 0x8002 }) 6 := by decide
theorem test_V25 : Gives
    (load (code { emu with acc := 0x00FF, dataBank := 0x12 } [0x1C, 0x56, 0x34]) 0x123456 [0xFF])
    (fun s => load ({ s with pc := 0x8003 }) 0x123456 [0x00]) 6 := by decide
theorem test_V26 : Gives
    (load (code { nat with accSize := .bit16, indexSize := .bit16, acc := 0x0F0F } [0x14, 0x10]) 0x000010 [0xFF, 0x00])
    (fun s => load ({ s with pc := 0x8002 }) 0x000010 [0x00, 0x0F]) 7 := by decide
theorem test_V29 : Gives
    (load (code { nat with accSize := .bit16, indexSize := .bit16, acc := 0x8001, dataBank := 0x12 } [0x0C, 0xFF, 0xFF]) 0x12FFFF [0x02, 0x40])
    (fun s => load ({ s with zero := true, pc := 0x8003 }) 0x12FFFF [0x03, 0xC0]) 8 := by decide
theorem test_V30r : Gives
    (code { emu with acc := 0x1280, config := ⟨0x1000000, .replace⟩ } [0x0A])
    (fun s => { s with acc := 0x0000, zero := true, carry := true, pc := 0x8001 }) 2 := by decide
theorem test_V34 : Gives
    (code { nat with accSize := .bit16, indexSize := .bit16, carry := true } [0x6A])
    (fun s => { s with acc := 0x8000, neg := true, carry := false, pc := 0x8001 }) 2 := by decide
theorem test_V35 : Gives
    (load (code { nat with accSize := .bit16, indexSize := .bit16, dataBank := 0x12 } [0x4E, 0x56, 0x34]) 0x123456 [0x01, 0x00])
    (fun s => load ({ s with zero := true, carry := true, pc := 0x8003 }) 0x123456 [0x00]) 8 := by decide
theorem test_V37 : Gives
    (load (code { nat with accSize := .bit16, indexSize := .bit16, directPage := 0x0001 } [0x06, 0x10]) 0x000011 [0x00, 0x40])
    (fun s => load ({ s with neg := true, pc := 0x8002 }) 0x000012 [0x80]) 7 := by decide
theorem test_V38 : Gives
    (code { emu with acc := 0x0002, neg := true, overflow := true } [0x4A])
    (fun s => { s with acc := 0x0001, neg := false, pc := 0x8001 }) 2 := by decide
theorem test_V39 : Gives
    (load (code { nat with accSize := .bit16, indexSize := .bit16, x := 0xFFFF, dataBank := 0x12 } [0x1E, 0xFF, 0xFF]) 0x13FFFE [0xFF, 0x7F])
    (fun s => load ({ s with neg := true, pc := 0x8003 }) 0x13FFFE [0xFE, 0xFF]) 9 := by decide
theorem test_V41 : Gives
    (code { emu with acc := 0x00FF } [0x2A])
    (fun s => { s with acc := 0x00FE, neg := true, carry := true, pc := 0x8001 }) 2 := by decide
theorem test_V42 : Gives
    (load (code { nat with accSize := .bit16, indexSize := .bit16, x := 0x0010, directPage := 0x0100, carry := true } [0x76, 0x10]) 0x000120 [0x00, 0x00])
    (fun s => load ({ s with neg := true, carry := false, pc := 0x8002 }) 0x000121 [0x80]) 7 := by decide
theorem test_V43 : Gives
    (load (code { emu with dataBank := 0x12, carry := true } [0x0E, 0x56, 0x34]) 0x123456 [0x00])
    (fun s => { s with zero := true, carry := false, pc := 0x8003 }) 6 := by decide
theorem test_V44r : Gives
    (code { emu with acc := 0x12FF, config := ⟨0x1000000, .replace⟩ } [0x1A])
    (fun s => { s with acc := 0x0000, zero := true, pc := 0x8001 }) 2 := by decide
theorem test_V47 : Gives
    (code { nat with accSize := .bit16, indexSize := .bit16, y := 0xFFFF } [0xC8])
    (fun s => { s with y := 0x0000, zero := true, pc := 0x8001 }) 2 := by decide
theorem test_V49 : Gives
    (code { nat with accSize := .bit16, indexSize := .bit8, x := 0x1200 } [0xCA])
    (fun s => { s with x := 0x12FF, neg := true, pc := 0x8001 }) 2 := by decide
theorem test_V51 : Gives
    (load (code { nat with accSize := .bit16, indexSize := .bit16, dataBank := 0x12 } [0xCE, 0x56, 0x34]) 0x123456 [0x00, 0x00])
    (fun s => load ({ s with neg := true, pc := 0x8003 }) 0x123456 [0xFF, 0xFF]) 8 := by decide
theorem test_V52 : Gives
    (load (code { emu with directPage := 0x0020 } [0xC6, 0x10]) 0x000030 [0x80])
    (fun s => load ({ s with pc := 0x8002 }) 0x000030 [0x7F]) 6 := by decide
theorem test_V53 : Gives
    (load (code { nat with accSize := .bit16, indexSize := .bit16, x := 0x0010, dataBank := 0x12 } [0xFE, 0x00, 0x30]) 0x123010 [0xFF, 0x7F])
    (fun s => load ({ s with neg := true, pc := 0x8003 }) 0x123010 [0x00, 0x80]) 9 := by decide
theorem test_V54 : Gives
    (load (code { emu with x := 0x0004, directPage := 0x0020, carry := true } [0xF6, 0x10]) 0x000034 [0xFF])
    (fun s => load ({ s with zero := true, pc := 0x8002 }) 0x000034 [0x00]) 7 := by decide
theorem test_V55 : Gives
    (code emu [0x3A])
    (fun s => { s with acc := 0x00FF, neg := true, pc := 0x8001 }) 2 := by decide
theorem test_V56 : Gives
    (code { emu with y := 0x0001 } [0x88])
    (fun s => { s with y := 0x0000, zero := true, pc := 0x8001 }) 2 := by decide
theorem test_V57 : Gives
    (load (code { nat with accSize := .bit16, indexSize := .bit8, x := 0x00FF, directPage := 0x0100 } [0xD6, 0xFF]) 0x0002FE [0x00, 0x80])
    (fun s => load ({ s with pc := 0x8002 }) 0x0002FE [0xFF, 0x7F]) 8 := by decide
theorem test_V62 : Gives
    (code { nat with accSize := .bit16, indexSize := .bit16, carry := true } [0xFB])
    (fun s => { s with emuMode := .emulation, carry := false, pc := 0x8001 }) 2 := by decide
theorem test_V66 : Gives
    (code { nat with accSize := .bit8, indexSize := .bit8, neg := true, overflow := true, zero := true, carry := true, irqDisable := true, decimalMode := true } [0xC2, 0xFF])
    (fun s => { s with accSize := .bit16, indexSize := .bit16, neg := false, overflow := false, zero := false, carry := false, irqDisable := false, decimalMode := false, pc := 0x8002 }) 3 := by decide
theorem test_V69 : Gives
    (code { emu with accSize := .bit16, indexSize := .bit16 } [0xE2, 0xFF])
    (fun s => { s with neg := true, overflow := true, zero := true, carry := true, irqDisable := true, decimalMode := true, pc := 0x8002 }) 3 := by decide
theorem test_V76 : Gives
    (code { emu with acc := 0x8000 } [0xEB])
    (fun s => { s with acc := 0x0080, pc := 0x8001 }) 3 := by decide
theorem test_V77 : Gives
    (code { emu with neg := true, overflow := true, zero := true, carry := true, irqDisable := true, decimalMode := true } [0x18])
    (fun s => { s with carry := false, pc := 0x8001 }) 2 := by decide
theorem test_V79 : Gives
    (code { emu with neg := true, overflow := true, zero := true, carry := true, irqDisable := true, decimalMode := true } [0xD8])
    (fun s => { s with decimalMode := false, pc := 0x8001 }) 2 := by decide
theorem test_V82 : Gives
    (code { emu with neg := true, overflow := true, zero := true, carry := true, irqDisable := true, decimalMode := true } [0x58])
    (fun s => { s with irqDisable := false, pc := 0x8001 }) 2 := by decide
theorem test_V83 : Gives
    (code { emu with neg := true, overflow := true, zero := true, carry := true, irqDisable := true, decimalMode := true } [0xB8])
    (fun s => { s with overflow := false, pc := 0x8001 }) 2 := by decide
theorem test_V84 : Gives
    (code { emu with neg := true, overflow := true, zero := true, carry := true, irqDisable := true, decimalMode := true } [0xEA])
    (fun s => { s with pc := 0x8001 }) 2 := by decide

/-! ## Stops -/

theorem test_F1 : Stops (code emu [0x00]) (.refused (.unimplementedOpcode 0x00)) := by decide
theorem test_F2 : Stops (code emu [0xA9, 0x01]) (.refused (.unimplementedOpcode 0xA9)) := by decide
theorem test_F3 : Stops (code emu [0x1B]) (.refused (.unimplementedOpcode 0x1B)) := by decide
theorem test_F4 : Stops (code emu [0x02]) (.refused (.unimplementedOpcode 0x02)) := by decide
theorem test_F5 : Stops
    (code { emu with dataBank := 0x01, config := ⟨0x10000, .keepHigh⟩ } [0x0D, 0x56, 0x34]) (.fault
    (.memoryBounds 0x013456)) := by decide
theorem test_F6 : Stops
    (load (code { nat with accSize := .bit16, indexSize := .bit16, acc := 0xFFFF, config := ⟨0x10000, .keepHigh⟩ } [0x0C, 0xFF, 0xFF]) 0x00FFFF [0x00]) (.fault
    (.memoryBounds 0x010000)) := by decide
theorem test_F7 : Stops
    ({ emu with programBank := 0x01, config := ⟨0x10000, .keepHigh⟩ }) (.fault
    (.memoryBounds 0x018000)) := by decide
theorem test_F8 : Stops
    (code { emu with config := ⟨0x8002, .keepHigh⟩ } [0x1D, 0x00]) (.fault
    (.memoryBounds 0x008002)) := by decide
theorem test_F9 : Stops
    (code { emu with config := ⟨0x8002, .keepHigh⟩ } [0x0D, 0x00]) (.fault
    (.memoryBounds 0x008002)) := by decide
theorem test_F10 : Stops (code { emu with pc := 0xFFFF } [0x0D]) (.refused .instructionStraddlesBank) := by decide
theorem test_F11 : Stops
    (code { nat with accSize := .bit16, indexSize := .bit16, pc := 0xFFFE } [0x09])
    (.refused .instructionStraddlesBank) := by decide
theorem test_F12 : Gives
    (code { emu with pc := 0xFFFE } [0x09, 0x01])
    (fun s => { s with acc := 0x0001, pc := 0x0000 }) 2 := by decide
theorem test_F13 : Gives (code { emu with pc := 0xFFFF } [0xEA]) (fun s => { s with pc := 0x0000 }) 2 := by decide
theorem test_F14 : Stops
    (code { emu with pc := 0xFFFF, config := ⟨0x10000, .keepHigh⟩ } [0xFF]) (.refused
    (.unimplementedOpcode 0xFF)) := by decide
theorem test_F15 : Stops
    (load (code { emu with y := 0x0001, dataBank := 0x01, config := ⟨0x10000, .keepHigh⟩ } [0x11, 0x10]) 0x000010 [0xFF, 0xFF]) (.fault
    (.memoryBounds 0x020000)) := by decide
theorem test_F16 : Stops
    (load (code { emu with directPage := 0x00FF, pc := 0x0010, config := ⟨0x100, .keepHigh⟩ } [0x12, 0x00]) 0x0000FF [0x34]) (.fault
    (.memoryBounds 0x000100)) := by decide

/-! ## The shared helpers: examples of 40_alu_helpers.md and 10_state.md -/

theorem test_rotate_left : rotate 0x80 .bit8 .left = (0, true) := by decide
theorem test_rotate_right_keeps_high_bits : rotate 0x100 .bit8 .right = (0x80, false) := by decide
theorem test_xce_leaves_the_stored_widths : (match exec .xce { nat with carry := true, accSize := .bit16 } with
    | .next t => decide (t.accSize = .bit16 ∧ accW t = .bit8)
    | .fault _ => false
    | .refused _ => false) = true := by decide

/-! ## Disassembly -/

/-- Those bytes decode, and the instruction is written like that. -/
def shows (s : State) (p : List Byte × String) : Bool :=
  match decode (accW s) p.1 with
  | .ok (i, _) => disasm i s == p.2
  | .error _ => false

theorem test_T_in_emulation_mode : [
    ([0x09, 0xAB], "ORA #$AB"), ([0x0D, 0x56, 0x34], "ORA $3456"), ([0x0F, 0x56, 0x34, 0x7E], "ORA $7E3456"),
    ([0x05, 0x0A], "ORA $0A"), ([0x12, 0x10], "ORA ($10)"), ([0x07, 0x10], "ORA [$10]"),
    ([0x1D, 0x56, 0x34], "ORA $3456,X"), ([0x1F, 0x56, 0x34, 0x7E], "ORA $7E3456,X"),
    ([0x19, 0x56, 0x34], "ORA $3456,Y"), ([0x15, 0x10], "ORA $10,X"), ([0x01, 0x10], "ORA ($10,X)"),
    ([0x11, 0x10], "ORA ($10),Y"), ([0x17, 0x10], "ORA [$10],Y"), ([0x03, 0x02], "ORA $02,S"),
    ([0x13, 0x02], "ORA ($02,S),Y"), ([0x0A], "ASL A"), ([0x3A], "DEC A"), ([0xE8], "INX"),
    ([0xC2, 0x30], "REP #$30"), ([0xEB], "XBA"), ([0x14, 0xFF], "TRB $FF"), ([0x7E, 0x00, 0x20], "ROR $2000,X")].all (shows emu) = true := by decide

theorem test_T_at_16_bits : [([0x09, 0xCD, 0xAB], "ORA #$ABCD"), ([0x89, 0x00, 0xC0], "BIT #$C000")].all (shows (widths .bit16 .bit16)) = true := by decide

/-! ## Reset, and the host's way in -/

theorem test_reset_inv : State.reset.Inv := by decide
theorem test_withFetchWord_runs_next : step (State.reset.withFetchWord 16 0xF009) =
    .next { State.reset.withFetchWord 16 0xF009 with acc := 0x00F0, neg := true, pc := 0x0002 } := by rfl

/-! ## Runs and stand-alone calls (48_opcode_protocol.md R352, R354, R359; 60_exceptions.md R372; 20_memory.md R74) -/

theorem test_run_ends_at_an_unclaimed_byte : runReport 5 (code emu [0x38, 0xE2, 0x80, 0x00]) =
    { state := { code emu [0x38, 0xE2, 0x80, 0x00] with carry := true, neg := true, pc := 0x8003 }
      counts := [2, 3]
      ending := .refused (.unimplementedOpcode 0x00) } := by decide
theorem test_TotalCycles_of_a_missing_operand : totalCyclesOf (.op16 .oraAbsX) { emu with config := ⟨0x8002, .keepHigh⟩ } =
    .error (.memoryBounds 0x8002) := by rfl
theorem test_TotalCycles_without_a_pre_index : totalCyclesOf (.op16 .oraAbs) { emu with config := ⟨0x8002, .keepHigh⟩ } =
    .ok 4 := by rfl
theorem test_Disasm_of_a_missing_operand : disasmOf (.op16 .oraAbs) { emu with config := ⟨0x8002, .keepHigh⟩ } =
    .error (.memoryBounds 0x8002) := by rfl
theorem test_Disasm_reads_the_operand : disasmOf (.op16 .oraAbsX) (code emu [0x1D, 0x56, 0x34]) = .ok "ORA $3456,X" := by rfl
theorem test_history_of_a_pre_indexed_read : (stepHistory (.oraAbsX 0x0010) emu).map (·.addr) =
    [0x8000, 0x8000, 0x8001, 0x8002, 0x8001, 0x8002, 0x0010] := by decide

theorem test_Disasm_repeats_pointer_reads : (disasmReads (.oraDpIndLong 0x10) emu).map (·.addr) =
    [0x8000, 0x8001, 0x0010, 0x0011, 0x0012] := by decide
theorem test_TotalCycles_repeats_pointer_reads : (cyclesReads (.oraSrIndY 0x10) emu).map (·.kind) =
    [.read, .read, .read, .read] := by decide

theorem test_cycle_counts_are_signed : calcCycles emu [.constant 3, .constant (-1), .nativeMode 7] = 2 := by decide
theorem test_cycle_counts_are_32_bits : (CycleMod.constant 0x80000000).cycles.toInt = -0x80000000 := by decide

/-! ## Witnesses: hypotheses that are met -/

/-- Every instruction, with these operands. -/
def forms (imm o16 : Word) (o8 : Byte) (o24 : Addr) : List Instr :=
  [.oraImm imm, .oraAbs o16, .oraLong o24, .oraDp o8, .oraDpInd o8, .oraDpIndLong o8, .oraAbsX o16, .oraLongX o24,
    .oraAbsY o16, .oraDpX o8, .oraDpXInd o8, .oraDpIndY o8, .oraDpIndLongY o8, .oraSr o8, .oraSrIndY o8,
    .andImm imm, .andAbs o16] ++
  [.andLong o24, .andDp o8, .andDpInd o8, .andDpIndLong o8, .andAbsX o16, .andLongX o24, .andAbsY o16, .andDpX o8,
    .andDpXInd o8, .andDpIndY o8, .andDpIndLongY o8, .andSr o8, .andSrIndY o8, .bitImm imm, .bitAbs o16, .bitDp o8,
    .bitAbsX o16] ++
  [.bitDpX o8, .trbAbs o16, .trbDp o8, .tsbAbs o16, .tsbDp o8, .aslA, .aslDp o8, .aslAbs o16, .aslDpX o8,
    .aslAbsX o16, .rolA, .rolDp o8, .rolAbs o16, .rolDpX o8, .rolAbsX o16, .lsrA, .lsrDp o8] ++
  [.lsrAbs o16, .lsrDpX o8, .lsrAbsX o16, .rorA, .rorDp o8, .rorAbs o16, .rorDpX o8, .rorAbsX o16, .incA,
    .incAbs o16, .incDp o8, .incAbsX o16, .incDpX o8, .inx, .iny, .decA, .decAbs o16] ++
  [.decDp o8, .decAbsX o16, .decDpX o8, .dex, .dey, .clc, .sec, .cld, .sed, .sei, .cli, .clv, .nop, .xba, .xce,
    .rep o8, .sep o8]

/-- Native mode at 16 bits, `MEM_SIZE = 0x10000`, with `direct_page` and `stack_ptr` at `d`. -/
def edge (d : Word) : State := { widths .bit16 .bit16 with config := ⟨0x10000, .keepHigh⟩, directPage := d, stackPtr := d }

/-- The instructions with a memory operand whose bytes exist in `s`. -/
def readyForms (s : State) (is : List Instr) : List Instr := is.filter fun i => (dataAddr s i).isSome && decide (Ready s i)

/-- All 60 memory forms are ready with their last byte at the end of memory. -/
theorem witness_ready_at_the_end : (readyForms (edge 0xFFED) (forms 0 0xFFFE 0x10 0xFFFE)).length = 60 := by decide

/-- One byte further on, only the four 3-byte pointers are missing a byte. -/
theorem witness_not_ready_past_the_end : ((forms 0 0xFFFE 0x10 0xFFFE).filter fun i => !decide (Ready (edge 0xFFEE) i)) =
    [.oraDpIndLong 0x10, .oraDpIndLongY 0x10, .andDpIndLong 0x10, .andDpIndLongY 0x10] := by decide

/-- In emulation mode all memory forms are ready with the datum in the last byte. -/
theorem witness_ready_in_emulation_mode :
    (readyForms { edge 0xFFED with emuMode := .emulation } (forms 0 0xFFFF 0x10 0xFFFF)).length = 60 := by decide

theorem witness_DecodeAfterEncode :
    [(Width.bit8, Instr.oraImm 0xFF), (.bit16, .andImm 0xFFFF), (.bit8, .oraLongX 0xFFFFFF)].all
      (fun p => p.2.wellFormed p.1) = true := by decide

theorem witness_EncodeAfterDecode : decode .bit16 [0x89, 0xFF, 0xFF, 0x00] = .ok (.bitImm 0xFFFF, [0x00]) := by decide

theorem witness_ShiftFamilyDecodesByBitFields : (0x8A : Byte).getLsbD 7 = true ∧
    (0x1B : Byte).extractLsb' 0 5 ∉ [0x0A#5, 0x06#5, 0x0E#5, 0x16#5, 0x1E#5] := by decide

theorem witness_ByteSizeOfEveryInstruction :
    (∃ mn m o mods pre st, instanceOf (.oraSrIndY 0xFF) = .addressed mn m o mods pre st) ∧
      accW emu = accW (widths .bit8 .bit16) := ⟨⟨_, _, _, _, _, _, rfl⟩, rfl⟩

theorem witness_LengthFollowsTheStateOnlyForImmediates :
    byteSize (.oraImm 0) (widths .bit8 .bit8) ≠ byteSize (.oraImm 0) (widths .bit16 .bit8) ∧
      ∃ t, exec (.rep 0x20) (widths .bit8 .bit8) = .next t ∧ accW t ≠ .bit8 := ⟨by decide, _, rfl, by decide⟩

/-- Memory of `0x100` bytes. -/
def small : State := load { emu with config := ⟨0x100, .keepHigh⟩ } 0xFD [1, 2, 3]

theorem witness_MemReadIsLittleEndian : 0xFF + 1 ≤ small.config.memSize ∧ 0xFE + 2 ≤ small.config.memSize ∧
    0xFD + 3 ≤ small.config.memSize ∧
    (2 < 3 ∧ small.config.memSize ≤ 0xFE + 2 ∧ ∀ j, j < 2 → 0xFE + j < small.config.memSize) ∧
    ∀ k, k < 3 → ({ small with acc := 1 } : State).memory.read (0xFD + k) = small.memory.read (0xFD + k) := by decide

theorem witness_MemWriteThenReadGivesTheValue : 0xFE + 2 ≤ small.config.memSize ∧ 0xFD + 3 ≤ small.config.memSize := by
  decide

theorem witness_MemWriteReplacesExactlyItsBytes : 0xFD + 3 ≤ small.config.memSize ∧ small.memory.Wf ∧
    small.config.memSize < 0xFE + 3 := by decide

theorem witness_RegisterReadsAreMasked : emu.emuMode = .emulation ∧ (widths .bit8 .bit8).accSize = .bit8 ∧
    (widths .bit8 .bit8).indexSize = .bit8 ∧ nat.emuMode = .native ∧ (widths .bit16 .bit16).accSize = .bit16 ∧
    (widths .bit16 .bit16).indexSize = .bit16 := by decide

theorem witness_ReadAfterRegisterWrite : emu.emuMode = .emulation ∧ (widths .bit16 .bit8).emuMode = .native ∧
    (widths .bit16 .bit8).accSize = .bit16 := by decide

theorem witness_NarrowWritesFollowTheParameter : accW (widths .bit16 .bit16) = .bit16 ∧ idxW (widths .bit16 .bit16) = .bit16 ∧
    accW emu = .bit8 ∧ idxW emu = .bit8 ∧ emu.config.narrowWrite = .keepHigh ∧
    ({ emu with config := ⟨1, .replace⟩ } : State).config.narrowWrite = .replace := by decide

theorem witness_BreakAliasesTheStoredIndexSize : emu.emuMode = .emulation ∧ nat.emuMode = .native := by decide

theorem witness_RotateLeftThenRightRestores : (0x00FF : Word).toNat < 2 ^ (8 * Width.bit8.nbytes) ∧
    (0xFFFF : Word).toNat < 2 ^ (8 * Width.bit16.nbytes) := by decide

theorem witness_BankAndIndexArithmetic : ({ emu with directPage := 0xFFF0, x := 0x0101 } : State).directPage = 0xFFF0 ∧
    rdX { emu with directPage := 0xFFF0, x := 0x0101 } = 0x01 := by decide

theorem witness_DirectPageAndStackModes : (∃ t, AddrMode.stack.store (zext 24 (0x10 : Byte)) 0xABCD (edge 0xFFEE) = .ok t) ∧
    (edge 0xFFF0).directPage = 0xFFF0 ∧ (edge 0x0010).directPage = 0x0010 := ⟨⟨_, rfl⟩, rfl, rfl⟩

theorem witness_EffectiveAddressOfEveryMode : Present (edge 0xFFEE) (directAddr (edge 0xFFEE) 0x10) 2 ∧
    Present (edge 0xFFED) (directAddr (edge 0xFFED) 0x10) 3 ∧
    Present (edge 0xFFEE) (plusX (edge 0xFFEE) (directAddr (edge 0xFFEE) 0x10)) 2 ∧
    Present (edge 0xFFEE) (stackAddr (edge 0xFFEE) 0x10) 2 := by decide

theorem witness_OraAndResultInEveryMode :
    ((readyForms (edge 0xFFED) (forms 0 0xFFFE 0x10 0xFFFE)).filter fun i => decide (mnemonicOf i = "ORA")).length = 14 ∧
    ((readyForms (edge 0xFFED) (forms 0 0xFFFE 0x10 0xFFFE)).filter fun i => decide (mnemonicOf i = "AND")).length = 14 ∧
    ∃ a, datumAt small 0xFE = datumAt small a := ⟨by decide, by decide, _, rfl⟩

theorem witness_BitResultInEveryMode :
    ([.bitAbs 0xFFFE, .bitDp 0x10, .bitAbsX 0xFFFE, .bitDpX 0x10] : List Instr).all
      (fun i => (dataAddr (edge 0xFFEE) i == some 0xFFFE) && decide (Ready (edge 0xFFEE) i)) = true := by decide

theorem witness_TrbStoresTheAccumulatorLessTheDatum : ([.trbAbs 0xFFFE, .trbDp 0x10] : List Instr).all
    (fun i => (dataAddr (edge 0xFFEE) i == some 0xFFFE) && decide (Ready (edge 0xFFEE) i)) = true := by decide

/-- Emulation mode, `acc = 0x55`, the byte `0xAA` in the last place. -/
def tsbState : State := load { edge 0xFFEF with emuMode := .emulation, acc := 0x1255 } 0xFFFF [0xAA]

theorem witness_TsbStoresTheAccumulatorOrTheDatum : ([.tsbAbs 0xFFFF, .tsbDp 0x10] : List Instr).all
    (fun i => (dataAddr tsbState i == some 0xFFFF) && decide (Ready tsbState i)) = true ∧
    accW tsbState = .bit8 ∧ rdAcc tsbState = 0x55 ∧ tsbState.memory.read 0xFFFF = 0xAA := by decide

theorem witness_ShiftResultInEveryMode : ([.aslDp 0x10, .rolAbs 0xFFFE, .lsrDpX 0x10, .rorAbsX 0xFFFE] : List Instr).all
    (fun i => (dataAddr (edge 0xFFEE) i == some 0xFFFE) && decide (Ready (edge 0xFFEE) i)) = true ∧
    (0xFFFF : Word).toNat < rangeOf (accW (edge 0)) := by decide

theorem witness_IncResultInEveryMode :
    ([.incAbs 0xFFFE, .incDp 0x10, .incAbsX 0xFFFE, .incDpX 0x10] : List Instr).all
      (fun i => (dataAddr (edge 0xFFEE) i == some 0xFFFE) && decide (Ready (edge 0xFFEE) i)) = true := by decide

theorem witness_DecResultInEveryMode :
    ([.decAbs 0xFFFE, .decDp 0x10, .decAbsX 0xFFFE, .decDpX 0x10] : List Instr).all
      (fun i => (dataAddr (edge 0xFFEE) i == some 0xFFFE) && decide (Ready (edge 0xFFEE) i)) = true ∧
    (0x00FF : Word).toNat < rangeOf .bit8 := by decide

theorem witness_RepAndSepFollowTheMaskByte : fetchInstr (code emu [0xC2, 0x30]) = .next (.rep 0x30) ∧
    fetchInstr (code emu [0xE2, 0xFF]) = .next (.sep 0xFF) := ⟨rfl, rfl⟩

theorem witness_XbaSwapsTheAccumulatorHalves : ∃ t u, exec .xba { emu with acc := 0x1280 } = .next t ∧
    exec .xba t = .next u := ⟨_, _, rfl, rfl⟩

theorem witness_XceExchangesCarryAndMode : ∃ t u, exec .xce emu = .next t ∧ exec .xce t = .next u := ⟨_, _, rfl, rfl⟩

theorem witness_RolThenRorRestores : ([.rolA, .rolDp 0x10, .rolAbs 0xFFFE, .rolDpX 0x10, .rolAbsX 0xFFFE] : List Instr).all
    (fun i => decide (Ready (edge 0xFFEE) i)) = true := by decide

theorem witness_ExecuteCompletesExactlyWhenItsBytesExist : Ready (edge 0xFFED) (.oraDpIndLong 0x10) ∧
    (pointerOf (edge 0xFFEE) (.oraDpIndLong 0x10) = some (0xFFFE, 3) ∧ ¬Present (edge 0xFFEE) 0xFFFE 3) ∧
    (∀ p ∈ pointerOf (edge 0xFFEE) (.oraSrIndY 0x10), Present (edge 0xFFEE) p.1 p.2) ∧
    dataAddr { edge 0xFFEE with y := 0xFFFF } (.oraSrIndY 0x10) = some 0xFFFF ∧ ¬Present (edge 0xFFEE) 0xFFFF 2 := by decide

theorem witness_ExecuteNeverWritesPcBanksDirectPageOrStack : ∃ t, exec (.tsbAbs 0xFFFE) (edge 0xFFEE) = .next t := ⟨_, rfl⟩

theorem witness_OnlyTheListedInstructionsWriteEachFlag :
    (∃ t, exec (.oraImm 0x80) emu = .next t ∧ t.neg ≠ emu.neg) ∧ (∃ t, exec (.sep 0x40) emu = .next t ∧ t.overflow ≠ emu.overflow) ∧
    (∃ t, exec .inx { emu with x := 0xFF } = .next t ∧ t.zero ≠ emu.zero) ∧ (∃ t, exec .xce emu = .next t ∧ t.carry ≠ emu.carry) ∧
    (∃ t, exec .sei emu = .next t ∧ t.irqDisable ≠ emu.irqDisable) ∧
    ∃ t, exec (.sep 0x08) emu = .next t ∧ t.decimalMode ≠ emu.decimalMode :=
  ⟨⟨_, rfl, by decide⟩, ⟨_, rfl, by decide⟩, ⟨_, rfl, by decide⟩, ⟨_, rfl, by decide⟩, ⟨_, rfl, by decide⟩, _, rfl, by decide⟩

theorem witness_OnlyTheListedInstructionsWriteAccXY :
    (∃ t, exec .incA emu = .next t ∧ t.acc ≠ emu.acc) ∧ (∃ t, exec .dex emu = .next t ∧ t.x ≠ emu.x) ∧
    ∃ t, exec .iny emu = .next t ∧ t.y ≠ emu.y := ⟨⟨_, rfl, by decide⟩, ⟨_, rfl, by decide⟩, _, rfl, by decide⟩

/-- Emulation mode with both stored widths `bit16`. -/
def wideEmu : State := { emu with accSize := .bit16, indexSize := .bit16 }

theorem witness_OnlyXceRepSepChangeModeAndWidths :
    (∃ t, exec .xce wideEmu = .next t ∧ t.emuMode ≠ wideEmu.emuMode ∧ t.accSize ≠ wideEmu.accSize ∧
      t.indexSize ≠ wideEmu.indexSize) ∧
    ∃ t, exec (.rep 0x30) (widths .bit8 .bit8) = .next t ∧ t.accSize ≠ .bit8 ∧ t.indexSize ≠ .bit8 :=
  ⟨⟨_, rfl, by decide, by decide, by decide⟩, _, rfl, by decide, by decide⟩

theorem witness_MemoryChangesOnlyAtTheDataAddress :
    (∃ t, exec (.decAbs 0xFFFE) (edge 0) = .next t ∧ t.memory.read 0xFFFF ≠ (edge 0).memory.read 0xFFFF) ∧
    (∃ t, exec (.oraAbs 0xFFFE) (edge 0) = .next t) ∧ mnemonicOf (.oraAbs 0xFFFE) = "ORA" ∧
    ∃ t, exec .decA (edge 0) = .next t ∧ dataAddr (edge 0) .decA = none :=
  ⟨⟨_, rfl, by decide⟩, ⟨_, rfl⟩, rfl, _, rfl, rfl⟩

theorem witness_HiddenHighBytesDoNotLeak : SameVisible { emu with acc := 0x1234, x := 0x5600 } { emu with acc := 0xFF34 } ∧
    mnemonicOf (.oraImm 0xFF) ∉ ["XBA", "REP"] := ⟨⟨rfl, by decide, by decide, by decide⟩, by decide⟩

theorem witness_StackPointerIsReadOnlyByStackModes : (∃ t, exec .xce (edge 0x01FF) = .next t) ∧
    ∀ o8, Instr.oraDp 0x10 ≠ .oraSr o8 ∧ Instr.oraDp 0x10 ≠ .oraSrIndY o8 ∧ Instr.oraDp 0x10 ≠ .andSr o8 ∧
      Instr.oraDp 0x10 ≠ .andSrIndY o8 := ⟨⟨_, rfl⟩, by decide⟩

/-- An instruction in the last bytes of bank 0, which are the last of memory. -/
def lastBytes : State := code { edge 0 with pc := 0xFFFE } [0x05, 0x10]

theorem witness_StepRunsTheDecodedInstruction :
    decode (accW lastBytes) (lastBytes.memory.bytes (effPC lastBytes).toNat 4) = .ok (.oraDp 0x10, [0x00, 0x00]) ∧
      Fetchable lastBytes (.oraDp 0x10) := by decide

theorem witness_StepStopsInTheOrderOfItsChecks :
    ¬Present { small with pc := 0x0100 } (effPC { small with pc := 0x0100 }).toNat 1 ∧
    (Present lastBytes (effPC lastBytes).toNat 1 ∧ decodeOpcode (emu.memory.read (effPC emu).toNat) = none ∧
      decodeOpcode (lastBytes.memory.read (effPC lastBytes).toNat) = some (.op8 .oraDp)) ∧
    (∃ f, decodeOpcode 0x0D = some f ∧ 0x10000 < lastBytes.pc.toNat + (1 + f.operandBytes (accW lastBytes)) ∧
      (0xFFFD : Word).toNat + (1 + f.operandBytes .bit8) ≤ 0x10000 ∧ ¬Present small 0xFF (f.operandBytes .bit8)) :=
  ⟨by decide, ⟨by decide, rfl, rfl⟩, _, rfl, by decide, by decide, by decide⟩

theorem witness_StepAdvancesPcInsideItsBank : ∃ t, step lastBytes = .next t ∧ t.pc = 0x0000 := ⟨_, rfl, by decide⟩

theorem witness_StepKeepsTheInvariant : lastBytes.Inv ∧ ∃ t, step lastBytes = .next t := ⟨by decide, _, rfl⟩

theorem witness_ResetMeetsTheInvariant : (⟨1, .replace⟩ : Config).Wf ∧ Config.default.Wf ∧
    Memory.Wf [(0, 0xEA), (0xFFFFFF, 0x01)] ∧ Memory.Below [(0, 0xEA), (0xFFFFFF, 0x01)] 0x1000000 := by decide

/-- A 16-bit read at the last address there is. -/
def topRead : State := code { widths .bit16 .bit16 with dataBank := 0xFF } [0x0D, 0xFF, 0xFF]

theorem witness_FullMemoryFaultsOnlyAtItsTop : topRead.config.memSize = 0x1000000 ∧
    step topRead = .fault (.memoryBounds 0x1000000) := ⟨rfl, rfl⟩

theorem witness_StepRefusesOnlyTheTwoNamedCases : step State.reset = .refused (.unimplementedOpcode 0x00) ∧
    step (code { emu with pc := 0xFFFF } [0x0D]) = .refused .instructionStraddlesBank := ⟨rfl, rfl⟩

theorem witness_StepCompletesOnEveryClaimedInstruction : (Instr.oraDp 0x10).wellFormed (accW lastBytes) = true ∧
    lastBytes.memory.bytes (effPC lastBytes).toNat (encode (accW lastBytes) (.oraDp 0x10)).length =
      encode (accW lastBytes) (.oraDp 0x10) ∧
    Fetchable lastBytes (.oraDp 0x10) ∧ Ready lastBytes (.oraDp 0x10) := by decide

/-- Two XCE and the end marker of 95_test_vectors.md part 4. -/
def xceTwice : State := code emu [0xFB, 0xFB, 0x00]

theorem witness_ReportedStepsAreStepsWithTheirCycles : (∃ t, stepReport lastBytes = .next (t, 4)) ∧
    (∃ f, stepReport topRead = .fault f) ∧ (∃ r, stepReport State.reset = .refused r) ∧
    (runReport 1 xceTwice).ending = .caller ∧ (runReport 3 xceTwice).ending ≠ .caller :=
  ⟨⟨_, rfl⟩, ⟨_, rfl⟩, ⟨_, rfl⟩, rfl, by decide⟩

theorem witness_RunsReportStateCountsAndOutcome : (runReport 2 xceTwice).ending = .caller ∧
    (runReport 3 xceTwice).ending = .refused (.unimplementedOpcode 0x00) ∧
    (runReport 1 topRead).ending = .fault (.memoryBounds 0x1000000) ∧ xceTwice.Inv := by decide

theorem witness_InterfaceCallsReadTheirOperands :
    (decodeOpcode 0x05 = some (.op8 .oraDp) ∧ Present lastBytes ((effPC lastBytes).toNat + 1) 1) ∧
    (decodeOpcode 0x1D = some (.op16 .oraAbsX) ∧ ¬Present small ((effPC { small with pc := 0x00FE }).toNat + 1) 2 ∧
      (0x1D : Byte) ∈ [0x1D, 0x3D, 0x3C, 0x19, 0x39]) ∧
    (decodeOpcode 0x0D = some (.op16 .oraAbs) ∧ (0x0D : Byte) ∉ [0x1D, 0x3D, 0x3C, 0x19, 0x39]) :=
  ⟨⟨rfl, by decide⟩, ⟨rfl, by decide⟩, rfl, by decide⟩

/-- DEC of two bytes at the end of memory. -/
def decState : State := code (edge 0) [0xCE, 0xFE, 0xFF]

theorem witness_AccessTraceAccountsForMemory : fetchInstr decState = .next (.decAbs 0xFFFE) ∧
    ∃ t, exec (.decAbs 0xFFFE) decState = .next t ∧ t.memory.read 0xFFFF ≠ decState.memory.read 0xFFFF :=
  ⟨rfl, _, rfl, by decide⟩

theorem witness_StepHistoryRepeatsOnlyLeadingReads : Ready decState (.decAbs 0xFFFE) ∧
    fetchInstr decState = .next (.decAbs 0xFFFE) ∧ (∃ t, exec (.decAbs 0xFFFE) decState = .next t) ∧
    (Ready emu (.oraDpIndLongY 0x10) ∧ ∀ o16, Instr.oraDpIndLongY 0x10 ≠ .oraAbsX o16 ∧ Instr.oraDpIndLongY 0x10 ≠ .andAbsX o16 ∧
      Instr.oraDpIndLongY 0x10 ≠ .bitAbsX o16 ∧ Instr.oraDpIndLongY 0x10 ≠ .oraAbsY o16 ∧ Instr.oraDpIndLongY 0x10 ≠ .andAbsY o16) :=
  ⟨by decide, rfl, ⟨_, rfl⟩, by decide, fun _ => ⟨nofun, nofun, nofun, nofun, nofun⟩⟩

end Sys2Proof.Tests
end

section
/-! PROOFS. The width-aware register accessors (10_state.md R28, R32, R40). -/

namespace Sys2Proof.Machine

/-! ## The observed widths -/

theorem accW_of_narrow {s : State} (h : s.emuMode = .emulation ∨ s.accSize = .bit8) : accW s = .bit8 := by
  unfold accW
  split
  · rfl
  · exact h.resolve_left (by simp [*])

theorem accW_of_native {s : State} (h : s.emuMode = .native) : accW s = s.accSize := by simp only [accW, h]

theorem idxW_of_narrow {s : State} (h : s.emuMode = .emulation ∨ s.indexSize = .bit8) : idxW s = .bit8 := by
  unfold idxW
  split
  · rfl
  · exact h.resolve_left (by simp [*])

theorem idxW_of_native {s : State} (h : s.emuMode = .native) : idxW s = s.indexSize := by simp only [idxW, h]

/-! ## Reading back a write -/

@[simp] theorem rdAcc_wrAcc (s : State) (v : Word) : rdAcc (wrAcc s v) = v &&& mask (accW s) :=
  narrowWrite_and_mask _ _ _ _

@[simp] theorem rdX_wrX (s : State) (v : Word) : rdX (wrX s v) = v &&& mask (idxW s) := narrowWrite_and_mask _ _ _ _

@[simp] theorem rdY_wrY (s : State) (v : Word) : rdY (wrY s v) = v &&& mask (idxW s) := narrowWrite_and_mask _ _ _ _

/-- Settles O12, by the arithmetic of the mask at the observed width. -/
theorem registerReadsAreMasked : Obligations.RegisterReadsAreMasked := by
  intro s
  refine ⟨rfl, rfl, rfl, fun h => ?_, fun hn hw => ?_, fun h => ⟨?_, ?_⟩, fun hn hw => ⟨?_, ?_⟩⟩
  · rw [rdAcc, and_mask_toNat, accW_of_narrow h, rangeOf]
  · rw [rdAcc, accW_of_native hn, hw, and_mask_bit16]
  · rw [rdX, and_mask_toNat, idxW_of_narrow h, rangeOf]
  · rw [rdY, and_mask_toNat, idxW_of_narrow h, rangeOf]
  · rw [rdX, idxW_of_native hn, hw, and_mask_bit16]
  · rw [rdY, idxW_of_native hn, hw, and_mask_bit16]

/-- Settles O13: a write is read back under the mask of the observed width, and EffPC is an offset in a bank. -/
theorem readAfterRegisterWrite : Obligations.ReadAfterRegisterWrite := by
  intro s v
  refine ⟨fun he => ?_, fun hn hw => ?_, effPC_toNat s, (effPC s).isLt⟩
  · rw [rdAcc_wrAcc, rdX_wrX, rdY_wrY, accW_of_narrow (.inl he), idxW_of_narrow (.inl he)]
    exact ⟨rfl, rfl, rfl⟩
  · rw [rdAcc_wrAcc, accW_of_native hn, hw]
    rfl

end Sys2Proof.Machine
end

section
/-! PROOFS. Which instructions write memory, and which bytes of it (10_state.md R39). -/

namespace Sys2Proof.Machine

/-- A byte that a store changed is one of the bytes stored. -/
theorem read_stored_ne {s : State} {a b : Nat} {v : Word} (h : (stored s a v).read b ≠ s.memory.read b) :
    a ≤ b ∧ b < a + (accW s).nbytes := by
  by_contra hn
  refine h (Memory.read_writeBytes_of_outside _ _ _ _ ?_)
  rw [leBytes_length]
  omega

/-- The memory of a completed instruction is kept, or it is one of those R39 lists and stored its datum. -/
theorem Effect.memory_writer {s t : State} {i : Instr} (h : Effect s i t) : t.memory = s.memory ∨
    mnemonicOf i ∈ ["TRB", "TSB", "ASL", "ROL", "LSR", "ROR", "INC", "DEC"] ∧
      ∃ a v, dataAddr s i = some a ∧ t.memory = stored s a v := by
  cases h with
  | testStore a v z hd hp hm => exact .inr ⟨by rcases hm with hm | hm <;> simp [hm], a, v, hd, rfl⟩
  | shiftMemory a v c hd hp hm => exact .inr ⟨by rcases hm with hm | hm | hm | hm <;> simp [hm], a, v, hd, rfl⟩
  | countMemory a v hd hp hm => exact .inr ⟨by rcases hm with hm | hm <;> simp [hm], a, v, hd, rfl⟩
  | status t hi ht =>
    obtain ⟨_, _, _, _, _, _, _, _, hmem⟩ := exec_status_frame hi ht
    exact .inl hmem
  | logical | bit | shiftAcc | countAcc | countX | countY => exact .inl rfl

/-- Settles O40: memory is kept, or a listed instruction stored its datum, and outside the datum a store keeps every
byte. -/
theorem memoryChangesOnlyAtTheDataAddress : Obligations.MemoryChangesOnlyAtTheDataAddress := by
  intro i s t h
  rcases (exec_effect h).memory_writer with hkept | ⟨hmn, a, v, hd, hmem⟩
  · exact ⟨fun b hb => absurd (by rw [hkept]) hb, fun _ => hkept⟩
  · refine ⟨fun b hb => ⟨hmn, a, hd, read_stored_ne (hmem ▸ hb)⟩, fun hno => ?_⟩
    rcases hno with hno | hno
    · exact absurd hmn hno
    · simp [hd] at hno

end Sys2Proof.Machine
end

section
/-! PROOFS. Two states side by side: a relation that the writes of the shared operations keep is kept by every instruction
that runs one of them, and both stop with the same fault or both complete. -/

namespace Sys2Proof.Machine

/-- The four instructions with a stack-relative mode (41_addressing_modes.md R150). -/
def IsStackRelative (i : Instr) : Prop := ∃ o8, i = .oraSr o8 ∨ i = .oraSrIndY o8 ∨ i = .andSr o8 ∨ i = .andSrIndY o8

/-- Both computations stop with the same fault, or both complete in related states. -/
inductive Related (R : State → State → Prop) : Except Fault State → Except Fault State → Prop
  | error (e : Fault) : Related R (.error e) (.error e)
  | ok {t t' : State} (h : R t t') : Related R (.ok t) (.ok t')

theorem Related.map {R : State → State → Prop} {r r' : Except Fault State} {f f' : State → State} (h : Related R r r')
    (hf : ∀ {t t'}, R t t' → R (f t) (f' t')) : Related R (r.map f) (r'.map f') := by
  cases h with
  | error e => exact .error e
  | ok h => exact .ok (hf h)

theorem Related.finish_cases {R : State → State → Prop} {r r' : Except Fault State} (h : Related R r r') :
    (∃ f, finish r = .fault f ∧ finish r' = .fault f) ∨
      ∃ t t', finish r = .next t ∧ finish r' = .next t' ∧ R t t' := by
  cases h with
  | error e => exact .inl ⟨e, rfl, rfl⟩
  | ok h => exact .inr ⟨_, _, rfl, rfl, h⟩

/-- Related states agree in what the shared operations read, and stay related under the same write in both. -/
structure PairInvariant (R : State → State → Prop) : Prop where
  agree {s s' : State} (h : R s s') : Agree s s'
  carry {s s' : State} (h : R s s') : s'.carry = s.carry
  setNeg {s s' : State} (h : R s s') (b : Bool) : R (s.setNeg b) (s'.setNeg b)
  setOverflow {s s' : State} (h : R s s') (b : Bool) : R (s.setOverflow b) (s'.setOverflow b)
  setZero {s s' : State} (h : R s s') (b : Bool) : R (s.setZero b) (s'.setZero b)
  setCarry {s s' : State} (h : R s s') (b : Bool) : R (s.setCarry b) (s'.setCarry b)
  setMemory {s s' : State} (h : R s s') (m : Memory) : R (s.setMemory m) (s'.setMemory m)
  writeReg {s s' : State} (h : R s s') (v : Word) (r : Reg) : R (writeReg s v r) (writeReg s' v r)

namespace PairInvariant

variable {R : State → State → Prop} (P : PairInvariant R) {s s' : State} (h : R s s') {m : AddrMode}
  (hs : m.hasStack = true → s'.stackPtr = s.stackPtr) (o : Addr)

include P h

theorem setNZ (v : Word) (w : Width) : R (setNZ s v w) (setNZ s' v w) := P.setZero (P.setNeg h _) _

include hs

theorem store (v : Word) : Related R (m.store o v s) (m.store o v s') := by
  rcases (P.agree h).store hs o v with ⟨e, he, he'⟩ | ⟨_, he, he'⟩ | ⟨r, _, he, he'⟩ | ⟨M, he, he'⟩ <;> rw [he, he']
  · exact .error e
  · exact .ok h
  · exact .ok (P.writeReg h v r)
  · exact .ok (P.setMemory h M)

theorem execLogical (op : LogicalOp) : Related R (execLogical op m o s) (execLogical op m o s') := by
  have ha := P.agree h
  simp only [Machine.execLogical, ha.fetch hs, ha.rdAcc, ha.accW]
  cases m.fetch o s with
  | error e => exact .error e
  | ok d => exact .ok (P.setNZ (P.writeReg h _ .acc) _ _)

theorem execBit : Related R (execBit m o s) (execBit m o s') := by
  have ha := P.agree h
  simp only [Machine.execBit, ha.fetch hs, ha.rdAcc, ha.accW]
  cases m.fetch o s with
  | error e => exact .error e
  | ok d => exact .ok (P.setZero (P.setOverflow (P.setNeg h _) _) _)

theorem execTestStore (f : Width → Word → Word → Word) :
    Related R (execTestStore f m o s) (execTestStore f m o s') := by
  have ha := P.agree h
  simp only [Machine.execTestStore, ha.fetch hs, ha.rdAcc, ha.accW]
  cases m.fetch o s with
  | error e => exact .error e
  | ok d => exact (P.store h hs o _).map fun ht => P.setZero ht _

theorem execShift (op : ShiftOp) : Related R (execShift op m o s) (execShift op m o s') := by
  have ha := P.agree h
  simp only [Machine.execShift, ha.fetch hs, ha.accW, P.carry h]
  cases m.fetch o s with
  | error e => exact .error e
  | ok d => exact (P.store h hs o _).map fun ht => P.setCarry (P.setNZ ht _ _) _

theorem execIncDec (f : Word → Width → Word) : Related R (execIncDec f m o s) (execIncDec f m o s') := by
  have ha := P.agree h
  simp only [Machine.execIncDec, ha.fetch hs, ha.width]
  cases m.fetch o s with
  | error e => exact .error e
  | ok d => exact (P.store h hs o _).map fun ht => P.setNZ ht _ _

theorem run (k : Kind) : Related R (k.run m o s) (k.run m o s') := by
  cases k with
  | logical op => exact P.execLogical h hs o op
  | bit => exact P.execBit h hs o
  | testStore f => exact P.execTestStore h hs o f
  | shift op => exact P.execShift h hs o op
  | incDec f => exact P.execIncDec h hs o f

omit hs

/-- An instruction that is no processor-status instruction keeps the relation, `stack_ptr` mattering to the
stack-relative ones only. -/
theorem exec {i : Instr} (hi : ¬IsStatus i) (hst : IsStackRelative i → s'.stackPtr = s.stackPtr) :
    (∃ f, exec i s = .fault f ∧ exec i s' = .fault f) ∨
      ∃ t t', exec i s = .next t ∧ exec i s' = .next t' ∧ R t t' := by
  obtain ⟨k, m, o, mn, mods, pre, st, hinst, hexec⟩ := exec_kind hi
  rw [hexec, hexec]
  exact (P.run h (fun hm => hst (hasStack_of_instance hinst hm)) o k).finish_cases

end PairInvariant

end Sys2Proof.Machine
end

section
/-! PROOFS. Who reads and who writes `stack_ptr` (10_state.md R26). -/

namespace Sys2Proof.Machine

theorem Effect.stackPtr {s t : State} {i : Instr} (h : Effect s i t) : t.stackPtr = s.stackPtr := by
  cases h with
  | status t hi ht =>
    obtain ⟨_, _, _, _, _, _, hsp, _⟩ := exec_status_frame hi ht
    exact hsp
  | logical | bit | testStore | shiftAcc | shiftMemory | countAcc | countX | countY | countMemory => rfl

/-- The two states agree in every field but `stack_ptr`. -/
def SameButStackPtr (s s' : State) : Prop := s' = { s with stackPtr := s'.stackPtr }

theorem sameButStackPtr_invariant : PairInvariant SameButStackPtr where
  agree h := by rw [h]; exact ⟨rfl, rfl, rfl, rfl, rfl, rfl, rfl, rfl, rfl, rfl⟩
  carry h := by rw [h]
  setNeg h b := by rw [h]; rfl
  setOverflow h b := by rw [h]; rfl
  setZero h b := by rw [h]; rfl
  setCarry h b := by rw [h]; rfl
  setMemory h m := by rw [h]; rfl
  writeReg h v r := by rw [h]; cases r <;> rfl

theorem maskWidths_setStackPtr (m : Byte) (w : Width) (s : State) (v : Word) :
    maskWidths m w { s with stackPtr := v } = { maskWidths m w s with stackPtr := v } := by
  unfold maskWidths
  dsimp only
  split <;> rfl

/-- A processor-status instruction does the same whatever `stack_ptr` holds. -/
theorem exec_status_setStackPtr {i : Instr} (hi : IsStatus i) (s : State) (v : Word) :
    ∃ t, exec i s = .next t ∧ exec i { s with stackPtr := v } = .next { t with stackPtr := v } := by
  cases i with
  | clc | sec | cld | sed | sei | cli | clv | nop | xba => exact ⟨_, rfl, rfl⟩
  | xce =>
    simp only [exec, execXce]
    split <;> exact ⟨_, rfl, rfl⟩
  | rep m => exact ⟨_, rfl, congrArg Host.Outcome.next (maskWidths_setStackPtr m .bit16 (maskFlags m false s) v)⟩
  | sep m => exact ⟨_, rfl, congrArg Host.Outcome.next (maskWidths_setStackPtr m .bit8 (maskFlags m true s) v)⟩
  | _ => simp [isStatus_iff] at hi

/-- Without a stack-relative mode, another `stack_ptr` changes nothing but itself. -/
theorem exec_setStackPtr {i : Instr} (hi : ¬IsStackRelative i) (s : State) (v : Word) :
    (∃ f, exec i s = .fault f ∧ exec i { s with stackPtr := v } = .fault f) ∨
      ∃ t, exec i s = .next t ∧ exec i { s with stackPtr := v } = .next { t with stackPtr := v } := by
  by_cases hst : IsStatus i
  · exact .inr (exec_status_setStackPtr hst s v)
  · have hrel : SameButStackPtr s { s with stackPtr := v } := rfl
    refine (sameButStackPtr_invariant.exec hrel hst fun hsr => absurd hsr hi).imp_right ?_
    rintro ⟨t, t', ht, ht', hrel'⟩
    have hv : t'.stackPtr = v := (exec_effect ht').stackPtr
    exact ⟨t, ht, by rw [ht', ← hv]; exact congrArg _ hrel'⟩

/-- Settles O43: no effect touches `stack_ptr`, and the relation "equal but for `stack_ptr`" is kept by every instruction
without a stack-relative mode. -/
theorem stackPointerIsReadOnlyByStackModes : Obligations.StackPointerIsReadOnlyByStackModes := by
  refine ⟨fun i s t h => (exec_effect h).stackPtr, fun i s v hi => ?_, fun s o8 => addressIs_stack o8 s⟩
  have hns : ¬IsStackRelative i := by
    rintro ⟨o8, hsr⟩
    simp [hi o8] at hsr
  rcases exec_setStackPtr hns s v with ⟨f, hf, hf'⟩ | ⟨t, ht, ht'⟩
  · rw [hf', hf]
  · rw [ht', ht]

end Sys2Proof.Machine
end

section
/-! PROOFS. MemRead and MemWrite as the caller sees them (20_memory.md R62 to R65). -/

namespace Sys2Proof.Machine

/-- A fault names the first byte of the access that is not there (20_memory.md R62). -/
theorem memRead_first_missing {s : State} {a n k : Nat} (hk : k < n) (hout : s.config.memSize ≤ a + k)
    (hfirst : ∀ j, j < k → a + j < s.config.memSize) : memRead s a n = .error (.memoryBounds (a + k)) := by
  have hmax : max a s.config.memSize = a + k := by
    cases k with
    | zero => exact Nat.max_eq_left hout
    | succ j =>
      have hlast : a + j < s.config.memSize := hfirst j j.lt_succ_self
      omega
  rw [memRead_of_lt (by omega), hmax]

/-- A read depends on `MEM_SIZE` and the bytes of the access alone. -/
theorem memRead_congr {s t : State} {a n : Nat} (hsize : t.config.memSize = s.config.memSize)
    (hbytes : ∀ k, k < n → t.memory.read (a + k) = s.memory.read (a + k)) : memRead t a n = memRead s a n := by
  have hsame : t.memory.bytes a n = s.memory.bytes a n := Memory.bytes_congr fun x hlo hhi => by
    simpa [Nat.add_sub_cancel' hlo] using hbytes (x - a) (by omega)
  rw [memRead, memRead, hsize, hsame]

/-- A value written and read back is cut to the width of the access (20_memory.md R65). -/
theorem memWrite_then_memRead {s : State} {a n : Nat} (v : Nat) (h : a + n ≤ s.config.memSize) :
    ∃ t, memWrite s a n v = .ok t ∧ memRead t a n = .ok (v % 2 ^ (8 * n)) := by
  refine ⟨_, memWrite_of_le h, ?_⟩
  have hback : (s.memory.writeBytes a (leBytes n v)).bytes a n = leBytes n v := by
    simpa using Memory.bytes_writeBytes s.memory a (leBytes n v)
  rw [memRead_of_le (by simpa using h), State.setMemory_memory, hback, leValue_leBytes]

/-- Settles O10: the round trip gives the value modulo the width, which is the mask of R65. -/
theorem memWriteThenReadGivesTheValue : Obligations.MemWriteThenReadGivesTheValue := by
  intro s a v
  have hword : v &&& 0xFFFF = v % 2 ^ (8 * 2) := Nat.and_two_pow_sub_one_eq_mod v 16
  have hlong : v &&& 0xFFFFFF = v % 2 ^ (8 * 3) := Nat.and_two_pow_sub_one_eq_mod v 24
  rw [hword, hlong]
  exact ⟨memWrite_then_memRead v, memWrite_then_memRead v⟩

/-- Settles O9: the bytes in range are added up low first, and the other two clauses hold for every size. -/
theorem memReadIsLittleEndian : Obligations.MemReadIsLittleEndian := by
  intro s a
  refine ⟨fun h => ?_, fun h => ?_, fun h => ?_, fun n _ =>
    ⟨fun k => memRead_first_missing, fun t => memRead_congr⟩⟩
  · rw [memRead_of_le h]
    simp [Memory.bytes, leValue]
  · rw [memRead_of_le h, word2_eq]
    rfl
  · rw [memRead_of_le h, word3_eq]
    rfl

end Sys2Proof.Machine
end

section
/-! PROOFS. The shift and rotate family by its opcode bit fields (30_encoding.md R93, R97). -/

namespace Sys2Proof

/-! ## Operand bytes written out, low byte first -/

theorem decode_op8_byte {b : Byte} {i : Byte → Instr} (h : decodeOpcode b = some (.op8 i)) (w : Width) (o : Byte)
    (rest : List Byte) : decode w (b :: o :: rest) = .ok (i o, rest) := by
  have hbytes : leBytes 1 o.toNat = [o] := leBytes_leValue [o]
  simpa [hbytes] using decode_op8 h w o rest

theorem leValue_pair (lo hi : Byte) : leValue [lo, hi] = (hi ++ lo).toNat := by
  rw [BitVec.toNat_append, ← Nat.shiftLeft_add_eq_or_of_lt lo.isLt, Nat.shiftLeft_eq]
  simp only [leValue]
  omega

theorem decode_op16_bytes {b : Byte} {i : Word → Instr} (h : decodeOpcode b = some (.op16 i)) (w : Width)
    (lo hi : Byte) (rest : List Byte) : decode w (b :: lo :: hi :: rest) = .ok (i (hi ++ lo), rest) := by
  have hbytes : leBytes 2 (hi ++ lo).toNat = [lo, hi] := by
    rw [← leValue_pair]
    exact leBytes_leValue [lo, hi]
  simpa [hbytes] using decode_op16 h w (hi ++ lo) rest

/-! ## The bytes of the family are those of its rows -/

theorem shiftRows_decodeShift : shiftRows.Forall fun p => decodeShift p.1 = some p.2 :=
  ⟨rfl, rfl, rfl, rfl, rfl, rfl, rfl, rfl, rfl, rfl, rfl, rfl, rfl, rfl, rfl, rfl, rfl, rfl, rfl, rfl⟩

theorem decodeShift_eq_some_iff {b : Byte} {f : Form} : decodeShift b = some f ↔ (b, f) ∈ shiftRows :=
  ⟨decodeShift_mem, List.forall_iff_forall_mem.1 shiftRows_decodeShift (b, f)⟩

theorem decodeShift_isSome_iff {b : Byte} : (decodeShift b).isSome = true ↔ b ∈ shiftRows.map Prod.fst := by
  simp [Option.isSome_iff_exists, decodeShift_eq_some_iff]

theorem shiftRows_fields : ∀ b ∈ shiftRows.map Prod.fst,
    b.getLsbD 7 = false ∧ b.extractLsb' 0 5 ∈ [0x0A#5, 0x06#5, 0x0E#5, 0x16#5, 0x1E#5] := by decide

/-- A byte with another bit 7 or other mode bits than the rows have is not this family. -/
theorem decodeShift_eq_none {b : Byte}
    (h : b.getLsbD 7 = true ∨ b.extractLsb' 0 5 ∉ [0x0A#5, 0x06#5, 0x0E#5, 0x16#5, 0x1E#5]) : decodeShift b = none := by
  by_contra hsome
  obtain ⟨htop, hmode⟩ := shiftRows_fields b (decodeShift_isSome_iff.1 (Option.isSome_iff_ne_none.2 hsome))
  rcases h with h | h
  · exact Bool.false_ne_true (htop.symm.trans h)
  · exact h hmode

/-- Settles O4: each of the twenty field combinations is claimed with its format, which reads the operand low byte first;
the bytes the family claims are those of `shiftRows`, all with the fields of R97. -/
theorem shiftFamilyDecodesByBitFields : Obligations.ShiftFamilyDecodesByBitFields := by
  intro w o8 lo hi rest
  exact ⟨decode_imp rfl w rest, decode_imp rfl w rest, decode_imp rfl w rest, decode_imp rfl w rest,
    decode_op8_byte rfl w o8 rest, decode_op8_byte rfl w o8 rest, decode_op8_byte rfl w o8 rest,
    decode_op8_byte rfl w o8 rest,
    decode_op16_bytes rfl w lo hi rest, decode_op16_bytes rfl w lo hi rest, decode_op16_bytes rfl w lo hi rest,
    decode_op16_bytes rfl w lo hi rest,
    decode_op8_byte rfl w o8 rest, decode_op8_byte rfl w o8 rest, decode_op8_byte rfl w o8 rest,
    decode_op8_byte rfl w o8 rest,
    decode_op16_bytes rfl w lo hi rest, decode_op16_bytes rfl w lo hi rest, decode_op16_bytes rfl w lo hi rest,
    decode_op16_bytes rfl w lo hi rest,
    fun b => decodeShift_eq_none, fun b => decodeShift_isSome_iff⟩

end Sys2Proof
end

section
/-! PROOFS. The ALU helpers on every 16-bit value (40_alu_helpers.md R121 to R126). -/

namespace Sys2Proof.Machine

/-- Settles O16: the three tests of R121, the zero test on the value as it stands. -/
theorem flagsOfAValue : Obligations.FlagsOfAValue := by
  intro v w
  refine ⟨?_, ?_, ?_, rfl, rfl⟩
  · cases w <;> exact bne_iff_ne
  · cases w <;> exact bne_iff_ne
  · rw [checkFlags_zero, decide_eq_true_iff]

/-- A left shift in arithmetic, with bits above the width in the value too (40_alu_helpers.md R124). -/
theorem rotate_left_toNat_of_any (v : Word) (w : Width) : (rotate v w .left).1.toNat = 2 * v.toNat % rangeOf w := by
  have hdvd : rangeOf w ∣ 2 ^ 16 := by cases w <;> decide
  rw [rotate, and_mask_toNat, BitVec.toNat_shiftLeft, Nat.mod_mod_of_dvd _ hdvd, Nat.shiftLeft_eq, Nat.pow_one,
    Nat.mul_comm]

/-- Settles O17: the place moved in arithmetic, the bit that fell off by the sign test or the test of bit 0. -/
theorem rotateMovesOnePlace : Obligations.RotateMovesOnePlace := by
  refine ⟨fun v w => ⟨?_, ?_, rotate_right_toNat v w, rotate_right_snd v w⟩, rfl, rfl, rfl, rfl, rfl, rfl, rfl, rfl⟩
  · cases w <;> exact rotate_left_toNat_of_any v _
  · cases w <;> exact rotate_left_snd v _

/-- Zero shifts to zero, and no bit falls off. -/
theorem rotate_zero (w : Width) (d : Direction) : rotate 0 w d = (0, false) := by
  cases d <;> cases w <;> rfl

/-- The low bits halved back, and the top bit's weight, make up the value. -/
theorem half_of_double_add_topBit {v : Word} {w : Width} (h : v.toNat < rangeOf w) :
    2 * v.toNat % rangeOf w / 2 + (topBit w v).toNat * (rangeOf w / 2) = v.toNat := by
  rw [topBit_iff h]
  by_cases htop : rangeOf w / 2 ≤ v.toNat
  · rw [decide_eq_true htop, Bool.toNat_true]
    cases w <;> simp only [rangeOf] at * <;> omega
  · rw [decide_eq_false htop, Bool.toNat_false]
    cases w <;> simp only [rangeOf] at * <;> omega

/-- Rotating right with the bit that fell off on the left as the carry in undoes a left shift (40_alu_helpers.md R126). -/
theorem ror_rotate_left {v : Word} {w : Width} (h : v.toNat < rangeOf w) :
    (shiftValue .ror (rotate v w .left).1 w (rotate v w .left).2).1 = v := by
  have hn : (rotate v w .left).1.toNat < rangeOf w := and_mask_lt _ w
  rw [shiftValue_fst hn, rotate_left_snd, shifted, rotate_left_toNat h, half_of_double_add_topBit h, BitVec.ofNat_toNat,
    BitVec.setWidth_eq]

/-- Settles O18: right after left, with the bit put back, is ROR after ASL with its carry. -/
theorem rotateLeftThenRightRestores : Obligations.RotateLeftThenRightRestores := by
  refine ⟨rotate_zero, fun v w h => ror_rotate_left ?_⟩
  cases w <;> exact h

end Sys2Proof.Machine
end

section
/-! PROOFS. The addressing-mode unit in plain arithmetic (41_addressing_modes.md R140 to R157). -/

namespace Sys2Proof.Machine

/-! ## The value of an address -/

/-- An address is known by its value. -/
theorem AddressIs.address_eq {m : AddrMode} {o : Addr} {s : State} {a : Nat} (h : AddressIs m o s a) :
    m.address o s = .ok (BitVec.ofNat 24 a) := by
  obtain ⟨e, he, rfl⟩ := h
  rw [he, BitVec.ofNat_toNat, BitVec.setWidth_eq]

theorem addressIs_program (o : Word) (s : State) :
    AddressIs (.absolute .program) (zext 24 o) s (inBank s.programBank o.toNat) :=
  ⟨_, rfl, by rw [absoluteOffset_toNat]; simp⟩

/-- A two-byte pointer loses nothing when it is cut to the 16 bits of an offset in a bank. -/
theorem readIndirect_two {s : State} {e : Addr} (h : Present s e.toNat 2) :
    ∃ p, readIndirect s e 2 = .ok p ∧ (zext 16 p).toNat = word2 s e.toNat := by
  have hlt := word2_lt s e.toNat
  refine ⟨BitVec.ofNat 24 (word2 s e.toNat), ?_, ?_⟩
  · rw [readIndirect, memRead_of_le h, word2_eq, Except.map]
  · rw [zext, BitVec.toNat_setWidth, BitVec.toNat_ofNat]
    omega

theorem AddressIs.indirect_program {m : AddrMode} {o : Addr} {s : State} {a : Nat} (h : AddressIs m o s a)
    (hp : Present s a 2) : AddressIs (.indirect m .program) o s (inBank s.programBank (word2 s a)) := by
  obtain ⟨e, he, rfl⟩ := h
  obtain ⟨p, hread, hvalue⟩ := readIndirect_two hp
  refine ⟨absoluteOffset s.programBank (zext 16 p), ?_, ?_⟩
  · simp only [AddrMode.address, he, Except.bind, hread, Except.map]
  · rw [absoluteOffset_toNat, hvalue]

/-! ## Data through an address, present or not -/

theorem AddressIs.fetchData_eq {m : AddrMode} {o : Addr} {s : State} {a : Nat} (h : AddressIs m o s a) :
    m.fetchData o s = (memRead s a (accW s).nbytes).map (BitVec.ofNat 16) := by
  obtain ⟨e, he, rfl⟩ := h
  rw [AddrMode.fetchData, he, Except.bind]

theorem AddressIs.storeData_eq {m : AddrMode} {o : Addr} {s : State} {a : Nat} (h : AddressIs m o s a) (v : Word) :
    m.storeData o v s = memWrite s a (accW s).nbytes v.toNat := by
  obtain ⟨e, he, rfl⟩ := h
  rw [AddrMode.storeData, he, Except.bind]

theorem memWrite_stackPtr {s t : State} {a n v : Nat} (h : memWrite s a n v = .ok t) : t.stackPtr = s.stackPtr := by
  rcases memWrite_cases s a n v with ⟨_, hw⟩ | ⟨_, hw⟩ <;> rw [hw] at h <;> cases h
  exact State.setMemory_stackPtr s _

/-! ## The statements of the family -/

/-- Settles O19: the offset fills the low 16 bits under the bank, the index is added to all 24, and the direct-page base
`0xFFFF` plus one leaves bank 0. -/
theorem bankAndIndexArithmetic : Obligations.BankAndIndexArithmetic := by
  refine ⟨absoluteOffset_toNat, fun e s => ⟨indexed_x_toNat e s, indexed_y_toNat e s, ?_, ?_⟩, fun s hd hx => ?_⟩
  · have h := rdX_lt s
    cases hw : idxW s <;> rwa [hw] at h
  · have h := rdY_lt s
    cases hw : idxW s <;> rwa [hw] at h
  · have h := (addressIs_direct 0x0F s).indexed_x.address_eq
    rwa [plusX, directAddr, hd, hx] at h

/-- Settles O20: both addresses are known by their values, and fetch and store move their bytes there. -/
theorem directPageAndStackModes : Obligations.DirectPageAndStackModes := by
  intro s o8 v
  have hdirect := addressIs_direct o8 s
  have hstack := addressIs_stack o8 s
  have hoperand : (zext 24 o8).toNat = o8.toNat := zext_toNat o8 (by decide)
  refine ⟨rfl, rfl, hdirect.address_eq, hstack.address_eq, hdirect.fetchData_eq, hstack.fetchData_eq,
    hdirect.storeData_eq v, hstack.storeData_eq v, fun t ht => ?_, ?_, ?_, fun hd => ?_, fun hd => ?_⟩
  · exact memWrite_stackPtr ((hstack.storeData_eq v).symm.trans ht)
  · rw [AddrMode.text, hexText, hoperand]
  · rw [AddrMode.text, hexText, hoperand]
  · have h := (addressIs_direct 0x20 s).address_eq
    rwa [directAddr, hd] at h
  · have h := (addressIs_direct 0x05 s).address_eq
    rwa [directAddr, hd] at h

/-- Settles O21: each composite mode's address from that of its base, by one rule per `Indexed` and `Indirect` form. -/
theorem effectiveAddressOfEveryMode : Obligations.EffectiveAddressOfEveryMode := by
  intro s o16 o8 o24
  have hdata := addressIs_absolute o16 s
  have hlong := addressIs_long o24 s
  have hdirect := addressIs_direct o8 s
  have hstack := addressIs_stack o8 s
  exact ⟨hdata.address_eq, (addressIs_program o16 s).address_eq, hlong.address_eq,
    hdata.indexed_x.address_eq, hdata.indexed_y.address_eq, hlong.indexed_x.address_eq,
    hdirect.address_eq, hdirect.indexed_x.address_eq, hstack.address_eq,
    fun hp => (hdirect.indirect hp).address_eq,
    fun hp => (hdirect.indirect_program hp).address_eq,
    fun hp => (hdirect.indirect_long hp).address_eq,
    fun hp => (hdirect.indexed_x.indirect hp).address_eq,
    fun hp => (hdirect.indirect hp).indexed_y.address_eq,
    fun hp => (hdirect.indirect_long hp).indexed_y.address_eq,
    fun hp => (hstack.indirect hp).indexed_y.address_eq⟩

end Sys2Proof.Machine
end

section
/-! PROOFS. The page-boundary predicate of the cycle calculator (42_cycle_calculator.md R187). -/

namespace Sys2Proof.Machine

/-- The predicate compares the pages of the address before and after the index is added. -/
theorem checkPageBoundary_holds_iff (n : Int32) (initial : Addr) (r : IndexReg) (s : State) :
    (CycleMod.checkPageBoundary n initial r).holds s = true ↔
      initial.toNat / 0x100 ≠ (indexed initial s r).toNat / 0x100 := by
  rw [CycleMod.holds, pageDiffers_iff]

/-- Settles O54: the page comparison in arithmetic, with the indexed address of R141 for each register. -/
theorem pageCrossingComparesPageAndBank : Obligations.PageCrossingComparesPageAndBank := by
  intro n initial s
  constructor
  · rw [checkPageBoundary_holds_iff, indexed_x_toNat, plusX]
  · rw [checkPageBoundary_holds_iff, indexed_y_toNat, plusY]

end Sys2Proof.Machine
end

section
/-! PROOFS. ORA and AND in every mode (43_logical_ora_and.md R201). -/

namespace Sys2Proof.Machine

theorem rangeOf_eq_two_pow (w : Width) : rangeOf w = 2 ^ (8 * w.nbytes) := by cases w <;> rfl

/-- The immediate datum is the operand, cut to the accumulator's width (41_addressing_modes.md R145). -/
@[simp] theorem fetch_immediate (imm : Word) (s : State) :
    AddrMode.immediate.fetch (zext 24 imm) s = .ok (imm &&& mask (accW s)) := by
  rw [AddrMode.fetch, zext, zext, BitVec.setWidth_setWidth_of_le _ (by decide), BitVec.setWidth_eq]

/-! ## The result of the shared operation -/

/-- Either operation on two values within a width stays within it. -/
theorem LogicalOp.apply_lt_rangeOf {a d : Word} {w : Width} (op : LogicalOp) (ha : a.toNat < rangeOf w)
    (hd : d.toNat < rangeOf w) : (op.apply a d).toNat < rangeOf w := by
  cases op with
  | or => exact or_lt_rangeOf ha hd
  | and => exact and_lt_rangeOf ha

/-- The state with the result `r` in the accumulator, `neg` and `zero` from it, and nothing else changed. -/
abbrev afterLogical (s : State) (r : Word) : State :=
  { s with
    acc := narrowWrite s.config (accW s) s.acc r
    neg := topBit (accW s) r
    zero := decide (r = 0) }

/-- An instruction that runs the shared operation completes with its result on the datum fetched. -/
theorem exec_logical_of_fetch {i : Instr} {m : AddrMode} {o : Addr} {s : State} {d : Word} (op : LogicalOp)
    (hexec : exec i s = finish (execLogical op m o s)) (hd : m.fetch o s = .ok d) :
    exec i s = .next (afterLogical s (op.apply (rdAcc s) d)) := by
  rw [hexec, finish_next_iff, execLogical_of_fetch hd]

/-- Through memory, the datum is the one at the flat address, wherever the bytes exist. -/
theorem exec_logical_memory {i : Instr} {m : AddrMode} {o : Addr} {s : State} {a : Nat} (op : LogicalOp)
    (hexec : exec i s = finish (execLogical op m o s)) (src : Source s i o m) (ha : dataAddr s i = some a)
    (hr : Ready s i) : exec i s = .next (afterLogical s (op.apply (rdAcc s) (datumAt s a))) :=
  exec_logical_of_fetch op hexec (src.fetch_memory ha hr)

/-- Settles O22: each form runs the shared operation on its datum, the operand or the bytes at the flat address, and both
are within the accumulator's width. -/
theorem oraAndResultInEveryMode : Obligations.OraAndResultInEveryMode := by
  intro s imm o16 o8 o24
  refine ⟨exec_logical_of_fetch .or rfl (fetch_immediate imm s), exec_logical_of_fetch .and rfl (fetch_immediate imm s),
    fun i hi a ha hr => ?_, fun i hi a ha hr => ?_, fun d hd => ?_⟩
  · fin_cases hi <;> exact exec_logical_memory .or rfl (source_of_instance s rfl) ha hr
  · fin_cases hi <;> exact exec_logical_memory .and rfl (source_of_instance s rfl) ha hr
  · have hlt : d.toNat < rangeOf (accW s) := by
      rcases hd with rfl | ⟨a, rfl⟩
      · exact and_mask_lt imm (accW s)
      · exact datumAt_lt s a
    rw [← rangeOf_eq_two_pow]
    exact ⟨LogicalOp.or.apply_lt_rangeOf (rdAcc_lt s) hlt, LogicalOp.and.apply_lt_rangeOf (rdAcc_lt s) hlt⟩

end Sys2Proof.Machine
end

section
/-! PROOFS. BIT, TRB and TSB in every mode (44_bit_trb_tsb.md R241 to R243). -/

namespace Sys2Proof.Machine

/-! ## BIT -/

/-- The state with `neg` and `overflow` from the datum `d`, `zero` from `acc & d`, and nothing else changed. -/
abbrev afterBit (s : State) (d : Word) : State :=
  { s with
    neg := topBit (accW s) d
    overflow := nextBit (accW s) d
    zero := decide (rdAcc s &&& d = 0) }

/-- An instruction that runs the bit test completes with the flags of the datum fetched. -/
theorem exec_bit_of_fetch {i : Instr} {m : AddrMode} {o : Addr} {s : State} {d : Word}
    (hexec : exec i s = finish (execBit m o s)) (hd : m.fetch o s = .ok d) : exec i s = .next (afterBit s d) := by
  rw [hexec, finish_next_iff, execBit_of_fetch hd]

/-- Settles O23: each form tests its datum, the operand or the bytes at the flat address. -/
theorem bitResultInEveryMode : Obligations.BitResultInEveryMode := by
  intro s imm o16 o8
  refine ⟨exec_bit_of_fetch rfl (fetch_immediate imm s), fun i hi a ha hr => ?_⟩
  fin_cases hi <;> exact exec_bit_of_fetch rfl ((source_of_instance s rfl).fetch_memory ha hr)

/-! ## TRB and TSB -/

/-- An instruction that runs a test and store completes: the bytes at the flat address become `f`'s value of accumulator
and datum, `zero` is from the two as they were before the write, and nothing else changes. -/
theorem exec_testStore_memory {i : Instr} {m : AddrMode} {o : Addr} {s : State} {a : Nat}
    {f : Width → Word → Word → Word} (hexec : exec i s = finish (execTestStore f m o s)) (src : Source s i o m)
    (ha : dataAddr s i = some a) (hr : Ready s i) :
    ∃ mem, exec i s = .next { s with memory := mem, zero := decide (rdAcc s &&& datumAt s a = 0) } ∧
      StoredAt s mem a (f (accW s) (rdAcc s) (datumAt s a)) := by
  refine ⟨stored s a (f (accW s) (rdAcc s) (datumAt s a)), ?_, storedAt_writeBytes s a _⟩
  rw [hexec, finish_next_iff, execTestStore_of_fetch (src.fetch_memory ha hr) (src.store_memory ha hr _)]
  rfl

/-- Settles O24: both forms run the test and store with TRB's value, which is part of the accumulator's bits. -/
theorem trbStoresTheAccumulatorLessTheDatum : Obligations.TrbStoresTheAccumulatorLessTheDatum := by
  intro s o16 o8 i hi a ha hr
  constructor
  · fin_cases hi <;> exact exec_testStore_memory (f := trbValue) rfl (source_of_instance s rfl) ha hr
  · rw [← rangeOf_eq_two_pow]
    exact and_lt_rangeOf (rdAcc_lt s)

/-- At 8 bits the datum is the one byte at its address. -/
theorem datumAt_of_bit8 {s : State} (h : accW s = .bit8) (a : Nat) : datumAt s a = zext 16 (s.memory.read a) := by
  rw [datumAt, h]

/-- The byte at the address of a store is the value's low byte, at either width. -/
theorem StoredAt.read_self {s : State} {m : Memory} {a : Nat} {v : Word} (h : StoredAt s m a v) :
    m.read a = zext 8 v := (h a).trans (if_pos rfl)

/-- Settles O25: both forms run the test and store with TSB's value; in the example the two operands share no bit and
together make up `0xFF`. -/
theorem tsbStoresTheAccumulatorOrTheDatum : Obligations.TsbStoresTheAccumulatorOrTheDatum := by
  intro s o16 o8 i hi a ha hr
  have hrun : ∃ mem, exec i s = .next { s with memory := mem, zero := decide (rdAcc s &&& datumAt s a = 0) } ∧
      StoredAt s mem a (rdAcc s ||| datumAt s a) := by
    fin_cases hi <;> exact exec_testStore_memory (f := tsbValue) rfl (source_of_instance s rfl) ha hr
  obtain ⟨mem, hnext, hstored⟩ := hrun
  refine ⟨mem, hnext, hstored, fun hw hacc hbyte => ?_⟩
  have hdatum : datumAt s a = 0xAA := by
    rw [datumAt_of_bit8 hw, hbyte]
    rfl
  rw [hstored.read_self, hacc, hdatum]
  decide

end Sys2Proof.Machine
end

section
/-! PROOFS. ASL, ROL, LSR and ROR in every form (45_shift_rotate.md R261). -/

namespace Sys2Proof.Machine

/-- The state `t`, in which the result already stands where the value `v` came from, with `neg` and `zero` from the result
and the bit shifted out in `carry`; widths and the carry shifted in are those of `s`, before the write. -/
abbrev afterShift (s t : State) (op : ShiftOp) (v : Word) : State :=
  { t with
    neg := topBit (accW s) (shifted op (accW s) v s.carry)
    zero := decide (shifted op (accW s) v s.carry = 0)
    carry := shiftedOut op (accW s) v }

/-- An instruction that shifts the accumulator completes with the result in it. -/
theorem exec_shift_acc {i : Instr} {s : State} {o : Addr} (op : ShiftOp)
    (hexec : exec i s = finish (execShift op (.register .acc) o s)) :
    exec i s = .next (afterShift s (wrAcc s (shifted op (accW s) (rdAcc s) s.carry)) op (rdAcc s)) := by
  rw [hexec, finish_next_iff, execShift_of_fetch rfl (rdAcc_lt s) rfl]
  rfl

/-- An instruction that shifts a memory datum completes with the result at the flat address. -/
theorem exec_shift_memory {i : Instr} {m : AddrMode} {o : Addr} {s : State} {a : Nat} (op : ShiftOp)
    (hexec : exec i s = finish (execShift op m o s)) (src : Source s i o m) (ha : dataAddr s i = some a)
    (hr : Ready s i) :
    ∃ mem, exec i s = .next (afterShift s { s with memory := mem } op (datumAt s a)) ∧
      StoredAt s mem a (shifted op (accW s) (datumAt s a) s.carry) := by
  refine ⟨stored s a (shifted op (accW s) (datumAt s a) s.carry), ?_, storedAt_writeBytes s a _⟩
  rw [hexec, finish_next_iff,
    execShift_of_fetch (src.fetch_memory ha hr) (datumAt_lt s a) (src.store_memory ha hr _)]
  rfl

/-! ## The top bit after a right shift -/

/-- Half of a value within the width is below the weight of its top bit. -/
theorem half_lt_half_rangeOf {n : Nat} {w : Width} (h : n < rangeOf w) : n / 2 < rangeOf w / 2 := by
  cases w <;> simp only [rangeOf] at * <;> omega

/-- LSR clears `neg`: the top bit of its result is clear. -/
theorem topBit_shifted_lsr {v : Word} {w : Width} (h : v.toNat < rangeOf w) (c : Bool) :
    topBit w (shifted .lsr w v c) = false := by
  have hval : (shifted .lsr w v c).toNat = v.toNat / 2 := by
    rw [shifted, BitVec.toNat_ofNat, Nat.mod_eq_of_lt (by omega)]
  rw [topBit_iff (shifted_lt h .lsr c), hval, decide_eq_false (Nat.not_le_of_lt (half_lt_half_rangeOf h))]

/-- ROR moves the old carry into `neg`: it is the top bit of the result. -/
theorem topBit_shifted_ror {v : Word} {w : Width} (h : v.toNat < rangeOf w) (c : Bool) :
    topBit w (shifted .ror w v c) = c := by
  have hhalf := half_lt_half_rangeOf h
  have hrange := rangeOf_le w
  have hval : (shifted .ror w v c).toNat = v.toNat / 2 + c.toNat * (rangeOf w / 2) := by
    rw [shifted, BitVec.toNat_ofNat, Nat.mod_eq_of_lt]
    cases c <;> simp only [Bool.toNat_false, Bool.toNat_true] <;> omega
  rw [topBit_iff (shifted_lt h .ror c), hval]
  cases c with
  | false => exact decide_eq_false (by simpa using hhalf)
  | true => exact decide_eq_true (by simp)

/-- Settles O26: each form runs the shared shift on the accumulator or on the datum at the flat address, and the top bit
after a right shift is the one shifted in. -/
theorem shiftResultInEveryMode : Obligations.ShiftResultInEveryMode := by
  intro s o16 o8
  refine ⟨fun p hp => ?_, fun p hp a ha hr => ?_, fun v hv => ?_⟩
  · fin_cases hp <;> exact exec_shift_acc (o := 0) _ rfl
  · fin_cases hp <;> exact exec_shift_memory _ rfl (source_of_instance s rfl) ha hr
  · exact ⟨topBit_shifted_lsr hv s.carry, topBit_shifted_ror hv s.carry⟩

end Sys2Proof.Machine
end

section
/-! PROOFS. INC, INX, INY, DEC, DEX and DEY in every form (46_inc_dec.md R291, R292). -/

namespace Sys2Proof.Machine

/-! ## The new value -/

theorem increment_eq (v : Word) (w : Width) : increment v w = BitVec.ofNat 16 ((v.toNat + 1) % rangeOf w) := by
  rw [← increment_toNat, BitVec.ofNat_toNat, BitVec.setWidth_eq]

/-- Within the width the mask on the second arm of R292 does nothing. -/
theorem decrement_eq {v : Word} {w : Width} (h : v.toNat < rangeOf w) :
    decrement v w = if v = 0 then mask w else BitVec.ofNat 16 (v.toNat - 1) := by
  by_cases hv : v = 0
  · rw [if_pos hv, decrement, if_pos (beq_iff_eq.2 hv)]
  · have hpos : 0 < v.toNat := by
      rw [Nat.pos_iff_ne_zero]
      exact fun hz => hv (BitVec.eq_of_toNat_eq hz)
    have hwrap : (v.toNat + (rangeOf w - 1)) % rangeOf w = v.toNat - 1 := by
      rw [show v.toNat + (rangeOf w - 1) = v.toNat - 1 + rangeOf w by omega, Nat.add_mod_right,
        Nat.mod_eq_of_lt (by omega)]
    rw [if_neg hv, ← hwrap, ← decrement_toNat h, BitVec.ofNat_toNat, BitVec.setWidth_eq]

/-! ## The shared operation in each form -/

/-- The state `t`, in which the new value `n` already stands where the old one came from, with `neg` and `zero` from `n`
at the width `w`. -/
abbrev afterCount (t : State) (w : Width) (n : Word) : State :=
  { t with
    neg := topBit w n
    zero := decide (n = 0) }

/-- An instruction that counts the value fetched completes with the new value stored. -/
theorem exec_count_of_fetch {i : Instr} {f : Word → Width → Word} {m : AddrMode} {o : Addr} {s t : State}
    {v n : Word} (hexec : exec i s = finish (execIncDec f m o s)) (hv : m.fetch o s = .ok v) (hn : f v (m.width s) = n)
    (ht : m.store o n s = .ok t) : exec i s = .next (afterCount t (m.width s) n) := by
  subst hn
  rw [hexec, finish_next_iff, execIncDec_of_fetch hv ht]

/-- An instruction that counts a memory datum completes with the new value at the flat address. -/
theorem exec_count_memory {i : Instr} {f : Word → Width → Word} {m : AddrMode} {o : Addr} {s : State} {a : Nat}
    {n : Word} (hexec : exec i s = finish (execIncDec f m o s)) (src : Source s i o m) (ha : dataAddr s i = some a)
    (hr : Ready s i) (hn : f (datumAt s a) (accW s) = n) :
    ∃ mem, exec i s = .next (afterCount { s with memory := mem } (accW s) n) ∧ StoredAt s mem a n := by
  obtain ⟨_, _, _, _, hw⟩ := src.address ha hr
  refine ⟨stored s a n, ?_, storedAt_writeBytes s a n⟩
  rw [← hw] at hn ⊢
  exact exec_count_of_fetch hexec (src.fetch_memory ha hr) hn (src.store_memory ha hr n)

/-! ## The statements of the family -/

/-- Settles O27: each form counts its register, or the datum at the flat address, up by one modulo the range of its
width. -/
theorem incResultInEveryMode : Obligations.IncResultInEveryMode := by
  intro s o16 o8 new
  refine ⟨exec_count_of_fetch (m := .register .acc) (o := 0) rfl rfl (increment_eq _ _) rfl,
    exec_count_of_fetch (m := .register .x) (o := 0) rfl rfl (increment_eq _ _) rfl,
    exec_count_of_fetch (m := .register .y) (o := 0) rfl rfl (increment_eq _ _) rfl,
    fun i hi a ha hr => ?_, fun w => ?_⟩
  · fin_cases hi <;> exact exec_count_memory rfl (source_of_instance s rfl) ha hr (increment_eq _ _)
  · cases w <;> decide

/-- Settles O28: each form counts down a value within its width, for which the two arms of R292 are one subtraction
modulo the range. -/
theorem decResultInEveryMode : Obligations.DecResultInEveryMode := by
  intro s o16 o8 new
  refine ⟨exec_count_of_fetch (m := .register .acc) (o := 0) rfl rfl (decrement_eq (rdAcc_lt s)) rfl,
    exec_count_of_fetch (m := .register .x) (o := 0) rfl rfl (decrement_eq (rdX_lt s)) rfl,
    exec_count_of_fetch (m := .register .y) (o := 0) rfl rfl (decrement_eq (rdY_lt s)) rfl,
    fun i hi a ha hr => ?_, fun w v hv => ?_, fun w => ?_⟩
  · fin_cases hi <;> exact exec_count_memory rfl (source_of_instance s rfl) ha hr (decrement_eq (datumAt_lt s a))
  · have hnew : decrement v w = new w v := decrement_eq hv
    rw [← hnew, decrement_toNat hv]
  · cases w <;> decide

end Sys2Proof.Machine
end

section
/-! PROOFS. REP, SEP and the fixed table of the processor-status operations (47_status_ops.md R321, R322, R333, R334). -/

namespace Sys2Proof

/-- One operand byte, in the order of the encoding, is that byte. -/
theorem leBytes_one_toNat (o : Byte) : leBytes 1 o.toNat = [o] := leBytes_leValue [o]

namespace Machine

/-! ## REP and SEP -/

/-- The state with the six flags that the mask selects set to `v`, in either mode, and the widths that it selects set to `w`
in native mode. -/
abbrev afterMask (m : Byte) (v : Bool) (w : Width) (s : State) : State :=
  { s with
    neg := if m.getLsbD 7 then v else s.neg
    overflow := if m.getLsbD 6 then v else s.overflow
    accSize := if s.emuMode = .native ∧ m.getLsbD 5 then w else s.accSize
    indexSize := if s.emuMode = .native ∧ m.getLsbD 4 then w else s.indexSize
    decimalMode := if m.getLsbD 3 then v else s.decimalMode
    irqDisable := if m.getLsbD 2 then v else s.irqDisable
    zero := if m.getLsbD 1 then v else s.zero
    carry := if m.getLsbD 0 then v else s.carry }

theorem maskFlags_eq (m : Byte) (v : Bool) (s : State) :
    maskFlags m v s = { s with
      neg := if m.getLsbD 7 then v else s.neg
      overflow := if m.getLsbD 6 then v else s.overflow
      decimalMode := if m.getLsbD 3 then v else s.decimalMode
      irqDisable := if m.getLsbD 2 then v else s.irqDisable
      zero := if m.getLsbD 1 then v else s.zero
      carry := if m.getLsbD 0 then v else s.carry } := by
  unfold maskFlags State.setNeg State.setOverflow State.setDecimalMode State.setIrqDisable State.setZero State.setCarry
  congr 1
  · exact maskFlags_neg m v s
  · exact maskFlags_overflow m v s
  · exact maskFlags_carry m v s
  · exact maskFlags_zero m v s
  · exact maskFlags_irqDisable m v s
  · exact maskFlags_decimalMode m v s

theorem maskWidths_eq (m : Byte) (w : Width) (s : State) :
    maskWidths m w s = { s with
      accSize := if s.emuMode = .native ∧ m.getLsbD 5 then w else s.accSize
      indexSize := if s.emuMode = .native ∧ m.getLsbD 4 then w else s.indexSize } := by
  rw [← maskWidths_accSize, ← maskWidths_indexSize]
  unfold maskWidths
  split <;> rfl

/-- The flags are masked without touching what the widths are masked by. -/
theorem maskWidths_maskFlags (m : Byte) (v : Bool) (w : Width) (s : State) :
    maskWidths m w (maskFlags m v s) = afterMask m v w s := by
  rw [maskWidths_eq, maskFlags_eq]

theorem exec_rep (m : Byte) (s : State) : exec (.rep m) s = .next (afterMask m false .bit16 s) :=
  congrArg Host.Outcome.next (maskWidths_maskFlags m false .bit16 s)

theorem exec_sep (m : Byte) (s : State) : exec (.sep m) s = .next (afterMask m true .bit8 s) :=
  congrArg Host.Outcome.next (maskWidths_maskFlags m true .bit8 s)

/-- An instruction fetched that encodes to an opcode and one operand byte has that byte at `EffPC + 1`. -/
theorem operandByte_of_fetch {i : Instr} {s : State} {b o : Byte} (hf : fetchInstr s = .next i)
    (hsize : byteSize i s = 2) (henc : encode (accW s) i = b :: leBytes 1 o.toNat) :
    s.memory.read ((effPC s).toNat + 1) = o := by
  obtain ⟨-, -, hbytes⟩ := fetchInstr_next hf
  rw [hsize, henc, leBytes_one_toNat] at hbytes
  have hsecond := Memory.bytes_getElem? s.memory (effPC s).toNat 2 1 (by decide)
  rw [hbytes] at hsecond
  exact (Option.some.inj hsecond).symm

/-- Settles O30: both run the same mask on the flags and the widths, and the fetched bytes are the opcode and the mask. -/
theorem repAndSepFollowTheMaskByte : Obligations.RepAndSepFollowTheMaskByte := by
  intro s m
  refine ⟨exec_rep m s, exec_sep m s, fun h => ?_⟩
  rcases h with hrep | hsep
  · exact operandByte_of_fetch hrep rfl rfl
  · exact operandByte_of_fetch hsep rfl rfl

/-! ## Size, cycles and text from the instance -/

/-- A byte's two hex digits are its halves. -/
theorem hexDigits_byte (m : Byte) : hexDigits 2 m.toNat = [hexDigit (m.toNat / 16), hexDigit (m.toNat % 16)] := by
  have hhigh : m.toNat / 16 % 16 = m.toNat / 16 := Nat.mod_eq_of_lt (by omega)
  simp [hexDigits, hhigh]

section
variable {i : Instr} {mn : String} {n k : Nat} {b : Option Byte}

/-- The size of a processor-status instruction is that of its row, in every state. -/
theorem byteSize_of_status (h : instanceOf i = .status mn n k b) (s : State) : byteSize i s = n := by
  rw [byteSize, h, Instance.byteSize]

/-- Its cycles are those of its row, in every state. -/
theorem totalCycles_of_status (h : instanceOf i = .status mn n k b) (s : State) : totalCycles i s = k := by
  rw [totalCycles, h, Instance.totalCycles]

theorem disasm_of_status (h : instanceOf i = .status mn n k none) (s : State) : disasm i s = mn := by
  rw [disasm, h, Instance.text]

/-- The text before the digits is given as one word, `mn #$`. -/
theorem disasm_of_status_mask {m : Byte} {before : String} (h : instanceOf i = .status mn n k (some m))
    (hbefore : mn ++ " #" ++ "$" = before) (s : State) :
    disasm i s = before ++ String.ofList [hexDigit (m.toNat / 16), hexDigit (m.toNat % 16)] := by
  rw [disasm, h, Instance.text, hexText, hexDigits_byte, ← String.append_assoc, hbefore]

end

/-- Settles O33: the rows of R321, read off the instances, and the digits of the mask byte. -/
theorem statusSizesCyclesAndText : Obligations.StatusSizesCyclesAndText := by
  intro s m
  refine ⟨fun i hi => ?_, fun i hi => ?_, fun i hi => ?_, fun i hi => ?_, disasm_of_status rfl s,
    disasm_of_status rfl s, disasm_of_status rfl s, disasm_of_status rfl s, disasm_of_status rfl s,
    disasm_of_status rfl s, disasm_of_status rfl s, disasm_of_status rfl s, disasm_of_status rfl s,
    disasm_of_status rfl s, disasm_of_status_mask (i := .rep m) rfl rfl s,
    disasm_of_status_mask (i := .sep m) rfl rfl s, by decide⟩
  · fin_cases hi <;> exact byteSize_of_status rfl s
  · fin_cases hi <;> exact byteSize_of_status rfl s
  · fin_cases hi <;> exact totalCycles_of_status rfl s
  · fin_cases hi <;> exact totalCycles_of_status rfl s

end Machine

end Sys2Proof
end

section
/-! PROOFS. Decoding and encoding are inverse, and every opcode byte has its family or none (30_encoding.md sections 1
to 4). -/

namespace Sys2Proof

/-- Settles O1: each constructor's bytes are an opcode byte that its format claims, and the operand of that format. -/
theorem decodeAfterEncode : Obligations.DecodeAfterEncode := by
  intro w i rest hw
  cases i with
  | oraImm | andImm | bitImm => exact decode_immM rfl hw rest
  | oraAbs | oraAbsX | oraAbsY | andAbs | andAbsX | andAbsY | bitAbs | bitAbsX | trbAbs | tsbAbs | aslAbs | aslAbsX
  | rolAbs | rolAbsX | lsrAbs | lsrAbsX | rorAbs | rorAbsX | incAbs | incAbsX | decAbs | decAbsX =>
    exact decode_op16 rfl w _ rest
  | oraLong | oraLongX | andLong | andLongX => exact decode_op24 rfl w _ rest
  | aslA | rolA | lsrA | rorA | incA | inx | iny | decA | dex | dey | clc | sec | cld | sed | sei | cli | clv | nop
  | xba | xce => exact decode_imp rfl w rest
  | oraDp | oraDpInd | oraDpIndLong | oraDpX | oraDpXInd | oraDpIndY | oraDpIndLongY | oraSr | oraSrIndY
  | andDp | andDpInd | andDpIndLong | andDpX | andDpXInd | andDpIndY | andDpIndLongY | andSr | andSrIndY
  | bitDp | bitDpX | trbDp | tsbDp | aslDp | aslDpX | rolDp | rolDpX | lsrDp | lsrDpX | rorDp | rorDpX | incDp | incDpX
  | decDp | decDpX | rep | sep => exact decode_op8 rfl w _ rest

/-- Settles O2: the bytes decoded are a claimed byte and its operand, which its row encodes back to. -/
theorem encodeAfterDecode : Obligations.EncodeAfterDecode := by
  intro w bytes rest i h
  obtain ⟨b, f, bs, hf, hlen, rfl, rfl⟩ := decode_ok_iff.1 h
  have hlt : leValue bs < 2 ^ (8 * f.operandBytes w) := hlen ▸ leValue_lt bs
  obtain ⟨henc, hwf⟩ := decodeOpcode_encodes hf w _ hlt
  refine ⟨hwf, ?_⟩
  rw [henc, ← hlen, leBytes_leValue]
  rfl

/-- Settles O3, byte by byte. -/
theorem unclaimedOpcodesAreTheListed : Obligations.UnclaimedOpcodesAreTheListed := by
  unfold Obligations.UnclaimedOpcodesAreTheListed
  decide

/-- Settles O5, byte by byte. -/
theorem opcodeFamiliesAreDisjoint : Obligations.OpcodeFamiliesAreDisjoint := by
  unfold Obligations.OpcodeFamiliesAreDisjoint
  decide

/-- Settles O6: each word by running the decoder on it. -/
theorem sampleWordsDecode : Obligations.SampleWordsDecode :=
  ⟨rfl, rfl, rfl, rfl, rfl, rfl, rfl, rfl, rfl, rfl, rfl, rfl, rfl⟩

end Sys2Proof
end

section
/-! PROOFS. `ByteSize` of every instruction, and what it depends on (48_opcode_protocol.md R350). -/

namespace Sys2Proof

open Sys2Proof.Laws.EncodedLength in
/-- The encoding of every instruction has its `ByteSize`, which is 1 to 4. -/
theorem encodedLength : ∀ i, Statement i
  | .oraImm v => oraImm v | .oraAbs v => oraAbs v | .oraLong v => oraLong v | .oraDp v => oraDp v
  | .oraDpInd v => oraDpInd v | .oraDpIndLong v => oraDpIndLong v | .oraAbsX v => oraAbsX v | .oraLongX v => oraLongX v
  | .oraAbsY v => oraAbsY v | .oraDpX v => oraDpX v | .oraDpXInd v => oraDpXInd v | .oraDpIndY v => oraDpIndY v
  | .oraDpIndLongY v => oraDpIndLongY v | .oraSr v => oraSr v | .oraSrIndY v => oraSrIndY v
  | .andImm v => andImm v | .andAbs v => andAbs v | .andLong v => andLong v | .andDp v => andDp v
  | .andDpInd v => andDpInd v | .andDpIndLong v => andDpIndLong v | .andAbsX v => andAbsX v | .andLongX v => andLongX v
  | .andAbsY v => andAbsY v | .andDpX v => andDpX v | .andDpXInd v => andDpXInd v | .andDpIndY v => andDpIndY v
  | .andDpIndLongY v => andDpIndLongY v | .andSr v => andSr v | .andSrIndY v => andSrIndY v
  | .bitImm v => bitImm v | .bitAbs v => bitAbs v | .bitDp v => bitDp v | .bitAbsX v => bitAbsX v | .bitDpX v => bitDpX v
  | .trbAbs v => trbAbs v | .trbDp v => trbDp v | .tsbAbs v => tsbAbs v | .tsbDp v => tsbDp v
  | .aslA => aslA | .aslDp v => aslDp v | .aslAbs v => aslAbs v | .aslDpX v => aslDpX v | .aslAbsX v => aslAbsX v
  | .rolA => rolA | .rolDp v => rolDp v | .rolAbs v => rolAbs v | .rolDpX v => rolDpX v | .rolAbsX v => rolAbsX v
  | .lsrA => lsrA | .lsrDp v => lsrDp v | .lsrAbs v => lsrAbs v | .lsrDpX v => lsrDpX v | .lsrAbsX v => lsrAbsX v
  | .rorA => rorA | .rorDp v => rorDp v | .rorAbs v => rorAbs v | .rorDpX v => rorDpX v | .rorAbsX v => rorAbsX v
  | .incA => incA | .incAbs v => incAbs v | .incDp v => incDp v | .incAbsX v => incAbsX v | .incDpX v => incDpX v
  | .inx => inx | .iny => iny
  | .decA => decA | .decAbs v => decAbs v | .decDp v => decDp v | .decAbsX v => decAbsX v | .decDpX v => decDpX v
  | .dex => dex | .dey => dey | .clc => clc | .sec => sec | .cld => cld | .sed => sed | .sei => sei | .cli => cli
  | .clv => clv | .nop => nop | .xba => xba | .xce => xce | .rep v => rep v | .sep v => sep v

namespace Machine

theorem encode_length (i : Instr) (s : State) : (encode (accW s) i).length = byteSize i s :=
  (encodedLength i (accW s)).1

theorem byteSize_bounds (i : Instr) (s : State) : 1 ≤ byteSize i s ∧ byteSize i s ≤ 4 := by
  rw [← encode_length]
  exact (encodedLength i (accW s)).2

theorem byteSize_of_mode {i : Instr} {mn : String} {m : AddrMode} {o : Addr} {mods : List CycleMod}
    {pre : Option IndexReg} {st : Bool} (h : instanceOf i = .addressed mn m o mods pre st) (s : State) :
    byteSize i s = 1 + m.byteSize (accW s) := by
  rw [byteSize, h, Instance.byteSize]

theorem byteSize_congr (i : Instr) {s t : State} (h : accW s = accW t) : byteSize i s = byteSize i t := by
  rw [byteSize, byteSize, h]

/-- Settles O7: the sizes of the rows by their modes, and the bounds by the length of the encoding. -/
theorem byteSizeOfEveryInstruction : Obligations.ByteSizeOfEveryInstruction := by
  intro s imm o16 o8 o24
  refine ⟨fun i hi => ?_, fun i hi => ?_, fun i hi => ?_, fun i hi => ?_, fun i hi => ?_, fun i hi => ?_,
    fun i hi => ?_, fun i mn m o mods pre st h => byteSize_of_mode h s, fun i t => byteSize_congr i,
    fun i => byteSize_bounds i s⟩
  · fin_cases hi <;> exact byteSize_of_status rfl s
  · fin_cases hi <;> exact byteSize_of_status rfl s
  · fin_cases hi <;> rfl
  · fin_cases hi <;> rfl
  · fin_cases hi <;> rfl
  · fin_cases hi <;> rfl
  · have hsize : byteSize i s = 1 + (accW s).nbytes := by fin_cases hi <;> rfl
    rw [hsize]
    cases accW s <;> rfl

/-- Only the immediates have a size that the width can change. -/
theorem byteSize_eq_or_immediate (i : Instr) :
    (∃ imm, i = .oraImm imm ∨ i = .andImm imm ∨ i = .bitImm imm) ∨ ∀ s t, byteSize i s = byteSize i t := by
  cases i with
  | oraImm imm => exact .inl ⟨imm, .inl rfl⟩
  | andImm imm => exact .inl ⟨imm, .inr (.inl rfl)⟩
  | bitImm imm => exact .inl ⟨imm, .inr (.inr rfl)⟩
  | _ => exact .inr fun _ _ => rfl

/-- Of the instructions that complete, only processor-status ones change the observed accumulator width. -/
theorem Effect.accW_eq {s t : State} {i : Instr} (h : Effect s i t) : IsStatus i ∨ accW t = accW s := by
  cases h with
  | status t hi ht => exact .inl hi
  | logical | bit | testStore | shiftAcc | shiftMemory | countAcc | countX | countY | countMemory => exact .inr rfl

/-- Settles O8: outside the immediates no size depends on the state, and an immediate keeps the width. -/
theorem lengthFollowsTheStateOnlyForImmediates : Obligations.LengthFollowsTheStateOnlyForImmediates := by
  refine ⟨fun i s t hne => ⟨?_, ?_⟩, fun i s t h => ?_⟩
  · exact (byteSize_eq_or_immediate i).resolve_right fun h => hne (h s t)
  · have hw : accW s ≠ accW t := fun h => hne (byteSize_congr i h)
    rcases accW_cases s with hs | hs <;> rcases accW_cases t with ht | ht <;> simp_all
  · rcases (exec_effect h).accW_eq with ⟨mn, n, k, mb, hst⟩ | hw
    · rw [byteSize_of_status hst, byteSize_of_status hst]
    · exact byteSize_congr i hw

end Machine

end Sys2Proof
end

section
/-! PROOFS. What no instruction lets through: the hidden high bytes of narrow registers (10_state.md section 7) and the five
flags without a reader (10_state.md section 6). -/

namespace Sys2Proof.Machine

/-! ## Hidden high bytes -/

theorem SameVisible.setNeg {s s' : State} (h : SameVisible s s') (b : Bool) : SameVisible (s.setNeg b) (s'.setNeg b) := by
  obtain ⟨heq, hacc, hx, hy⟩ := h
  exact ⟨by rw [heq]; rfl, hacc, hx, hy⟩

theorem SameVisible.setOverflow {s s' : State} (h : SameVisible s s') (b : Bool) :
    SameVisible (s.setOverflow b) (s'.setOverflow b) := by
  obtain ⟨heq, hacc, hx, hy⟩ := h
  exact ⟨by rw [heq]; rfl, hacc, hx, hy⟩

theorem sameVisible_invariant : PairInvariant SameVisible where
  agree h := h.agree
  carry h := h.carry
  setNeg h b := h.setNeg b
  setOverflow h b := h.setOverflow b
  setZero h b := h.setZero b
  setCarry h b := h.setCarry b
  setMemory h m := h.setMemory m
  writeReg h v r := h.wr v r

/-- What is the same at one width is the same at that width and at 8 bits. -/
theorem and_mask_narrow {a b : Word} {w w' : Width} (hw : w' = w ∨ w' = .bit8) (h : a &&& mask w = b &&& mask w) :
    a &&& mask w' = b &&& mask w' := by
  rcases hw with rfl | rfl
  · exact h
  · cases w with
    | bit8 => exact h
    | bit16 => rw [and_mask_bit16, and_mask_bit16] at h; rw [h]

/-- A processor-status instruction but XBA does the same whatever the general registers hold. -/
theorem exec_status_setRegs {i : Instr} (hi : IsStatus i) (hxba : i ≠ .xba) (s : State) (a x y : Word) :
    ∃ t, exec i s = .next t ∧
      exec i { s with acc := a, x := x, y := y } = .next { t with acc := a, x := x, y := y } := by
  cases i with
  | clc | sec | cld | sed | sei | cli | clv | nop => exact ⟨_, rfl, rfl⟩
  | xba => exact absurd rfl hxba
  | xce =>
    simp only [exec, execXce]
    split <;> exact ⟨_, rfl, rfl⟩
  | rep m => exact ⟨_, exec_rep m s, exec_rep m _⟩
  | sep m => exact ⟨_, exec_sep m s, exec_sep m _⟩
  | _ => simp [isStatus_iff] at hi

theorem accW_afterMask_bit8 (m : Byte) (v : Bool) (s : State) :
    accW (afterMask m v .bit8 s) = accW s ∨ accW (afterMask m v .bit8 s) = .bit8 := by
  cases he : s.emuMode with
  | emulation => exact .inr (accW_of_narrow (.inl he))
  | native =>
    rw [accW_of_native (s := s) he, accW_of_native (s := afterMask m v .bit8 s) he]
    dsimp only
    split
    · exact .inr rfl
    · exact .inl rfl

theorem idxW_afterMask_bit8 (m : Byte) (v : Bool) (s : State) :
    idxW (afterMask m v .bit8 s) = idxW s ∨ idxW (afterMask m v .bit8 s) = .bit8 := by
  cases he : s.emuMode with
  | emulation => exact .inr (idxW_of_narrow (.inl he))
  | native =>
    rw [idxW_of_native (s := s) he, idxW_of_native (s := afterMask m v .bit8 s) he]
    dsimp only
    split
    · exact .inr rfl
    · exact .inl rfl

/-- A processor-status instruction but XBA and REP keeps `acc`, and keeps each observed width or makes it 8 bits. -/
theorem exec_status_narrows {i : Instr} {s t : State} (hi : IsStatus i) (hmn : mnemonicOf i ∉ ["XBA", "REP"])
    (h : exec i s = .next t) :
    t.acc = s.acc ∧ (accW t = accW s ∨ accW t = .bit8) ∧ (idxW t = idxW s ∨ idxW t = .bit8) := by
  cases i with
  | clc | sec | cld | sed | sei | cli | clv | nop => cases h; exact ⟨rfl, .inl rfl, .inl rfl⟩
  | xba => exact absurd (List.mem_cons_self) hmn
  | rep m => exact absurd (List.mem_cons_of_mem _ List.mem_cons_self) hmn
  | xce =>
    simp only [exec, execXce] at h
    split at h <;> cases h
    · exact ⟨rfl, .inr rfl, .inr rfl⟩
    · exact ⟨rfl, .inr rfl, .inr rfl⟩
    · exact ⟨rfl, .inl rfl, .inl rfl⟩
    · exact ⟨rfl, .inl rfl, .inl rfl⟩
  | sep m =>
    rw [exec_sep] at h
    cases h
    exact ⟨rfl, accW_afterMask_bit8 m true s, idxW_afterMask_bit8 m true s⟩
  | _ => simp [isStatus_iff] at hi

/-- A processor-status instruction but XBA and REP shows no hidden byte: it widens no register. -/
theorem SameVisible.exec_status {i : Instr} {s s' : State} (h : SameVisible s s') (hi : IsStatus i)
    (hmn : mnemonicOf i ∉ ["XBA", "REP"]) :
    ∃ t t', exec i s = .next t ∧ exec i s' = .next t' ∧ SameVisible t t' := by
  obtain ⟨heq, hacc, hx, hy⟩ := h
  have hxba : i ≠ .xba := fun e => hmn (by rw [e]; exact List.mem_cons_self)
  obtain ⟨t, ht, ht'⟩ := exec_status_setRegs hi hxba s s'.acc s'.x s'.y
  obtain ⟨hta, hwa, hwi⟩ := exec_status_narrows hi hmn ht
  obtain ⟨_, htx, hty, _⟩ := exec_status_frame hi ht
  rw [heq] at hacc hx hy
  refine ⟨t, _, ht, (congrArg (exec i) heq).trans ht', rfl, ?_, ?_, ?_⟩
  · rw [rdAcc, hta]; exact and_mask_narrow hwa hacc
  · rw [rdX, htx]; exact and_mask_narrow hwi hx
  · rw [rdY, hty]; exact and_mask_narrow hwi hy

/-- Settles O41: the relation is kept by every write of the shared operations, and by the processor-status instructions
that widen no register. -/
theorem hiddenHighBytesDoNotLeak : Obligations.HiddenHighBytesDoNotLeak := by
  intro i s s' h hmn
  by_cases hst : IsStatus i
  · exact .inr (h.exec_status hst hmn)
  · exact sameVisible_invariant.exec h hst fun _ => h.stackPtr

/-! ## Flags that nothing reads -/

/-- The two states agree in every field but `neg`, `overflow`, `zero`, `irq_disable` and `decimal_mode`. -/
def SameButFlags (s s' : State) : Prop :=
  s' = { s with
    neg := s'.neg, overflow := s'.overflow, zero := s'.zero, irqDisable := s'.irqDisable, decimalMode := s'.decimalMode }

theorem sameButFlags_invariant : PairInvariant SameButFlags where
  agree h := by rw [h]; exact ⟨rfl, rfl, rfl, rfl, rfl, rfl, rfl, rfl, rfl, rfl⟩
  carry h := by rw [h]
  setNeg h b := by rw [h]; rfl
  setOverflow h b := by rw [h]; rfl
  setZero h b := by rw [h]; rfl
  setCarry h b := by rw [h]; rfl
  setMemory h m := by rw [h]; rfl
  writeReg h v r := by rw [h]; cases r <;> rfl

/-- A processor-status instruction reads none of the five flags: REP and SEP keep or replace each of them alone. -/
theorem SameButFlags.exec_status {i : Instr} {s s' : State} (h : SameButFlags s s') (hi : IsStatus i) :
    ∃ t t', exec i s = .next t ∧ exec i s' = .next t' ∧ SameButFlags t t' := by
  rw [h]
  cases i with
  | clc | sec | cld | sed | sei | cli | clv | nop | xba => exact ⟨_, _, rfl, rfl, rfl⟩
  | xce =>
    simp only [exec, execXce]
    split <;> exact ⟨_, _, rfl, rfl, rfl⟩
  | rep m => exact ⟨_, _, exec_rep m _, exec_rep m _, rfl⟩
  | sep m => exact ⟨_, _, exec_sep m _, exec_sep m _, rfl⟩
  | _ => simp [isStatus_iff] at hi

/-- Settles O42: agreement outside the five flags is kept by every instruction. -/
theorem flagsThatNothingReads : Obligations.FlagsThatNothingReads := by
  intro i s n v z q d s'
  have hrel : SameButFlags s s' := rfl
  by_cases hst : IsStatus i
  · exact .inr (hrel.exec_status hst)
  · exact sameButFlags_invariant.exec hrel hst fun _ => rfl

end Sys2Proof.Machine
end

section
/-! PROOFS. The invariant: at reset, under every instruction, under every step; and the registers that no instruction writes
(10_state.md sections 2 and 3; 20_memory.md sections 1, 3 and 4; 70_reset_and_hazards.md section 1). -/

namespace Sys2Proof.Machine

/-- The registers that no instruction writes, and the parameters, hold in `t` what they hold in `s`. -/
structure KeepsFixed (s t : State) : Prop where
  programBank : t.programBank = s.programBank
  dataBank : t.dataBank = s.dataBank
  directPage : t.directPage = s.directPage
  stackPtr : t.stackPtr = s.stackPtr
  config : t.config = s.config

theorem KeepsFixed.refl (s : State) : KeepsFixed s s := ⟨rfl, rfl, rfl, rfl, rfl⟩

theorem KeepsFixed.trans {s t u : State} (h : KeepsFixed s t) (h' : KeepsFixed t u) : KeepsFixed s u :=
  ⟨h'.programBank.trans h.programBank, h'.dataBank.trans h.dataBank, h'.directPage.trans h.directPage,
    h'.stackPtr.trans h.stackPtr, h'.config.trans h.config⟩

theorem Effect.keepsFixed {s t : State} {i : Instr} (h : Effect s i t) : t.pc = s.pc ∧ KeepsFixed s t := by
  cases h with
  | status t hi ht =>
    obtain ⟨hc, _, _, hdb, hdp, hpb, hsp, hpc, _⟩ := exec_status_frame hi ht
    exact ⟨hpc, hpb, hdb, hdp, hsp, hc⟩
  | logical | bit | testStore | shiftAcc | shiftMemory | countAcc | countX | countY | countMemory =>
    exact ⟨rfl, rfl, rfl, rfl, rfl, rfl⟩

/-- Settles O36, effect by effect. -/
theorem executeNeverWritesPcBanksDirectPageOrStack : Obligations.ExecuteNeverWritesPcBanksDirectPageOrStack := by
  intro i s t h
  obtain ⟨hpc, hkeep⟩ := (exec_effect h).keepsFixed
  exact ⟨hpc, hkeep.programBank, hkeep.dataBank, hkeep.directPage, hkeep.stackPtr, hkeep.config⟩

/-- A step moves `pc` and otherwise keeps what its instruction keeps. -/
theorem step_keepsFixed {s t : State} (h : step s = .next t) : KeepsFixed s t := by
  obtain ⟨i, u, _, hu, rfl⟩ := step_next h
  obtain ⟨_, hkeep⟩ := (exec_effect hu).keepsFixed
  exact ⟨hkeep.programBank, hkeep.dataBank, hkeep.directPage, hkeep.stackPtr, hkeep.config⟩

/-- Storing a datum that exists keeps the memory canonical and inside `MEM_SIZE`. -/
theorem inv_stored {s : State} (h : s.Inv) {a : Nat} (hp : Present s a (accW s).nbytes) (v : Word) :
    (stored s a v).Wf ∧ (stored s a v).Below s.config.memSize := by
  obtain ⟨hwf, hbelow, _⟩ := h
  exact ⟨Memory.wf_writeBytes hwf _ _, Memory.below_writeBytes hbelow (by rwa [leBytes_length])⟩

theorem Effect.inv {s t : State} {i : Instr} (he : Effect s i t) (h : s.Inv) : t.Inv := by
  have hcfg : t.config = s.config := he.keepsFixed.2.config
  obtain ⟨hwf, hbelow, hconfig⟩ := h
  rw [State.Inv, hcfg]
  rcases he.memory_cases with hmem | ⟨a, v, _, hp, hmem⟩
  · rw [hmem]
    exact ⟨hwf, hbelow, hconfig⟩
  · obtain ⟨hwf', hbelow'⟩ := inv_stored ⟨hwf, hbelow, hconfig⟩ hp v
    rw [hmem]
    exact ⟨hwf', hbelow', hconfig⟩

theorem step_keeps_inv {s t : State} (h : s.Inv) (hs : step s = .next t) : t.Inv := by
  obtain ⟨i, u, _, hu, rfl⟩ := step_next hs
  exact (exec_effect hu).inv h

/-- Settles O47: a step replaces the bytes of one existing datum at most. -/
theorem stepKeepsTheInvariant : Obligations.StepKeepsTheInvariant := fun _ _ h hs => step_keeps_inv h hs

theorem inv_resetFrom {c : Config} {image : Memory} (hc : c.Wf) (hwf : image.Wf) (hbelow : image.Below c.memSize)
    (v : Vectors) (u : Unspecified) : (State.resetFrom c image v u).Inv := ⟨hwf, hbelow, hc⟩

/-- Settles O48: reset copies image and parameters, and the model's own image is empty. -/
theorem resetMeetsTheInvariant : Obligations.ResetMeetsTheInvariant :=
  ⟨fun _ _ v u hc hwf hbelow => inv_resetFrom hc hwf hbelow v u,
    inv_resetFrom (by decide) Memory.wf_nil (by simp [Memory.Below]) _ _⟩

/-- Settles O52: each field is the one `resetFrom` gives it. -/
theorem resetLeavesTheSpecifiedValues : Obligations.ResetLeavesTheSpecifiedValues := fun _ _ _ _ =>
  ⟨rfl, rfl, rfl, rfl, rfl, rfl, rfl, rfl, rfl, rfl, rfl, rfl, rfl, rfl, rfl, rfl, rfl, rfl, rfl, rfl⟩

end Sys2Proof.Machine
end

section
/-! PROOFS. XBA and XCE, with their exact next states (47_status_ops.md R331, R332). -/

namespace Sys2Proof.Machine

/-! ## XBA -/

/-- The two bytes of a word, the other way round. -/
def swapHalves (v : Word) : Word := v.extractLsb' 0 8 ++ v.extractLsb' 8 8

theorem getLsbD_swapHalves (v : Word) (i : Nat) :
    (swapHalves v).getLsbD i = if i < 8 then v.getLsbD (8 + i) else decide (i < 16) && v.getLsbD (i - 8) := by
  unfold swapHalves
  rw [BitVec.getLsbD_append]
  split
  · simp [*]
  · have hhigh : i - 8 < 8 ↔ i < 16 := by omega
    simp only [BitVec.getLsbD_extractLsb', Nat.zero_add, hhigh]

@[simp] theorem swapHalves_swapHalves (v : Word) : swapHalves (swapHalves v) = v := by
  refine BitVec.eq_of_getLsbD_eq fun i hi => ?_
  simp only [getLsbD_swapHalves]
  interval_cases i <;> simp

theorem swapHalves_eq_zero (v : Word) : swapHalves v = 0 ↔ v = 0 := by
  constructor
  · intro h
    rw [← swapHalves_swapHalves v, h]
    rfl
  · rintro rfl
    rfl

theorem topBit_swapHalves (v : Word) : topBit .bit16 (swapHalves v) = v.getLsbD 7 := by
  simp only [topBit, getLsbD_swapHalves]
  simp

/-- The view `A8` is the low byte (10_state.md R21). -/
theorem a8_eq (s : State) : a8 s = s.acc.extractLsb' 0 8 := by
  unfold a8
  ext i hi
  interval_cases i <;> simp

/-- The view `B8` is the high byte (10_state.md R21). -/
theorem b8_eq (s : State) : b8 s = s.acc.extractLsb' 8 8 := by
  unfold b8
  ext i hi
  interval_cases i <;> simp

theorem a8_append_b8 (s : State) : (a8 s : Byte) ++ (b8 s : Byte) = swapHalves s.acc := by
  rw [a8_eq, b8_eq, swapHalves]

/-- The shifts and masks of R331 exchange the bytes. -/
theorem xba_value (v : Word) : (v &&& (0xFF : Word)) <<< 8 ||| (v >>> 8) &&& (0xFF : Word) = swapHalves v := by
  refine BitVec.eq_of_getLsbD_eq fun i hi => ?_
  rw [getLsbD_swapHalves]
  interval_cases i <;> simp

theorem exec_xba (s : State) : exec .xba s = .next { s with
    acc := swapHalves s.acc
    neg := s.acc.getLsbD 7
    zero := decide (s.acc = 0) } := by
  have hneg : decide (swapHalves s.acc > 0x7FFF) = s.acc.getLsbD 7 := by
    rw [← topBit_swapHalves, topBit_iff (BitVec.isLt _)]
    rfl
  have hzero : (swapHalves s.acc == 0x0000) = decide (s.acc = 0) := by
    rw [beq_eq_decide, decide_eq_decide]
    exact swapHalves_eq_zero s.acc
  simp only [exec, execXba, xba_value, hneg, hzero, State.setAcc, State.setNeg, State.setZero]

/-- Settles O31: the masks and shifts exchange the two bytes, which is its own inverse. -/
theorem xbaSwapsTheAccumulatorHalves : Obligations.XbaSwapsTheAccumulatorHalves := by
  intro s
  refine ⟨by rw [a8_append_b8]; exact exec_xba s, fun t u ht hu => ?_⟩
  rw [exec_xba] at ht
  cases ht
  rw [exec_xba] at hu
  cases hu
  exact swapHalves_swapHalves s.acc

/-! ## XCE -/

theorem exec_xce (s : State) : exec .xce s = .next { s with
    carry := decide (s.emuMode = .emulation)
    emuMode := if s.carry then .emulation else .native
    accSize := if s.emuMode = .emulation ∧ s.carry = false then .bit8 else s.accSize
    indexSize := if s.emuMode = .emulation ∧ s.carry = false then .bit8 else s.indexSize } := by
  obtain ⟨_, _, _, _, _, _, _, _, _, _, _, e, _, _, c, _, _, _, _⟩ := s
  cases e <;> cases c <;> rfl

/-- Settles O32: the four cases of carry and mode; exchanged twice, the pair is back. -/
theorem xceExchangesCarryAndMode : Obligations.XceExchangesCarryAndMode := by
  intro s
  refine ⟨exec_xce s, fun t u ht hu => ?_⟩
  rw [exec_xce] at ht
  cases ht
  rw [exec_xce] at hu
  cases hu
  constructor
  · cases s.carry <;> simp
  · cases s.emuMode <;> simp

end Sys2Proof.Machine
end

section
/-! PROOFS. Register writes, the Break flag and the checked write of memory (10_state.md R33, R36; 20_memory.md R64). -/

namespace Sys2Proof.Machine

/-- What a write leaves of a register's two bytes (10_state.md R33). -/
theorem narrowWrite_bytes (c : Config) (w : Width) (r v : Word) :
    (w = .bit16 → narrowWrite c w r v = v) ∧
    (w = .bit8 → (narrowWrite c w r v).extractLsb' 0 8 = v.extractLsb' 0 8 ∧
      (c.narrowWrite = .keepHigh → (narrowWrite c w r v).extractLsb' 8 8 = r.extractLsb' 8 8) ∧
      (c.narrowWrite = .replace → (narrowWrite c w r v).extractLsb' 8 8 = 0)) := by
  refine ⟨?_, ?_⟩
  · rintro rfl
    rfl
  rintro rfl
  obtain ⟨_, n⟩ := c
  refine ⟨?_, ?_, ?_⟩
  · cases n <;> simp only [narrowWrite] <;> ext i hi <;> interval_cases i <;> simp
  · rintro rfl
    simp only [narrowWrite]
    ext i hi
    interval_cases i <;> simp
  · rintro rfl
    simp only [narrowWrite]
    ext i hi
    interval_cases i <;> simp

/-- Settles O14: the three writes are one operation on the stored word. -/
theorem narrowWritesFollowTheParameter : Obligations.NarrowWritesFollowTheParameter := by
  intro s v
  exact ⟨⟨_, wrAcc_eq s v, narrowWrite_bytes _ _ _ _⟩, ⟨_, wrX_eq s v, narrowWrite_bytes _ _ _ _⟩,
    ⟨_, wrY_eq s v, narrowWrite_bytes _ _ _ _⟩⟩

/-- Settles O15: in emulation mode both read and write the stored `index_size`, which the observed width ignores. -/
theorem breakAliasesTheStoredIndexSize : Obligations.BreakAliasesTheStoredIndexSize := by
  intro s
  refine ⟨fun he => ⟨by simp only [breakFlag, he, beq_eq_decide], fun b => ?_⟩, fun hn => ⟨?_, fun b => ?_⟩⟩
  · refine ⟨s.setIndexSize (if b then .bit8 else .bit16), by simp only [setBreak, he], rfl, ?_,
      idxW_of_narrow (.inl he)⟩
    cases b <;> simp [breakFlag, he]
  · simp only [breakFlag, hn]
  · simp only [setBreak, hn]

/-- Settles O11: in range the bytes written are those of the value, out of range nothing is. -/
theorem memWriteReplacesExactlyItsBytes : Obligations.MemWriteReplacesExactlyItsBytes := by
  intro s a n v
  rcases memWrite_cases s a n v with ⟨hle, hw⟩ | ⟨hlt, hw⟩
  · refine ⟨fun _ => ⟨_, hw, fun hwf => Memory.wf_writeBytes hwf _ _, fun b => ?_⟩, fun h => by omega⟩
    rw [Memory.read_writeBytes, leBytes_length]
    split
    · rw [leBytes_getD _ _ _ (by omega)]
    · rfl
  · exact ⟨fun h => by omega, fun _ => hw⟩

end Sys2Proof.Machine
end

section
/-! PROOFS. Every instruction completes exactly when its pointer and data bytes exist (60_exceptions.md R371, R372). -/

namespace Sys2Proof.Machine

theorem Kind.run_of_error {m : AddrMode} {o : Addr} {s : State} {e : Fault} (h : m.fetch o s = .error e) (k : Kind) :
    k.run m o s = .error e := by
  cases k with
  | logical op => exact execLogical_of_error h op
  | bit => exact execBit_of_error h
  | testStore f => exact execTestStore_of_error h f
  | shift op => exact execShift_of_error h op
  | incDec f => exact execIncDec_of_error h f

/-- Where the operand's bytes exist, the fetch gives a datum and any store goes through. -/
theorem Kind.run_of_ready {i : Instr} {m : AddrMode} {o : Addr} {s : State} (src : Source s i o m) (hr : Ready s i)
    (k : Kind) : ∃ t, k.run m o s = .ok t := by
  obtain ⟨d, hd⟩ : ∃ d, m.fetch o s = .ok d := by
    rcases src.fetch_cases with ⟨_, d, hd, _⟩ | ⟨hn, _⟩
    · exact ⟨d, hd⟩
    · exact absurd hr hn
  have hstore (v : Word) : ∃ t, m.store o v s = .ok t := (src.store_cases hr v).imp fun _ h => h.1
  cases k with
  | logical op => exact ⟨_, execLogical_of_fetch hd op⟩
  | bit => exact ⟨_, execBit_of_fetch hd⟩
  | testStore f =>
    obtain ⟨t, ht⟩ := hstore (f (accW s) (rdAcc s) d)
    exact ⟨_, execTestStore_of_fetch hd ht⟩
  | shift op =>
    obtain ⟨t, ht⟩ := hstore (shiftValue op d (accW s) s.carry).1
    exact ⟨_, by simp only [Kind.run, execShift, hd, Except.bind, ht, Except.map]; rfl⟩
  | incDec f =>
    obtain ⟨t, ht⟩ := hstore (f d (m.width s))
    exact ⟨_, execIncDec_of_fetch hd ht⟩

/-- A processor-status instruction has no operand in memory. -/
theorem IsStatus.ready {i : Instr} (h : IsStatus i) (s : State) : Ready s i := by
  obtain ⟨t, ht⟩ := exec_status h s
  exact ready_of_next ht

/-- All that executing an instruction can answer. -/
theorem exec_cases (i : Instr) (s : State) :
    (Ready s i ∧ ∃ t, exec i s = .next t) ∨
    (¬Ready s i ∧ exec i s = .fault (.memoryBounds (firstMissing s i))) := by
  by_cases hst : IsStatus i
  · exact .inl ⟨hst.ready s, exec_status hst s⟩
  obtain ⟨k, m, o, mn, mods, pre, st, hinst, hexec⟩ := exec_kind hst
  have src := source_of_instance s hinst
  rw [hexec]
  rcases src.fetch_cases with ⟨hr, _⟩ | ⟨hn, hf⟩
  · obtain ⟨t, ht⟩ := k.run_of_ready src hr
    exact .inl ⟨hr, t, by rw [ht]; rfl⟩
  · exact .inr ⟨hn, by rw [k.run_of_error hf]; rfl⟩

theorem exec_of_ready {i : Instr} {s : State} (h : Ready s i) : ∃ t, exec i s = .next t := by
  rcases exec_cases i s with ⟨_, ht⟩ | ⟨hn, _⟩
  · exact ht
  · exact absurd h hn

theorem exec_of_not_ready {i : Instr} {s : State} (h : ¬Ready s i) :
    exec i s = .fault (.memoryBounds (firstMissing s i)) := by
  rcases exec_cases i s with ⟨hr, _⟩ | ⟨_, hf⟩
  · exact absurd hr h
  · exact hf

theorem exec_ne_refused (i : Instr) (s : State) (r : Refusal) : exec i s ≠ .refused r := by
  rcases exec_cases i s with ⟨_, t, h⟩ | ⟨_, h⟩ <;> rw [h] <;> nofun

theorem firstMissing_of_pointer {s : State} {i : Instr} {p : Nat × Nat} (hp : pointerOf s i = some p)
    (h : ¬Present s p.1 p.2) : firstMissing s i = max p.1 s.config.memSize := by
  simp only [firstMissing, hp, if_neg h]

theorem firstMissing_of_data {s : State} {i : Instr} {a : Nat} (hp : ∀ p ∈ pointerOf s i, Present s p.1 p.2)
    (ha : dataAddr s i = some a) : firstMissing s i = max a s.config.memSize := by
  unfold firstMissing
  split
  · rename_i p hsome
    rw [if_pos (hp p hsome), ha, Option.getD_some]
  · rw [ha, Option.getD_some]

/-- Settles O35: ready or not decides, and the fault names the first missing byte, the pointer's before the datum's. -/
theorem executeCompletesExactlyWhenItsBytesExist : Obligations.ExecuteCompletesExactlyWhenItsBytesExist := by
  refine fun i s => ⟨exec_of_ready, fun p hp hmiss => ?_, fun hp a ha hmiss => ?_⟩
  · rw [exec_of_not_ready fun hr => hmiss (hr.1 p hp), firstMissing_of_pointer hp hmiss]
  · rw [exec_of_not_ready fun hr => hmiss (hr.2 a ha), firstMissing_of_data hp ha]

end Sys2Proof.Machine
end

section
/-! PROOFS. Who writes which flag, register, mode and width (10_state.md sections 2, 4 and 6). -/

namespace Sys2Proof.Machine

/-- Settles O29: each is one field update. -/
theorem flagInstructionsWriteOneFlag : Obligations.FlagInstructionsWriteOneFlag := fun _ =>
  ⟨rfl, rfl, rfl, rfl, rfl, rfl, rfl, rfl⟩

/-- A masked value that changed was selected. -/
theorem selected_of_ne {α : Type} {p : Prop} [Decidable p] {new old : α} (h : (if p then new else old) ≠ old) : p := by
  by_contra hp
  exact h (if_neg hp)

/-- Settles O37: the effect of each shared operation, and the flags of each processor-status instruction. -/
theorem onlyTheListedInstructionsWriteEachFlag : Obligations.OnlyTheListedInstructionsWriteEachFlag := by
  intro i s t h
  cases exec_effect h with
  | logical v hm =>
    rcases hm with hm | hm <;> rw [hm] <;>
      exact ⟨fun _ => .inl (by decide), absurd rfl, fun _ => .inl (by decide), absurd rfl, absurd rfl, absurd rfl⟩
  | bit n v z hm =>
    rw [hm]
    exact ⟨fun _ => .inl (by decide), fun _ => .inl (by decide), fun _ => .inl (by decide), absurd rfl, absurd rfl,
      absurd rfl⟩
  | testStore a v z hd hp hm =>
    rcases hm with hm | hm <;> rw [hm] <;>
      exact ⟨absurd rfl, absurd rfl, fun _ => .inl (by decide), absurd rfl, absurd rfl, absurd rfl⟩
  | shiftAcc v c hi =>
    rcases hi with rfl | rfl | rfl | rfl <;>
      exact ⟨fun _ => .inl (by decide), absurd rfl, fun _ => .inl (by decide), fun _ => .inl (by decide), absurd rfl,
        absurd rfl⟩
  | shiftMemory a v c hd hp hm =>
    rcases hm with hm | hm | hm | hm <;> rw [hm] <;>
      exact ⟨fun _ => .inl (by decide), absurd rfl, fun _ => .inl (by decide), fun _ => .inl (by decide), absurd rfl,
        absurd rfl⟩
  | countAcc v hi | countX v hi | countY v hi =>
    rcases hi with rfl | rfl <;>
      exact ⟨fun _ => .inl (by decide), absurd rfl, fun _ => .inl (by decide), absurd rfl, absurd rfl, absurd rfl⟩
  | countMemory a v hd hp hm =>
    rcases hm with hm | hm <;> rw [hm] <;>
      exact ⟨fun _ => .inl (by decide), absurd rfl, fun _ => .inl (by decide), absurd rfl, absurd rfl, absurd rfl⟩
  | status t hi ht =>
    clear ht
    cases i with
    | nop => cases h; exact ⟨absurd rfl, absurd rfl, absurd rfl, absurd rfl, absurd rfl, absurd rfl⟩
    | clc | sec => cases h; exact ⟨absurd rfl, absurd rfl, absurd rfl, fun _ => .inl (by decide), absurd rfl, absurd rfl⟩
    | sei | cli => cases h; exact ⟨absurd rfl, absurd rfl, absurd rfl, absurd rfl, fun _ => .inl (by decide), absurd rfl⟩
    | sed | cld => cases h; exact ⟨absurd rfl, absurd rfl, absurd rfl, absurd rfl, absurd rfl, fun _ => .inl (by decide)⟩
    | clv => cases h; exact ⟨absurd rfl, fun _ => .inl (by decide), absurd rfl, absurd rfl, absurd rfl, absurd rfl⟩
    | xba =>
      rw [exec_xba] at h
      cases h
      exact ⟨fun _ => .inl (by decide), absurd rfl, fun _ => .inl (by decide), absurd rfl, absurd rfl, absurd rfl⟩
    | xce =>
      rw [exec_xce] at h
      cases h
      exact ⟨absurd rfl, absurd rfl, absurd rfl, fun _ => .inl (by decide), absurd rfl, absurd rfl⟩
    | rep m =>
      rw [exec_rep] at h
      cases h
      exact ⟨fun h => .inr ⟨m, selected_of_ne h, .inl rfl⟩, fun h => .inr ⟨m, selected_of_ne h, .inl rfl⟩,
        fun h => .inr ⟨m, selected_of_ne h, .inl rfl⟩, fun h => .inr ⟨m, selected_of_ne h, .inl rfl⟩,
        fun h => .inr ⟨m, selected_of_ne h, .inl rfl⟩, fun h => .inr ⟨m, selected_of_ne h, .inl rfl⟩⟩
    | sep m =>
      rw [exec_sep] at h
      cases h
      exact ⟨fun h => .inr ⟨m, selected_of_ne h, .inr rfl⟩, fun h => .inr ⟨m, selected_of_ne h, .inr rfl⟩,
        fun h => .inr ⟨m, selected_of_ne h, .inr rfl⟩, fun h => .inr ⟨m, selected_of_ne h, .inr rfl⟩,
        fun h => .inr ⟨m, selected_of_ne h, .inr rfl⟩, fun h => .inr ⟨m, selected_of_ne h, .inr rfl⟩⟩
    | _ => simp [isStatus_iff] at hi

/-- Of the processor-status instructions XBA alone writes `acc`. -/
theorem exec_status_acc {i : Instr} {s t : State} (hi : IsStatus i) (h : exec i s = .next t) :
    i = .xba ∨ t.acc = s.acc := by
  cases i with
  | clc | sec | cld | sed | sei | cli | clv | nop => cases h; exact .inr rfl
  | xba => exact .inl rfl
  | xce => rw [exec_xce] at h; cases h; exact .inr rfl
  | rep m => rw [exec_rep] at h; cases h; exact .inr rfl
  | sep m => rw [exec_sep] at h; cases h; exact .inr rfl
  | _ => simp [isStatus_iff] at hi

/-- Settles O38, effect by effect. -/
theorem onlyTheListedInstructionsWriteAccXY : Obligations.OnlyTheListedInstructionsWriteAccXY := by
  intro i s t h
  cases exec_effect h with
  | logical v hm =>
    rcases hm with hm | hm <;> rw [hm] <;> exact ⟨fun _ => .inl (by decide), absurd rfl, absurd rfl⟩
  | bit | testStore | shiftMemory | countMemory => exact ⟨absurd rfl, absurd rfl, absurd rfl⟩
  | shiftAcc v c hi =>
    rcases hi with rfl | rfl | rfl | rfl <;> exact ⟨fun _ => .inr (by decide), absurd rfl, absurd rfl⟩
  | countAcc v hi => rcases hi with rfl | rfl <;> exact ⟨fun _ => .inr (by decide), absurd rfl, absurd rfl⟩
  | countX v hi => rcases hi with rfl | rfl <;> exact ⟨absurd rfl, fun _ => by decide, absurd rfl⟩
  | countY v hi => rcases hi with rfl | rfl <;> exact ⟨absurd rfl, absurd rfl, fun _ => by decide⟩
  | status t hi ht =>
    obtain ⟨_, hx, hy, _⟩ := exec_status_frame hi ht
    refine ⟨fun hne => ?_, absurd hx, absurd hy⟩
    rcases exec_status_acc hi ht with rfl | hacc
    · exact .inl (by decide)
    · exact absurd hacc hne

/-- A width that REP or SEP changed was selected in native mode, and is what the instruction gives. -/
theorem maskedWidth_ne {e : OpMode} {b : Bool} {new old : Width}
    (h : (if e = .native ∧ b = true then new else old) ≠ old) :
    b = true ∧ e = .native ∧ (if e = .native ∧ b = true then new else old) = new := by
  have hsel := selected_of_ne h
  exact ⟨hsel.2, hsel.1, if_pos hsel⟩

/-- Settles O39: no shared operation writes the mode or a width, and XCE, REP and SEP write them as their rules say. -/
theorem onlyXceRepSepChangeModeAndWidths : Obligations.OnlyXceRepSepChangeModeAndWidths := by
  intro i s t h
  cases exec_effect h with
  | logical | bit | testStore | shiftAcc | shiftMemory | countAcc | countX | countY | countMemory =>
    exact ⟨absurd rfl, absurd rfl, absurd rfl⟩
  | status t hi ht =>
    clear ht
    cases i with
    | clc | sec | cld | sed | sei | cli | clv | nop => cases h; exact ⟨absurd rfl, absurd rfl, absurd rfl⟩
    | xba => rw [exec_xba] at h; cases h; exact ⟨absurd rfl, absurd rfl, absurd rfl⟩
    | xce =>
      rw [exec_xce] at h
      cases h
      refine ⟨fun hne => ⟨rfl, ?_⟩, fun hne => .inr ?_, fun hne => .inr ?_⟩
      · dsimp only at hne
        cases hc : s.carry <;> cases he : s.emuMode <;> simp [hc, he] at hne ⊢
      · obtain ⟨he, hc⟩ := selected_of_ne hne
        exact ⟨rfl, he, by simp only [hc]; rfl, if_pos ⟨he, hc⟩⟩
      · obtain ⟨he, hc⟩ := selected_of_ne hne
        exact ⟨rfl, he, by simp only [hc]; rfl, if_pos ⟨he, hc⟩⟩
    | rep m =>
      rw [exec_rep] at h
      cases h
      refine ⟨absurd rfl, fun hne => .inl ?_, fun hne => .inl ?_⟩
      · obtain ⟨hb, he, hw⟩ := maskedWidth_ne hne
        exact ⟨m, hb, he, .inl ⟨rfl, hw⟩⟩
      · obtain ⟨hb, he, hw⟩ := maskedWidth_ne hne
        exact ⟨m, hb, he, .inl ⟨rfl, hw⟩⟩
    | sep m =>
      rw [exec_sep] at h
      cases h
      refine ⟨absurd rfl, fun hne => .inl ?_, fun hne => .inl ?_⟩
      · obtain ⟨hb, he, hw⟩ := maskedWidth_ne hne
        exact ⟨m, hb, he, .inr ⟨rfl, hw⟩⟩
      · obtain ⟨hb, he, hw⟩ := maskedWidth_ne hne
        exact ⟨m, hb, he, .inr ⟨rfl, hw⟩⟩
    | _ => simp [isStatus_iff] at hi

end Sys2Proof.Machine
end

section
/-! PROOFS. ROL and then the ROR of the same form (45_shift_rotate.md R261). -/

namespace Sys2Proof.Machine

/-! ## The value and the carry come back -/

theorem shifted_rol_toNat {v : Word} {w : Width} (h : v.toNat < rangeOf w) (c : Bool) :
    (shifted .rol w v c).toNat = 2 * v.toNat % rangeOf w + c.toNat := by
  have hc := c.toNat_lt
  rw [shifted, BitVec.toNat_ofNat, Nat.mod_eq_of_lt]
  cases w <;> simp only [rangeOf] <;> omega

/-- The doubled value modulo the range is even, so the carry shifted in is the low bit of the result. -/
theorem shiftedOut_ror_shifted_rol {v : Word} {w : Width} (h : v.toNat < rangeOf w) (c : Bool) :
    shiftedOut .ror w (shifted .rol w v c) = c := by
  rw [shiftedOut, BitVec.getLsbD, Nat.testBit_zero, shifted_rol_toNat h]
  have heven : 2 * v.toNat % rangeOf w % 2 = 0 := by cases w <;> simp only [rangeOf] <;> omega
  cases c <;> simp [Nat.add_mod, heven]

/-- The bit that ROL shifted out is what ROR shifts back in. -/
theorem shifted_ror_shifted_rol {v : Word} {w : Width} (h : v.toNat < rangeOf w) (c : Bool) :
    shifted .ror w (shifted .rol w v c) (shiftedOut .rol w v) = v := by
  have hhalf : (2 * v.toNat % rangeOf w + c.toNat) / 2 = 2 * v.toNat % rangeOf w / 2 := by
    cases w <;> cases c <;> simp only [rangeOf, Bool.toNat_true, Bool.toNat_false] <;> omega
  show BitVec.ofNat 16 ((shifted .rol w v c).toNat / 2 + (shiftedOut .rol w v).toNat * (rangeOf w / 2)) = v
  rw [shifted_rol_toNat h, hhalf, shiftedOut, half_of_double_add_topBit h, BitVec.ofNat_toNat, BitVec.setWidth_eq]

/-! ## The accumulator form -/

theorem rolA_then_rorA (s : State) : ∃ t u, exec .rolA s = .next t ∧ exec .rorA t = .next u ∧
    u.carry = s.carry ∧ rdAcc u = rdAcc s ∧ (∀ b, u.memory.read b = s.memory.read b) ∧
      u = { s with acc := u.acc, memory := u.memory, neg := u.neg, zero := u.zero } := by
  have hrol : exec .rolA s = _ := exec_shift_acc .rol (o := 0) rfl
  generalize ht : afterShift s (wrAcc s (shifted .rol (accW s) (rdAcc s) s.carry)) .rol (rdAcc s) = t at hrol
  have hror : exec .rorA t = _ := exec_shift_acc .ror (o := 0) rfl
  have hread : rdAcc t = shifted .rol (accW s) (rdAcc s) s.carry := by
    rw [← ht]
    exact (rdAcc_wrAcc s _).trans (and_mask_of_lt (shifted_lt (rdAcc_lt s) .rol _))
  have hw : accW t = accW s := by rw [← ht]; rfl
  have hc : t.carry = shiftedOut .rol (accW s) (rdAcc s) := by rw [← ht]
  have hcarry : shiftedOut .ror (accW t) (rdAcc t) = s.carry := by rw [hw, hread, shiftedOut_ror_shifted_rol (rdAcc_lt s)]
  refine ⟨t, _, hrol, hror, hcarry, ?_, fun b => by rw [← ht]; rfl, ?_⟩
  · refine (rdAcc_wrAcc t _).trans ?_
    rw [hw, hread, hc, shifted_ror_shifted_rol (rdAcc_lt s)]
    exact and_mask_of_lt (rdAcc_lt s)
  · rw [afterShift, hcarry, ← ht]
    rfl

/-! ## The memory forms -/

/-- The datum a store leaves at its address is the value stored, if it lies within the width. -/
theorem StoredAt.datumAt {s t : State} {a : Nat} {v : Word} (h : StoredAt s t.memory a v) (hw : accW t = accW s)
    (hv : v.toNat < rangeOf (accW s)) : datumAt t a = v := by
  rw [Machine.datumAt, hw, h.read_self]
  cases he : accW s with
  | bit8 =>
    rw [he] at hv
    have hv : v.toNat < 0x100 := hv
    apply BitVec.eq_of_toNat_eq
    simp only [BitVec.toNat_setWidth]
    omega
  | bit16 =>
    have hhigh : t.memory.read (a + 1) = zext 8 (v >>> 8) := by simpa [he] using h (a + 1)
    rw [hhigh]
    apply BitVec.eq_of_toNat_eq
    rw [← leValue_pair]
    simp only [leValue, BitVec.toNat_setWidth, BitVec.toNat_ushiftRight, Nat.shiftRight_eq_div_pow]
    omega

/-- The datum that stands at its address is stored there. -/
theorem storedAt_datumAt (s : State) (a : Nat) : StoredAt s s.memory a (datumAt s a) := by
  intro b
  unfold Machine.datumAt
  cases he : accW s with
  | bit8 =>
    by_cases hb : b = a
    · rw [if_pos hb, hb]
      dsimp only
      rw [zext, zext, BitVec.setWidth_setWidth_of_le _ (by decide), BitVec.setWidth_eq]
    · rw [if_neg hb, if_neg (by simp)]
  | bit16 =>
    have hpair := leValue_pair (s.memory.read a) (s.memory.read (a + 1))
    simp only [leValue] at hpair
    split
    · subst b
      apply BitVec.eq_of_toNat_eq
      rw [BitVec.toNat_setWidth, ← hpair]
      omega
    split
    · obtain ⟨rfl, _⟩ := ‹_ ∧ _›
      apply BitVec.eq_of_toNat_eq
      rw [BitVec.toNat_setWidth, BitVec.toNat_ushiftRight, Nat.shiftRight_eq_div_pow, ← hpair]
      omega
    · rfl

/-- Storing the old datum over what was stored there gives every byte back. -/
theorem StoredAt.restores {s t : State} {m : Memory} {a : Nat} {v : Word} (h : StoredAt s t.memory a v)
    (hw : accW t = accW s) (h' : StoredAt t m a (Machine.datumAt s a)) (b : Nat) : m.read b = s.memory.read b := by
  have hsecond := h' b
  have hfirst := h b
  have hold := storedAt_datumAt s a b
  rw [hw] at hsecond
  split at hsecond
  · rw [hsecond, hold, if_pos ‹_›]
  split at hsecond
  · rw [hsecond, hold, if_neg ‹_›, if_pos ‹_›]
  · rw [hsecond, hfirst, if_neg ‹_›, if_neg ‹_›]

/-- A memory form of ROL and the ROR that has the same datum in the state after it. -/
theorem rol_then_ror_memory {i j : Instr} {m : AddrMode} {o : Addr} {s : State} {a : Nat}
    (hi : ∀ s, exec i s = finish (execShift .rol m o s)) (hj : ∀ s, exec j s = finish (execShift .ror m o s))
    (src : Source s i o m) (ha : dataAddr s i = some a) (hr : Ready s i)
    (hafter : ∀ mem, let t := afterShift s { s with memory := mem } .rol (datumAt s a)
      Source t j o m ∧ dataAddr t j = some a ∧ Ready t j) :
    ∃ t u, exec i s = .next t ∧ exec j t = .next u ∧ u.carry = s.carry ∧ rdAcc u = rdAcc s ∧
      (∀ b, u.memory.read b = s.memory.read b) ∧
      u = { s with acc := u.acc, memory := u.memory, neg := u.neg, zero := u.zero } := by
  obtain ⟨mem, hrol, hmem⟩ := exec_shift_memory .rol (hi s) src ha hr
  obtain ⟨hsrc', ha', hr'⟩ := hafter mem
  generalize ht : afterShift s { s with memory := mem } .rol (datumAt s a) = t at hrol hsrc' ha' hr'
  have hlt := datumAt_lt s a
  have hw : accW t = accW s := by rw [← ht]; rfl
  have htmem : t.memory = mem := by rw [← ht]
  have hc : t.carry = shiftedOut .rol (accW s) (datumAt s a) := by rw [← ht]
  rw [← htmem] at hmem
  have hdatum : datumAt t a = shifted .rol (accW s) (datumAt s a) s.carry := hmem.datumAt hw (shifted_lt hlt _ _)
  obtain ⟨mem', hror, hmem'⟩ := exec_shift_memory .ror (hj t) hsrc' ha' hr'
  rw [hw, hdatum, hc, shifted_ror_shifted_rol hlt] at hmem'
  have hcarry : shiftedOut .ror (accW t) (datumAt t a) = s.carry := by rw [hw, hdatum, shiftedOut_ror_shifted_rol hlt]
  refine ⟨t, _, hrol, hror, hcarry, ?_, hmem.restores hw hmem', ?_⟩
  · rw [← ht]; rfl
  · rw [afterShift, hcarry, ← ht]

/-- Settles O34: what ROL shifts out ROR shifts back in, on the accumulator or on the datum at the same address. -/
theorem rolThenRorRestores : Obligations.RolThenRorRestores := by
  intro s o16 o8 p hp hr
  fin_cases hp
  · exact rolA_then_rorA s
  all_goals
    exact rol_then_ror_memory (fun _ => rfl) (fun _ => rfl) (source_of_instance s rfl) rfl hr fun _ =>
      ⟨source_of_instance _ rfl, rfl, hr⟩

end Sys2Proof.Machine
end

section
/-! PROOFS. Fetching and stepping: the order of the checks, and which instruction a step runs (48_opcode_protocol.md R358;
60_exceptions.md R370 to R375). -/

namespace Sys2Proof.Machine

/-! ## What fetching answers in each case -/

section
variable {s : State}

theorem fetchInstr_of_absent (h : ¬Present s (effPC s).toNat 1) :
    fetchInstr s = .fault (.memoryBounds (effPC s).toNat) := by
  have hmax : max (effPC s).toNat s.config.memSize = (effPC s).toNat := by
    unfold Present at h
    omega
  simp only [fetchInstr, fetchOpcode, memRead_of_lt (Nat.lt_of_not_le h), hmax]

variable (h1 : Present s (effPC s).toNat 1)
include h1

theorem fetchInstr_of_unclaimed (hd : decodeOpcode (s.memory.read (effPC s).toNat) = none) :
    fetchInstr s = .refused (.unimplementedOpcode (s.memory.read (effPC s).toNat)) := by
  simp only [fetchInstr, fetchOpcode, memRead_of_le h1, ofNat_leValue_one, hd]

variable {f : Form} (hd : decodeOpcode (s.memory.read (effPC s).toNat) = some f)
include hd

theorem fetchInstr_of_straddle (hs : 0x10000 < s.pc.toNat + (1 + f.operandBytes (accW s))) :
    fetchInstr s = .refused .instructionStraddlesBank := by
  simp only [fetchInstr, fetchOpcode, memRead_of_le h1, ofNat_leValue_one, hd, gt_iff_lt, if_pos hs]

variable (hs : s.pc.toNat + (1 + f.operandBytes (accW s)) ≤ 0x10000)
include hs

theorem fetchInstr_of_operand_absent (ho : ¬Present s ((effPC s).toNat + 1) (f.operandBytes (accW s))) :
    fetchInstr s = .fault (.memoryBounds (max ((effPC s).toNat + 1) s.config.memSize)) := by
  simp only [fetchInstr, fetchOpcode, memRead_of_le h1, ofNat_leValue_one, hd, gt_iff_lt, if_neg (Nat.not_lt_of_le hs),
    operandAt_of_absent (operand_ne_zero h1 ho) ho]

theorem fetchInstr_of_operand (ho : Present s ((effPC s).toNat + 1) (f.operandBytes (accW s))) :
    fetchInstr s = .next (f.build (leValue (s.memory.bytes ((effPC s).toNat + 1) (f.operandBytes (accW s))))) := by
  simp only [fetchInstr, fetchOpcode, memRead_of_le h1, ofNat_leValue_one, hd, gt_iff_lt, if_neg (Nat.not_lt_of_le hs),
    operandAt_of_present (.inr ho)]

end

theorem step_of_fetch_fault {s : State} {e : Fault} (h : fetchInstr s = .fault e) : step s = .fault e := by
  simp only [step, h]

theorem step_of_fetch_refused {s : State} {r : Refusal} (h : fetchInstr s = .refused r) : step s = .refused r := by
  simp only [step, h]

/-- Settles O45: each clause is one case of the fetch. -/
theorem stepStopsInTheOrderOfItsChecks : Obligations.StepStopsInTheOrderOfItsChecks := fun _ =>
  ⟨fun h => step_of_fetch_fault (fetchInstr_of_absent h),
    fun h1 => ⟨fun hd => step_of_fetch_refused (fetchInstr_of_unclaimed h1 hd),
      fun _ hd => ⟨fun hs => step_of_fetch_refused (fetchInstr_of_straddle h1 hd hs),
        fun hs ho => step_of_fetch_fault (fetchInstr_of_operand_absent h1 hd hs ho)⟩⟩⟩

/-- Settles O50: of the cases of the fetch two refuse, and no instruction does. -/
theorem stepRefusesOnlyTheTwoNamedCases : Obligations.StepRefusesOnlyTheTwoNamedCases := by
  refine ⟨fun s r h => ?_, exec_ne_refused⟩
  cases hf : fetchInstr s with
  | fault e => rw [step_of_fetch_fault hf] at h; cases h
  | refused q =>
    have hc := fetchInstr_case s
    rw [step_of_fetch_refused hf] at h
    cases h
    rw [hf] at hc
    cases hc with
    | unclaimed _ hd => exact .inl ⟨rfl, hd⟩
    | straddles => exact .inr rfl
  | next i =>
    rw [step_of_fetch hf] at h
    cases hx : exec i s with
    | fault e => rw [hx] at h; cases h
    | refused q => exact absurd hx (exec_ne_refused i s q)
    | next u => rw [hx] at h; cases h

/-! ## Fetching the instruction whose bytes stand at `EffPC` -/

theorem Memory.bytes_add (m : Memory) (a p q : Nat) : m.bytes a (p + q) = m.bytes a p ++ m.bytes (a + p) q := by
  induction p generalizing a with
  | zero => simp [Memory.bytes]
  | succ p ih =>
    rw [Nat.add_right_comm, Memory.bytes, ih, Memory.bytes, List.cons_append, Nat.add_right_comm a, Nat.add_assoc a]

/-- Bytes known from their start: the first, and those after it. -/
theorem Memory.bytes_eq_cons_append {m : Memory} {a k : Nat} {b : Byte} {bs rest : List Byte}
    (h : m.bytes a k = b :: (bs ++ rest)) : m.read a = b ∧ m.bytes (a + 1) bs.length = bs := by
  have hk : k = bs.length + rest.length + 1 := by
    rw [← Memory.bytes_length m a k, h, List.length_cons, List.length_append]
  rw [hk, Memory.bytes, Memory.bytes_add] at h
  obtain ⟨hb, htail⟩ := List.cons.inj h
  exact ⟨hb, (List.append_inj htail (Memory.bytes_length _ _ _)).1⟩

/-- If the bytes from `EffPC` decode to an instruction that is in range and inside its bank, it is the one fetched. -/
theorem fetchInstr_of_decode {s : State} {i : Instr} {k : Nat} {rest : List Byte}
    (h : decode (accW s) (s.memory.bytes (effPC s).toNat k) = .ok (i, rest)) (hf : Fetchable s i) :
    fetchInstr s = .next i := by
  obtain ⟨b, f, bs, hd, hlen, hbytes, rfl⟩ := decode_ok_iff.1 h
  obtain ⟨rfl, htail⟩ := Memory.bytes_eq_cons_append hbytes
  have hlt : leValue bs < 2 ^ (8 * f.operandBytes (accW s)) := hlen ▸ leValue_lt bs
  obtain ⟨hpresent, hbank⟩ := hf
  rw [byteSize_build hd s hlt] at hpresent hbank
  have h1 : Present s (effPC s).toNat 1 := by
    unfold Present at *
    omega
  have ho : Present s ((effPC s).toNat + 1) (f.operandBytes (accW s)) := by
    unfold Present at *
    omega
  rw [fetchInstr_of_operand h1 hd hbank ho, ← hlen, htail]

/-- Settles O44: the instruction decoded is the one fetched. -/
theorem stepRunsTheDecodedInstruction : Obligations.StepRunsTheDecodedInstruction := by
  intro s i rest h hf
  rw [step_of_fetch (fetchInstr_of_decode h hf)]
  cases exec i s <;> rfl

/-- Settles O51: an encoding decodes to its instruction, which completes where its bytes exist. -/
theorem stepCompletesOnEveryClaimedInstruction : Obligations.StepCompletesOnEveryClaimedInstruction := by
  intro s i hwf hbytes hf hr
  have hdec : decode (accW s) (s.memory.bytes (effPC s).toNat (encode (accW s) i).length) = .ok (i, []) := by
    rw [hbytes]
    simpa using decodeAfterEncode (accW s) i [] hwf
  obtain ⟨t, ht⟩ := exec_of_ready hr
  exact ⟨_, by rw [step_of_fetch (fetchInstr_of_decode hdec hf), ht]⟩

/-- Settles O46: the bytes fetched are an encoding, and its length is the size `pc` moves by. -/
theorem stepAdvancesPcInsideItsBank : Obligations.StepAdvancesPcInsideItsBank := by
  intro s t h
  obtain ⟨i, u, hi, hu, rfl⟩ := step_next h
  obtain ⟨-, -, hbytes⟩ := fetchInstr_next hi
  obtain ⟨hpc, hkeep⟩ := (exec_effect hu).keepsFixed
  refine ⟨i, ?_, ?_, hkeep.programBank, ?_⟩
  · rw [encode_length, hbytes]
  · rw [encode_length, BitVec.toNat_add, BitVec.toNat_ofNat, Nat.add_mod_mod]
  · rw [hu, ← hpc]

/-! ## Faults where all of memory exists -/

theorem directAddr_lt (s : State) (o8 : Byte) : directAddr s o8 < 0x1000000 :=
  lt_trans (Nat.mod_lt _ (by decide)) (by decide)

theorem stackAddr_lt (s : State) (o8 : Byte) : stackAddr s o8 < 0x1000000 :=
  lt_trans (Nat.mod_lt _ (by decide)) (by decide)

theorem plusX_lt (s : State) (a : Nat) : plusX s a < 0x1000000 := Nat.mod_lt _ (by decide)

/-- A pointer starts at a 24-bit address. -/
theorem pointerOf_lt {s : State} {i : Instr} {p : Nat × Nat} (h : pointerOf s i = some p) : p.1 < 0x1000000 := by
  cases i with
  | oraDpInd o | oraDpIndY o | andDpInd o | andDpIndY o | oraDpIndLong o | oraDpIndLongY o | andDpIndLong o
  | andDpIndLongY o => cases h; exact directAddr_lt s o
  | oraDpXInd o | andDpXInd o => cases h; exact plusX_lt s _
  | oraSrIndY o | andSrIndY o => cases h; exact stackAddr_lt s o
  | _ => cases h

/-- A datum whose pointer is there starts at a 24-bit address. -/
theorem dataAddr_lt {s : State} {i : Instr} {a : Nat} (hp : ∀ p ∈ pointerOf s i, Present s p.1 p.2)
    (ha : dataAddr s i = some a) : a < 0x1000000 := by
  cases hi : instanceOf i with
  | status mn n k mb => cases i <;> cases hi <;> cases ha
  | addressed mn m o mods pre st =>
    cases source_of_instance s hi with
    | immediate _ hn => rw [hn] at ha; cases ha
    | register _ _ hn => rw [hn] at ha; cases ha
    | memory m b _ _ _ hd haddr =>
      obtain rfl : b = a := Option.some.inj (hd.symm.trans ha)
      have his : AddressIs m o s b := by
        rcases haddr with ⟨_, his⟩ | ⟨p, hsome, his, _⟩
        · exact his
        · exact his (hp p hsome)
      obtain ⟨e, _, rfl⟩ := his
      exact e.isLt

/-- With all of memory present, the first byte that can be missing is the one past its top. -/
theorem firstMissing_of_full {s : State} {i : Instr} (hfull : s.config.memSize = 0x1000000) (h : ¬Ready s i) :
    firstMissing s i = 0x1000000 := by
  by_cases hp : ∀ p ∈ pointerOf s i, Present s p.1 p.2
  · obtain ⟨a, ha, _⟩ : ∃ a, dataAddr s i = some a ∧ ¬Present s a (accW s).nbytes := by
      by_contra hn
      push Not at hn
      exact h ⟨hp, hn⟩
    have hlt := dataAddr_lt hp ha
    rw [firstMissing_of_data hp ha, hfull]
    omega
  · push Not at hp
    obtain ⟨p, hsome, hmiss⟩ := hp
    have hlt := pointerOf_lt hsome
    rw [firstMissing_of_pointer hsome (Nat.not_le_of_lt hmiss), hfull]
    omega

/-- With all of memory present no fetch faults: an instruction inside its bank ends inside memory. -/
theorem fetchInstr_ne_fault {s : State} (hfull : s.config.memSize = 0x1000000) (e : Fault) : fetchInstr s ≠ .fault e := by
  intro hf
  have hc := fetchInstr_case s
  have hpc := effPC_toNat s
  have hbank := s.programBank.isLt
  unfold inBank at hpc
  rw [hf] at hc
  cases hc with
  | noOpcode h =>
    have := s.pc.isLt
    unfold Present at h
    omega
  | noOperand f _ _ hs ho =>
    unfold Present at ho
    omega

/-- Settles O49: the fetch does not fault, and an instruction faults on the byte past the top. -/
theorem fullMemoryFaultsOnlyAtItsTop : Obligations.FullMemoryFaultsOnlyAtItsTop := by
  refine fun s hfull => ⟨fun e h => ?_, fetchInstr_ne_fault hfull⟩
  cases hf : fetchInstr s with
  | fault q => exact absurd hf (fetchInstr_ne_fault hfull q)
  | refused r => rw [step_of_fetch_refused hf] at h; cases h
  | next i =>
    rw [step_of_fetch hf] at h
    rcases exec_cases i s with ⟨_, t, hx⟩ | ⟨hn, hx⟩ <;> rw [hx] at h <;> cases h
    rw [firstMissing_of_full hfull hn]

end Sys2Proof.Machine
end

section
/-! PROOFS. The cycle count of every instruction (42_cycle_calculator.md section 3). -/

namespace Sys2Proof.Machine

/-! ## What each modifier of the tables adds -/

/-- 1 where the observed accumulator is 16-bit. -/
def wideAcc (s : State) : Nat :=
  match accW s with
  | .bit8 => 0
  | .bit16 => 1

/-- 1 where the low byte of D is not 0. -/
def lowDirect (s : State) : Nat := if s.directPage.toNat % 0x100 = 0 then 0 else 1

/-- 1 where the index moves the absolute address `o` out of its page. -/
def crossing (s : State) (o : Word) (r : IndexReg) : Nat :=
  if inBank s.dataBank o.toNat / 0x100 = (indexed (absoluteOffset s.dataBank o) s r).toNat / 0x100 then 0 else 1

theorem wideAcc_le (s : State) : wideAcc s ≤ 1 := by unfold wideAcc; split <;> decide

theorem lowDirect_le (s : State) : lowDirect s ≤ 1 := by unfold lowDirect; split <;> decide

theorem crossing_le (s : State) (o : Word) (r : IndexReg) : crossing s o r ≤ 1 := by unfold crossing; split <;> decide

section
variable (s : State) (ms : List CycleMod)

@[simp] theorem calcCycles_nil : calcCycles s [] = 0 := rfl

@[simp] theorem calcCycles_constant (k : Int32) : calcCycles s (.constant k :: ms) = k.toInt + calcCycles s ms := rfl

/-- A modifier by the condition under which it adds nothing. -/
theorem calcCycles_cons_of_iff {m : CycleMod} {p : Prop} [Decidable p] (h : m.holds s = true ↔ ¬p) :
    calcCycles s (m :: ms) = (if p then 0 else m.cycles.toInt) + calcCycles s ms := by
  simp only [calcCycles, h, ite_not]

theorem calcCycles_accIs16Bit (k : Int32) :
    calcCycles s (.accIs16Bit k :: ms) = k.toInt * wideAcc s + calcCycles s ms := by
  have hiff : (CycleMod.accIs16Bit k).holds s = true ↔ ¬accW s = .bit8 := by
    rw [CycleMod.holds, accIs16Bit_iff]
    rcases accW_cases s with h | h <;> simp [h]
  rw [calcCycles_cons_of_iff s ms hiff, wideAcc]
  rcases accW_cases s with h | h <;> simp [h, CycleMod.cycles]

@[simp] theorem calcCycles_acc16 : calcCycles s (acc16 :: ms) = wideAcc s + calcCycles s ms :=
  (calcCycles_accIs16Bit s ms 1).trans (by rw [show Int32.toInt 1 = 1 from rfl, one_mul])

@[simp] theorem calcCycles_accIs16Bit_two :
    calcCycles s (.accIs16Bit 2 :: ms) = 2 * wideAcc s + calcCycles s ms := calcCycles_accIs16Bit s ms 2

@[simp] theorem calcCycles_dpnz : calcCycles s (dpnz :: ms) = lowDirect s + calcCycles s ms := by
  rw [calcCycles_cons_of_iff (m := dpnz) s ms (lowDirectPage_iff s.directPage), lowDirect]
  split <;> rfl

@[simp] theorem calcCycles_checkPageBoundary (o : Word) (r : IndexReg) :
    calcCycles s (.checkPageBoundary 1 (absoluteOffset s.dataBank o) r :: ms) = crossing s o r + calcCycles s ms := by
  rw [calcCycles_cons_of_iff s ms (checkPageBoundary_holds_iff 1 _ r s), crossing, absoluteOffset_toNat]
  split <;> rfl

theorem crossing_x (o : Word) : crossing s o .x =
    if inBank s.dataBank o.toNat / 0x100 = plusX s (inBank s.dataBank o.toNat) / 0x100 then 0 else 1 := by
  rw [crossing, indexed_x_toNat, absoluteOffset_toNat]

theorem crossing_y (o : Word) : crossing s o .y =
    if inBank s.dataBank o.toNat / 0x100 = plusY s (inBank s.dataBank o.toNat) / 0x100 then 0 else 1 := by
  rw [crossing, indexed_y_toNat, absoluteOffset_toNat]

end

/-! ## The sums of the tables -/

section
variable {i : Instr} {mn : String} {m : AddrMode} {o : Addr} {st : Bool} {k : Int32} {n : Nat}

theorem totalCycles_of_mods {mods : List CycleMod} (h : instanceOf i = .addressed mn m o mods none st) {s : State}
    (hn : calcCycles s mods = n) : totalCycles i s = n := by
  rw [totalCycles, h, Instance.totalCycles, hn, Int.toNat_natCast]

variable (hk : k.toInt = n) (s : State)
include hk

theorem totalCycles_const (h : instanceOf i = .addressed mn m o [.constant k] none st) : totalCycles i s = n :=
  totalCycles_of_mods h (by simp [hk])

theorem totalCycles_acc (h : instanceOf i = .addressed mn m o [.constant k, acc16] none st) :
    totalCycles i s = n + wideAcc s := totalCycles_of_mods h (by simp [hk])

theorem totalCycles_acc_direct (h : instanceOf i = .addressed mn m o [.constant k, acc16, dpnz] none st) :
    totalCycles i s = n + wideAcc s + lowDirect s := totalCycles_of_mods h (by simp [hk, add_assoc])

theorem totalCycles_acc2 (h : instanceOf i = .addressed mn m o [.constant k, .accIs16Bit 2] none st) :
    totalCycles i s = n + 2 * wideAcc s := totalCycles_of_mods h (by simp [hk])

theorem totalCycles_acc2_direct (h : instanceOf i = .addressed mn m o [.constant k, .accIs16Bit 2, dpnz] none st) :
    totalCycles i s = n + 2 * wideAcc s + lowDirect s := totalCycles_of_mods h (by simp [hk, add_assoc])

theorem totalCycles_crossing {o : Word} {r : IndexReg}
    (h : instanceOf i = .addressed mn m (zext 24 o) [.constant k, acc16] (some r) st) :
    totalCycles i s = n + wideAcc s + crossing s o r := by
  have ho : zext 16 (zext 24 o) = o := by
    rw [zext, zext, BitVec.setWidth_setWidth_of_le _ (by decide), BitVec.setWidth_eq]
  simp only [totalCycles, h, Instance.totalCycles, ho, calcCycles_checkPageBoundary, calcCycles_constant, hk,
    calcCycles_acc16, calcCycles_nil]
  omega

end

/-! ## The bounds -/

/-- The least that a modifier of the tables adds: a constant counts in every state. -/
def CycleMod.least : CycleMod → Int
  | .constant n => n.toInt
  | _ => 0

theorem calcCycles_bounds (s : State) {ms : List CycleMod} (h : ∀ m ∈ ms, 0 ≤ m.cycles.toInt) :
    (ms.map CycleMod.least).sum ≤ calcCycles s ms ∧ calcCycles s ms ≤ (ms.map fun m => m.cycles.toInt).sum := by
  induction ms with
  | nil => exact ⟨le_refl _, le_refl _⟩
  | cons m ms ih =>
    obtain ⟨hlo, hhi⟩ := ih fun x hx => h x (List.mem_cons_of_mem _ hx)
    have hm := h m List.mem_cons_self
    have hleast : m.least ≤ (if m.holds s then m.cycles.toInt else 0) := by
      cases m with
      | constant n => exact le_refl _
      | _ =>
        simp only [CycleMod.least]
        split
        · exact hm
        · exact le_refl _
    have hmost : (if m.holds s then m.cycles.toInt else 0) ≤ m.cycles.toInt := by
      split
      · exact le_refl _
      · exact hm
    simp only [List.map_cons, List.sum_cons, calcCycles]
    omega

theorem totalCycles_bounds_of_mods {i : Instr} {mn : String} {m : AddrMode} {o : Addr} {st : Bool}
    {mods : List CycleMod} (h : instanceOf i = .addressed mn m o mods none st) (hpos : ∀ m ∈ mods, 0 ≤ m.cycles.toInt)
    (hsum : 2 ≤ (mods.map CycleMod.least).sum ∧ (mods.map fun m => m.cycles.toInt).sum ≤ 9) (s : State) :
    2 ≤ totalCycles i s ∧ totalCycles i s ≤ 9 := by
  obtain ⟨hlo, hhi⟩ := calcCycles_bounds s hpos
  rw [totalCycles, h, Instance.totalCycles]
  omega

theorem totalCycles_bounds (i : Instr) (s : State) : 2 ≤ totalCycles i s ∧ totalCycles i s ≤ 9 := by
  have hw := wideAcc_le s
  cases i with
  | oraAbsX o | andAbsX o | bitAbsX o =>
    have hc := crossing_le s o .x
    rw [totalCycles_crossing (n := 4) rfl s rfl]
    omega
  | oraAbsY o | andAbsY o =>
    have hc := crossing_le s o .y
    rw [totalCycles_crossing (n := 4) rfl s rfl]
    omega
  | clc | sec | cld | sed | sei | cli | clv | nop | xba | xce | rep | sep =>
    rw [totalCycles_of_status rfl]
    decide
  | _ => exact totalCycles_bounds_of_mods rfl (by decide) (by decide) s

/-- Settles O53: each row from the sum of its modifiers, and the bounds from the least and the most that they add. -/
theorem cycleFormulaOfEveryInstruction : Obligations.CycleFormulaOfEveryInstruction := by
  intro s imm o16 o8 o24 m16 dl px py
  have hx : px o16 = crossing s o16 .x := (crossing_x s o16).symm
  have hy : py o16 = crossing s o16 .y := (crossing_y s o16).symm
  rw [hx, hy]
  refine ⟨?_, ?_, ?_, ?_, ?_, ?_, ?_, ?_, ?_, ?_, ?_, ?_, ?_, ?_, ?_, ?_, ?_, ?_, ?_, ?_, ?_, ?_, ?_, ?_, ?_, ?_, ?_, ?_,
    ?_, ?_, ?_, ?_, ?_, ?_, fun i => totalCycles_bounds i s⟩ <;> intro i hi
  · fin_cases hi <;> exact totalCycles_acc rfl s rfl
  · fin_cases hi <;> exact totalCycles_acc rfl s rfl
  · fin_cases hi <;> exact totalCycles_acc rfl s rfl
  · fin_cases hi <;> exact totalCycles_acc_direct rfl s rfl
  · fin_cases hi <;> exact totalCycles_acc_direct rfl s rfl
  · fin_cases hi <;> exact totalCycles_acc_direct rfl s rfl
  · fin_cases hi <;> exact totalCycles_crossing rfl s rfl
  · fin_cases hi <;> exact totalCycles_acc rfl s rfl
  · fin_cases hi <;> exact totalCycles_crossing rfl s rfl
  · fin_cases hi <;> exact totalCycles_acc_direct rfl s rfl
  · fin_cases hi <;> exact totalCycles_acc_direct rfl s rfl
  · fin_cases hi <;> exact totalCycles_acc_direct rfl s rfl
  · fin_cases hi <;> exact totalCycles_acc_direct rfl s rfl
  · fin_cases hi <;> exact totalCycles_acc rfl s rfl
  · fin_cases hi <;> exact totalCycles_acc rfl s rfl
  · rw [List.mem_singleton.1 hi]; exact totalCycles_acc rfl s rfl
  · rw [List.mem_singleton.1 hi]; exact totalCycles_acc rfl s rfl
  · rw [List.mem_singleton.1 hi]; exact totalCycles_acc_direct rfl s rfl
  · rw [List.mem_singleton.1 hi]; exact totalCycles_crossing rfl s rfl
  · rw [List.mem_singleton.1 hi]; exact totalCycles_acc_direct rfl s rfl
  · fin_cases hi <;> exact totalCycles_acc2 rfl s rfl
  · fin_cases hi <;> exact totalCycles_acc2_direct rfl s rfl
  · fin_cases hi <;> exact totalCycles_const rfl s rfl
  · fin_cases hi <;> exact totalCycles_acc_direct rfl s rfl
  · fin_cases hi <;> exact totalCycles_acc2 rfl s rfl
  · fin_cases hi <;> exact totalCycles_acc_direct rfl s rfl
  · fin_cases hi <;> exact totalCycles_acc2 rfl s rfl
  · fin_cases hi <;> exact totalCycles_const rfl s rfl
  · fin_cases hi <;> exact totalCycles_acc2 rfl s rfl
  · fin_cases hi <;> exact totalCycles_acc2_direct rfl s rfl
  · fin_cases hi <;> exact totalCycles_acc2 rfl s rfl
  · fin_cases hi <;> exact totalCycles_acc2_direct rfl s rfl
  · have hsplit : i ∈ [Instr.inx, .iny, .dex, .dey] ++ [.clc, .sec, .cld, .sed, .sei, .cli, .clv, .nop, .xce] := hi
    rcases List.mem_append.1 hsplit with hi | hi
    · fin_cases hi <;> exact totalCycles_const rfl s rfl
    · fin_cases hi <;> exact totalCycles_of_status rfl s
  · fin_cases hi <;> exact totalCycles_of_status rfl s

end Sys2Proof.Machine
end

section
/-! PROOFS. The step with its cycle count, and runs (48_opcode_protocol.md R358 to R360). -/

namespace Sys2Proof.Machine

/-! ## The step and the step with its count -/

theorem stepReport_next_iff {s t : State} {k : Nat} : stepReport s = .next (t, k) ↔
    step s = .next t ∧ ∃ i, fetchInstr s = .next i ∧ k = totalCycles i s := by
  refine ⟨stepReport_next, ?_⟩
  rintro ⟨hstep, i, hi, rfl⟩
  obtain ⟨j, u, hj, hu, rfl⟩ := step_next hstep
  obtain rfl : j = i := Host.Outcome.next.inj (hj.symm.trans hi)
  rw [stepReport_eq, hi]
  simp only [hu]
  rfl

theorem stepReport_fault_iff {s : State} {e : Fault} : stepReport s = .fault e ↔ step s = .fault e := by
  rw [stepReport_eq, step]
  cases fetchInstr s with
  | fault q => simp
  | refused r => simp
  | next i => cases hx : exec i s <;> simp [hx]

theorem stepReport_refused_iff {s : State} {r : Refusal} : stepReport s = .refused r ↔ step s = .refused r := by
  rw [stepReport_eq, step]
  cases fetchInstr s with
  | fault q => simp
  | refused r => simp
  | next i => cases hx : exec i s <;> simp [hx]

/-! ## Runs, one step at a time -/

/-- What holds of a run of no step, of a run that stops at its first step, and of a run by one completed step more, holds of
every run. -/
theorem runReport_induction {P : Nat → State → RunReport → Prop} (hzero : ∀ s, P 0 s ⟨s, [], .caller⟩)
    (hfault : ∀ n s e, stepReport s = .fault e → P (n + 1) s ⟨s, [], .fault e⟩)
    (hrefused : ∀ n s q, stepReport s = .refused q → P (n + 1) s ⟨s, [], .refused q⟩)
    (hnext : ∀ n s t k r, stepReport s = .next (t, k) → P n t r → P (n + 1) s (r.after k)) (n : Nat) (s : State) :
    P n s (runReport n s) := by
  induction n generalizing s with
  | zero => exact hzero s
  | succ n ih =>
    cases h : stepReport s with
    | fault e => rw [runReport_of_fault h]; exact hfault n s e h
    | refused q => rw [runReport_of_refused h]; exact hrefused n s q h
    | next p => rw [runReport_of_next h]; exact hnext n s p.1 p.2 _ h (ih p.1)

/-- A run that its bound ended goes on from its final state. -/
theorem runReport_add_of_caller (m n : Nat) (s : State) (h : (runReport m s).ending = .caller) :
    runReport (m + n) s = { runReport n (runReport m s).state with
      counts := (runReport m s).counts ++ (runReport n (runReport m s).state).counts } := by
  revert h
  refine runReport_induction (P := fun m s r => r.ending = .caller → runReport (m + n) s =
    { runReport n r.state with counts := r.counts ++ (runReport n r.state).counts }) ?_ ?_ ?_ ?_ m s
  · intro s _
    rw [Nat.zero_add, List.nil_append]
  · intro m s e _ h
    cases h
  · intro m s q _ h
    cases h
  · intro m s t k r hstep ih h
    rw [Nat.add_right_comm, runReport_of_next hstep, ih h]
    rfl

/-- A run that an outcome ended is not changed by a larger bound. -/
theorem runReport_add_of_stopped (m n : Nat) (s : State) (h : (runReport m s).ending ≠ .caller) :
    runReport (m + n) s = runReport m s := by
  revert h
  refine runReport_induction (P := fun m s r => r.ending ≠ .caller → runReport (m + n) s = r) ?_ ?_ ?_ ?_ m s
  · intro s h
    exact absurd rfl h
  · intro m s e hstep _
    rw [Nat.add_right_comm, runReport_of_fault hstep]
  · intro m s q hstep _
    rw [Nat.add_right_comm, runReport_of_refused hstep]
  · intro m s t k r hstep ih h
    rw [Nat.add_right_comm, runReport_of_next hstep, ih h]

/-- Settles O55: the two steps stop alike and complete alike, and runs compose step by step. -/
theorem reportedStepsAreStepsWithTheirCycles : Obligations.ReportedStepsAreStepsWithTheirCycles := by
  refine ⟨fun s t k => stepReport_next_iff, fun s e => stepReport_fault_iff, fun s r => stepReport_refused_iff,
    fun m n s => ⟨fun h => ?_, runReport_add_of_stopped m n s⟩⟩
  have hrun := runReport_add_of_caller m n s h
  refine ⟨hrun, ?_⟩
  rw [hrun, RunReport.total, RunReport.total, RunReport.total, List.sum_append]

/-! ## What a run reports -/

theorem runReport_counts_length (n : Nat) (s : State) : (runReport n s).counts.length ≤ n ∧
    ((runReport n s).ending = .caller ↔ (runReport n s).counts.length = n) := by
  refine runReport_induction (P := fun n _ r => r.counts.length ≤ n ∧ (r.ending = .caller ↔ r.counts.length = n))
    ?_ ?_ ?_ ?_ n s
  · intro s
    exact ⟨le_refl _, by simp⟩
  · intro n s e _
    exact ⟨Nat.zero_le _, by simp⟩
  · intro n s q _
    exact ⟨Nat.zero_le _, by simp⟩
  · intro n s t k r _ ih
    simpa using ih

theorem runReport_ending_step (n : Nat) (s : State) :
    (∀ e, (runReport n s).ending = .fault e → step (runReport n s).state = .fault e) ∧
      ∀ q, (runReport n s).ending = .refused q → step (runReport n s).state = .refused q := by
  refine runReport_induction (P := fun _ _ r => (∀ e, r.ending = .fault e → step r.state = .fault e) ∧
    ∀ q, r.ending = .refused q → step r.state = .refused q) ?_ ?_ ?_ ?_ n s
  · intro s
    exact ⟨nofun, nofun⟩
  · intro n s e hstep
    refine ⟨fun e' h => ?_, nofun⟩
    cases h
    exact stepReport_fault_iff.1 hstep
  · intro n s q hstep
    refine ⟨nofun, fun q' h => ?_⟩
    cases h
    exact stepReport_refused_iff.1 hstep
  · intro n s t k r _ ih
    exact ih

/-- The completed steps alone give the state and the counts. -/
theorem runReport_completed_steps (n : Nat) (s : State) :
    runReport (runReport n s).counts.length s = { runReport n s with ending := .caller } := by
  refine runReport_induction (P := fun _ s r => runReport r.counts.length s = { r with ending := .caller })
    ?_ ?_ ?_ ?_ n s
  · intro s
    rfl
  · intro n s e _
    rfl
  · intro n s q _
    rfl
  · intro n s t k r hstep ih
    rw [RunReport.after_counts, List.length_cons, runReport_of_next hstep, ih]
    rfl

theorem runReport_counts_bounds (n : Nat) (s : State) : ∀ k ∈ (runReport n s).counts, 2 ≤ k ∧ k ≤ 9 := by
  refine runReport_induction (P := fun _ _ r => ∀ k ∈ r.counts, 2 ≤ k ∧ k ≤ 9) ?_ ?_ ?_ ?_ n s
  · intro s
    exact nofun
  · intro n s e _
    exact nofun
  · intro n s q _
    exact nofun
  · intro n s t k r hstep ih x hx
    obtain ⟨_, i, _, rfl⟩ := stepReport_next hstep
    rcases List.mem_cons.1 hx with rfl | hx
    · exact totalCycles_bounds i s
    · exact ih x hx

/-- A run keeps what every step keeps. -/
theorem runReport_keeps (n : Nat) (s : State) :
    KeepsFixed s (runReport n s).state ∧ (s.Inv → (runReport n s).state.Inv) := by
  refine runReport_induction (P := fun _ s r => KeepsFixed s r.state ∧ (s.Inv → r.state.Inv)) ?_ ?_ ?_ ?_ n s
  · intro s
    exact ⟨.refl s, id⟩
  · intro n s e _
    exact ⟨.refl s, id⟩
  · intro n s q _
    exact ⟨.refl s, id⟩
  · intro n s t k r hrep ih
    obtain ⟨hstep, _⟩ := stepReport_next hrep
    exact ⟨(step_keepsFixed hstep).trans ih.1, fun h => ih.2 (step_keeps_inv h hstep)⟩

/-- Settles O57, clause by clause along the run. -/
theorem runsReportStateCountsAndOutcome : Obligations.RunsReportStateCountsAndOutcome := by
  intro n s r
  obtain ⟨hle, hcaller⟩ := runReport_counts_length n s
  obtain ⟨hfault, hrefused⟩ := runReport_ending_step n s
  obtain ⟨hkeep, hinv⟩ := runReport_keeps n s
  exact ⟨hcaller, hle, hfault, hrefused, runReport_completed_steps n s, runReport_counts_bounds n s,
    hkeep.programBank, hkeep.dataBank, hkeep.directPage, hkeep.stackPtr, hkeep.config, hinv⟩

end Sys2Proof.Machine
end

section
/-! PROOFS. The interface functions on an opcode row (48_opcode_protocol.md R350 to R355). -/

namespace Sys2Proof.Machine

/-- An instruction built from a claimed byte has a `pre_index_mode` exactly when the byte is one of the five of R352. -/
theorem preIndex_build_zero {b : Byte} {f : Form} (h : decodeOpcode b = some f) :
    (instanceOf (f.build 0)).preIndex.isSome = true ↔ b ∈ ([0x1D, 0x3D, 0x3C, 0x19, 0x39] : List Byte) :=
  preIndex_isSome_iff_byte _ .bit8 (decodeOpcode_encodes h .bit8 0 (Nat.two_pow_pos _)).1

/-- The operand bytes of a row and the opcode byte are the encoding of the instruction they build. -/
theorem encode_build_bytes {b : Byte} {f : Form} (h : decodeOpcode b = some f) (w : Width) (m : Memory) (a : Nat) :
    encode w (f.build (leValue (m.bytes a (f.operandBytes w)))) = b :: m.bytes a (f.operandBytes w) := by
  have hlt := leValue_lt (m.bytes a (f.operandBytes w))
  have hback := leBytes_leValue (m.bytes a (f.operandBytes w))
  rw [Memory.bytes_length] at hlt hback
  rw [(decodeOpcode_encodes h w _ hlt).1, hback]

/-- Settles O58: with its operand there each call is the model's on the instruction built, and without it only the
rows with a `pre_index_mode` stop the cycle count. -/
theorem interfaceCallsReadTheirOperands : Obligations.InterfaceCallsReadTheirOperands := by
  intro s b f hd n a stop
  refine ⟨byteSizeOf_eq hd s, fun hpresent => ?_, fun hn habsent => ?_, fun hb v => ?_⟩
  · have hv := operandOf_of_present hpresent
    exact ⟨_, encode_build_bytes hd (accW s) s.memory a, totalCyclesOf_of_operand hd hv, executeOf_of_operand hv,
      by rw [disasmOf_eq, hv]; rfl⟩
  · have hv : operandOf f s = .error stop := operandOf_of_absent hn habsent
    refine ⟨executeOf_of_error hv, by rw [disasmOf_eq, hv]; rfl, fun hb => ?_⟩
    obtain ⟨r, hr⟩ := Option.isSome_iff_exists.1 ((preIndex_build_zero hd).2 hb)
    rw [totalCyclesOf_of_preIndex hr, hv]
    rfl
  · have hnone : (instanceOf (f.build 0)).preIndex = none := by
      rw [← Option.not_isSome_iff_eq_none, preIndex_build_zero hd]
      exact hb
    rw [totalCyclesOf_of_none hnone, (decodeOpcode_uniform hd v).2 hnone]

end Sys2Proof.Machine
end

section
/-! PROOFS. The accesses of an instruction and the history of a step (20_memory.md R74). -/

namespace Sys2Proof.Machine

/-! ## Where the accesses lie -/

/-- An instruction's own accesses lie in its pointer and datum, so below `MEM_SIZE`. -/
theorem instance_accesses_lt {i : Instr} {s : State} (hr : Ready s i) {x : Access} (hx : x ∈ (instanceOf i).accesses s) :
    x.addr < s.config.memSize := by
  obtain ⟨hpointer, hdata⟩ := hr
  have hin {k : AccessKind} {a n : Nat} (hp : Present s a n) (hm : x ∈ accessRun k a n) : x.addr < s.config.memSize := by
    obtain ⟨_, _, hlt⟩ := mem_accessRun.1 hm
    exact lt_of_lt_of_le hlt hp
  rw [accesses_eq ⟨hpointer, hdata⟩, pointerReads_eq] at hx
  rcases List.mem_append.1 hx with hx | hx
  · cases hp : pointerOf s i with
    | none => simp [hp] at hx
    | some p => rw [hp] at hx; exact hin (hpointer p hp) hx
  · cases ha : dataAddr s i with
    | none => simp [ha] at hx
    | some a =>
      rw [ha] at hx
      rcases List.mem_append.1 hx with hx | hx
      · exact hin (hdata a ha) hx
      · split at hx
        · exact hin (hdata a ha) hx
        · simp at hx

/-- The bytes of a fetched instruction lie below `MEM_SIZE`. -/
theorem instruction_reads_lt {i : Instr} {s : State} (hf : Fetchable s i) {x : Access}
    (hx : x ∈ accessRun .read (effPC s).toNat (byteSize i s)) : x.addr < s.config.memSize := by
  obtain ⟨_, _, hlt⟩ := mem_accessRun.1 hx
  exact lt_of_lt_of_le hlt hf.1

theorem accesses_lt {i : Instr} {s t : State} (hf : fetchInstr s = .next i) (h : exec i s = .next t) {x : Access}
    (hx : x ∈ accesses i s) : x.addr < s.config.memSize := by
  rcases List.mem_append.1 hx with hx | hx
  · exact instruction_reads_lt (fetchInstr_next hf).1 hx
  · exact instance_accesses_lt (ready_of_next h) hx

/-- Settles O56: the accesses lie in the instruction, its pointer and its datum, and a byte that changed is one of the
datum's that the trace writes. -/
theorem accessTraceAccountsForMemory : Obligations.AccessTraceAccountsForMemory := by
  refine fun i s t hf h => ⟨fun x hx => accesses_lt hf h hx, fun b hb => ?_⟩
  rcases (exec_effect h).memory_writer with hkept | ⟨hmn, a, v, ha, hmem⟩
  · exact absurd (by rw [hkept]) hb
  · obtain ⟨hlo, hhi⟩ := read_stored_ne (hmem ▸ hb)
    have hwrite : (⟨.write, b⟩ : Access) ∈ accessRun .write a (accW s).nbytes := mem_accessRun.2 ⟨rfl, hlo, hhi⟩
    rw [accesses, accesses_eq (ready_of_next h), ha, Option.elim, if_pos hmn]
    simp only [List.mem_append]
    exact .inr (.inr (.inr hwrite))

/-! ## The history of a step -/

/-- Reads (1) to (3) of R74: the instruction's bytes and its pointer's. -/
theorem leadingReads_eq (i : Instr) (s : State) : leadingReads i s =
    accessRun .read (effPC s).toNat (byteSize i s) ++ (pointerOf s i).elim [] fun p => accessRun .read p.1 p.2 := by
  rw [leadingReads, accessRun_byteSize, pointerReads_eq]

theorem leadingReads_kind {i : Instr} {s : State} {x : Access} (hx : x ∈ leadingReads i s) : x.kind = .read := by
  rw [leadingReads_eq] at hx
  rcases List.mem_append.1 hx with hx | hx
  · exact (mem_accessRun.1 hx).1
  · cases hp : pointerOf s i with
    | none => simp [hp] at hx
    | some p => rw [hp] at hx; exact (mem_accessRun.1 hx).1

theorem accesses_eq_leading {i : Instr} {s : State} (hr : Ready s i) : accesses i s = leadingReads i s ++
    (dataAddr s i).elim [] fun a => accessRun .read a (accW s).nbytes ++
      if mnemonicOf i ∈ ["TRB", "TSB", "ASL", "ROL", "LSR", "ROR", "INC", "DEC"] then accessRun .write a (accW s).nbytes
      else [] := by
  rw [accesses, leadingReads, accesses_eq hr, accessRun_byteSize, List.append_assoc, List.append_assoc, List.append_assoc]

/-- After the opcode byte the trace has the operand bytes and the instruction's own accesses. -/
theorem accesses_drop_one (i : Instr) (s : State) :
    (accesses i s).drop 1 = operandReads i s ++ (instanceOf i).accesses s := by
  rw [accesses, accessRun_byteSize]
  rfl

theorem stepHistory_eq (i : Instr) (s : State) :
    stepHistory i s = ⟨.read, (effPC s).toNat⟩ :: leadingReads i s ++ (accesses i s).drop 1 := by
  rw [accesses_drop_one, stepHistory, cyclesReads, List.append_assoc, List.append_assoc]
  rfl

/-- In the history of a fetched instruction that completes, every access is in range. -/
theorem stepHistory_lt {i : Instr} {s t : State} (hf : fetchInstr s = .next i) (h : exec i s = .next t) {x : Access}
    (hx : x ∈ stepHistory i s) : x.addr < s.config.memSize := by
  have hlead : leadingReads i s ⊆ accesses i s := by
    rw [accesses_eq_leading (ready_of_next h)]
    exact List.subset_append_left _ _
  rw [stepHistory_eq] at hx
  rcases List.mem_append.1 hx with hx | hx
  · rcases List.mem_cons.1 hx with rfl | hx
    · refine accesses_lt hf h (hlead ?_)
      rw [leadingReads]
      exact List.mem_append_left _ (List.mem_append_left _ List.mem_cons_self)
    · exact accesses_lt hf h (hlead hx)
  · exact accesses_lt hf h (List.mem_of_mem_drop hx)

/-- The bytes the cycle count is computed from, for an instruction with a `pre_index_mode` and for any other. -/
theorem cyclesOperandReads_eq (i : Instr) (s : State) : cyclesOperandReads i s =
    if (instanceOf i).preIndex.isSome then operandReads i s else [] := by
  unfold cyclesOperandReads
  cases (instanceOf i).preIndex <;> rfl

theorem cyclesOperandReads_sublist (i : Instr) (s : State) : (cyclesOperandReads i s).Sublist (cyclesReads i s) := by
  rw [cyclesOperandReads_eq, cyclesReads, leadingReads]
  split
  · exact (List.sublist_append_right _ _).trans (List.sublist_append_left _ _)
  · exact List.nil_sublist _

/-- Settles O59: the leading reads are the instruction's and the pointer's bytes, and the history puts them before what
Execute accesses. -/
theorem stepHistoryRepeatsOnlyLeadingReads : Obligations.StepHistoryRepeatsOnlyLeadingReads := by
  intro i s lead
  have hlead : leadingReads i s = lead := leadingReads_eq i s
  rw [← hlead]
  refine ⟨rfl, rfl, fun x hx => leadingReads_kind hx, accesses_eq_leading, stepHistory_eq i s,
    fun t hf h x hx => stepHistory_lt hf h hx, fun o16 hi => ?_, fun hi => ?_, cyclesOperandReads_sublist i s⟩
  · rcases hi with rfl | rfl | rfl | rfl | rfl <;> rfl
  · rw [cyclesOperandReads_eq, if_neg]
    rw [preIndex_isSome_iff]
    rintro ⟨o16, h⟩
    simp [hi o16] at h

end Sys2Proof.Machine
end
